-- ==== Sys2Proof/Word.lean ====
section
/-! DEFINITION. The two word types of the machine (00_scope.md R9, R10): a byte of memory and a 32-bit word.
Everything else the spec treats as an unbounded non-negative integer is a `Nat`. -/

namespace Sys2Proof

/-- One byte of the shared memory or of a block (20_memory.md R35, 30_encoding.md R60). -/
abbrev Byte := BitVec 8

/-- A 32-bit register, command word or RGBA32 texel (10_state.md R22, 30_encoding.md R70, R71). -/
abbrev Word := BitVec 32

end Sys2Proof
end

