-- ==== Sys2Proof/Syntax.lean ====
section
/-! DEFINITION. The six commands of the unit (30_encoding.md R71, R72; opcode_table.json), one constructor a row.
The fields are the command word's own fields, at their own widths. -/

namespace Sys2Proof

/-- A command that decodes. `iba` and `height` are CMD.IBA and CMD.HEIGHT of a `DBLK`, `x` and `y` are CMD.X and CMD.Y of
a `DTXL` (30_encoding.md R74). SRC, DST and PITCH are not in the word (R71). -/
inductive Instr where
  /-- `DBLK.BC1` (42_decode_ops.md R123). -/
  | dblkBc1 (iba : Bool) (height : BitVec 3)
  /-- `DBLK.BC2` (42_decode_ops.md R124). -/
  | dblkBc2 (iba : Bool) (height : BitVec 3)
  /-- `DBLK.BC3` (42_decode_ops.md R125). -/
  | dblkBc3 (iba : Bool) (height : BitVec 3)
  /-- `DTXL.BC1` (42_decode_ops.md R126). -/
  | dtxlBc1 (x y : BitVec 2)
  /-- `DTXL.BC2` (42_decode_ops.md R127). -/
  | dtxlBc2 (x y : BitVec 2)
  /-- `DTXL.BC3` (42_decode_ops.md R128). -/
  | dtxlBc3 (x y : BitVec 2)
deriving DecidableEq, Repr

end Sys2Proof
end

