-- ==== Sys2Proof/WellFormed.lean ====
section
/-! DEFINITION. Which commands are well formed: a `DBLK` writes 1 to 4 rows (30_encoding.md R71, R73). Every `DTXL` is:
its two-bit coordinates are always inside the block (R74). An ill-formed `DBLK` still decodes, since its word lies on
the row of the opcode table, and raises F_HEIGHT when it issues. -/

namespace Sys2Proof

/-- `HEIGHT` is a legal number of rows (30_encoding.md R71, R73). -/
def legalHeight (height : BitVec 3) : Bool := 1 ≤ height.toNat && height.toNat ≤ 4

/-- A command whose word is valid (30_encoding.md R72, R73). -/
def Instr.wellFormed : Instr → Bool
  | .dblkBc1 _ h => legalHeight h
  | .dblkBc2 _ h => legalHeight h
  | .dblkBc3 _ h => legalHeight h
  | .dtxlBc1 _ _ => true
  | .dtxlBc2 _ _ => true
  | .dtxlBc3 _ _ => true

end Sys2Proof
end

