-- ==== Sys2Proof/Decode.lean ====
section
/-! DEFINITION. The command word (30_encoding.md R71 to R75): its fields, decoding it with each rejection named, and
encoding it; and the little-endian byte order of every multi-byte value (20_memory.md R40, 00_scope.md R11). -/

namespace Sys2Proof

/-! ### Byte order -/

/-- The little-endian value of a run of bytes, the first at the lowest address (00_scope.md R11). -/
def leNat : List Byte → Nat
  | [] => 0
  | b :: bs => b.toNat + 256 * leNat bs

/-- The word that four bytes hold. -/
def wordOfBytes (bs : List Byte) : Word := BitVec.ofNat 32 (leNat bs)

/-- The four bytes of a word, the first at the lowest address (20_memory.md R41, 00_scope.md R11). -/
def bytesOfWord (w : Word) : List Byte :=
  [w.extractLsb' 0 8, w.extractLsb' 8 8, w.extractLsb' 16 8, w.extractLsb' 24 8]

/-! ### The fields of CMD (30_encoding.md R71) -/

def cmdVar (w : Word) : BitVec 2 := w.extractLsb' 0 2
def cmdOp (w : Word) : BitVec 1 := w.extractLsb' 2 1
def cmdIba (w : Word) : BitVec 1 := w.extractLsb' 3 1
def cmdHeight (w : Word) : BitVec 3 := w.extractLsb' 4 3
def cmdBit7 (w : Word) : BitVec 1 := w.extractLsb' 7 1
def cmdX (w : Word) : BitVec 2 := w.extractLsb' 8 2
def cmdY (w : Word) : BitVec 2 := w.extractLsb' 10 2
def cmdHigh (w : Word) : BitVec 20 := w.extractLsb' 12 20

/-! ### Decoding -/

/-- Why a command word is no command (30_encoding.md R73). -/
inductive DecodeError where
  /-- VAR = 3: F_ILLEGAL_VARIANT. -/
  | illegalVariant
  /-- A reserved bit or an unused field is set: F_RESERVED. -/
  | reserved
  /-- Not four bytes; no word was given. A register write of another width never reaches the decoder (60_exceptions.md R145). -/
  | notAWord
deriving DecidableEq, Repr

/-- The bits that R73 wants zero, in a word whose OP is known. -/
def reservedBitsClear (w : Word) : Bool :=
  cmdBit7 w == 0 && cmdHigh w == 0 &&
    (if cmdOp w == 0 then cmdX w == 0 && cmdY w == 0 else cmdIba w == 0 && cmdHeight w == 0)

/-- Decode a command word: VAR first, then the reserved bits, then the pair (OP, VAR) (30_encoding.md R72, R73;
the order is that of 42_decode_ops.md R122). -/
def decode (w : Word) : Except DecodeError Instr :=
  if cmdVar w = 3 then .error .illegalVariant
  else if reservedBitsClear w = false then .error .reserved
  else if cmdOp w = 0 then
    if cmdVar w = 0 then .ok (.dblkBc1 (cmdIba w == 1) (cmdHeight w))
    else if cmdVar w = 1 then .ok (.dblkBc2 (cmdIba w == 1) (cmdHeight w))
    else .ok (.dblkBc3 (cmdIba w == 1) (cmdHeight w))
  else
    if cmdVar w = 0 then .ok (.dtxlBc1 (cmdX w) (cmdY w))
    else if cmdVar w = 1 then .ok (.dtxlBc2 (cmdX w) (cmdY w))
    else .ok (.dtxlBc3 (cmdX w) (cmdY w))

/-- Decode the four bytes of a command word (30_encoding.md R75: "Every command word is exactly 32 bits long"). -/
def decodeBytes (bs : List Byte) : Except DecodeError Instr :=
  if bs.length = 4 then decode (wordOfBytes bs) else .error .notAWord

/-! ### Encoding -/

/-- The word of a `DBLK`: {reserved, Y, X, bit 7, HEIGHT, IBA, OP = 0, VAR} (30_encoding.md R71, R76). -/
def encodeBlock (var : BitVec 2) (iba : Bool) (height : BitVec 3) : Word :=
  0#20 ++ 0#2 ++ 0#2 ++ 0#1 ++ height ++ BitVec.ofBool iba ++ 0#1 ++ var

/-- The word of a `DTXL`: {reserved, Y, X, bit 7, HEIGHT, IBA, OP = 1, VAR} (30_encoding.md R71, R76). -/
def encodeTexel (var : BitVec 2) (x y : BitVec 2) : Word :=
  0#20 ++ y ++ x ++ 0#1 ++ 0#3 ++ 0#1 ++ 1#1 ++ var

/-- The command word of a command (30_encoding.md R72, R76). -/
def encode : Instr → Word
  | .dblkBc1 iba h => encodeBlock 0 iba h
  | .dblkBc2 iba h => encodeBlock 1 iba h
  | .dblkBc3 iba h => encodeBlock 2 iba h
  | .dtxlBc1 x y => encodeTexel 0 x y
  | .dtxlBc2 x y => encodeTexel 1 x y
  | .dtxlBc3 x y => encodeTexel 2 x y

/-! ### The opcode table -/

/-- The match value of a command's row (30_encoding.md R72). -/
def Instr.rowMatch : Instr → Word
  | .dblkBc1 _ _ => 0x00000000
  | .dblkBc2 _ _ => 0x00000001
  | .dblkBc3 _ _ => 0x00000002
  | .dtxlBc1 _ _ => 0x00000004
  | .dtxlBc2 _ _ => 0x00000005
  | .dtxlBc3 _ _ => 0x00000006

/-- The mask of a command's row (30_encoding.md R72). -/
def Instr.rowMask : Instr → Word
  | .dblkBc1 _ _ => 0xFFFFFF87
  | .dblkBc2 _ _ => 0xFFFFFF87
  | .dblkBc3 _ _ => 0xFFFFFF87
  | .dtxlBc1 _ _ => 0xFFFFF0FF
  | .dtxlBc2 _ _ => 0xFFFFF0FF
  | .dtxlBc3 _ _ => 0xFFFFF0FF

/-- The bytes of the instruction whose bits are `w`, numbered as opcode_table.json numbers them: one 32-bit word,
little-endian, with every bit above `nbits` zero. -/
def tableWordBytes (nbits w : Nat) : List Byte := bytesOfWord (BitVec.ofNat 32 (w % 2 ^ nbits))

/-- What the decoder reads from an instruction of the opcode table. -/
def decodeTableWord (nbits w : Nat) : Option Instr :=
  match decodeBytes (tableWordBytes nbits w) with
  | .ok i => some i
  | .error _ => none

end Sys2Proof
end

