-- ==== Sys2Proof/Config.lean ====
section
/-! DEFINITION. The implementation parameters of 00_scope.md R8 as plain data, the values the spec decides for them,
the sample platform of 95_test_vectors.md section 2.10, and the free value of 70_reset_and_hazards.md R161. -/

namespace Sys2Proof

/-- `BLOCK_LAYOUT` (30_encoding.md R61 to R65, R67). -/
inductive BlockLayout where
  | psp
  | pc
deriving DecidableEq, Repr

/-- `BC2_ALPHA_EXPAND` (40_palette_expansion.md R105). -/
inductive Bc2AlphaExpand where
  | shift4
  | replicate
deriving DecidableEq, Repr

/-- `ALPHA_LERP_FORM` (40_palette_expansion.md R102). -/
inductive AlphaLerpForm where
  | productThenDivide
  | weightThenMultiply
deriving DecidableEq, Repr

/-- The bytes at `base` to `base + size - 1`, named by a parameter. -/
structure Region where
  base : Nat
  size : Nat
deriving DecidableEq, Repr

/-- The parameters of 00_scope.md R8. "Fixed for a model instance and cannot be changed by software"
(10_state.md R32). `regions` and `exceptions` together give the OPEN predicate `MemAdmits`: a byte range is admitted when one
of the regions holds all of it, and the other way round when it is itself one of the exceptions. `MemAdmits` depends on the
range as a whole, so the two lists can give any predicate on the ranges of the address space (log 3). `unitBases` gives both
`N_UNITS`, its length, and `UNIT_BASE(u)`, its entry `u`. -/
structure Params where
  blockLayout    : BlockLayout
  bc2AlphaExpand : Bc2AlphaExpand
  alphaLerpForm  : AlphaLerpForm
  addrBits       : Nat
  regions        : List Region
  exceptions     : List Region
  unitBases      : List Nat
deriving DecidableEq, Repr

/-- The parameters as 00_scope.md R8 decides them, over a platform given by its memory and its windows. -/
def Params.decided (regions : List Region) (unitBases : List Nat) : Params where
  blockLayout    := .psp
  bc2AlphaExpand := .shift4
  alphaLerpForm  := .productThenDivide
  addrBits       := 32
  regions        := regions
  exceptions     := []
  unitBases      := unitBases

/-- The sample platform of 95_test_vectors.md section 2.10: memory [0, 0x10000) and one unit at 0xF0000000.
DESIGN CHOICE, log 1, unsafe: the spec leaves the platform OPEN and calls these "sample values". -/
def Config.samplePlatform : Params := Params.decided [⟨0, 0x10000⟩] [0xF0000000]

/-- The free bytes of 70_reset_and_hazards.md R161: what a byte of the write set holds after its unit was reset
during the command. It has no body, so nothing can be proved of its values (log 8, safe). -/
opaque Config.freeByte : Nat → Byte

end Sys2Proof
end

