-- ==== Sys2Proof/Machine/State.lean ====
section
/-! DEFINITION. Everything the spec gives the machine, as plain data: the units' registers and in-flight records, the
shared memory, the fault record, the parameters, and what the agents outside do next. And the reasons a step can stop. -/

namespace Sys2Proof.Machine

/-- The three block variants (00_scope.md R2). -/
inductive Variant where
  | a
  | b
  | c
deriving DecidableEq, Repr

/-- The registers of a window (10_state.md R22). -/
inductive Reg where
  | cmd
  | src
  | dst
  | pitch
  | result
  | status
deriving DecidableEq, Repr

/-- A register cell: a value, or the marker of 00_scope.md R12 and 10_state.md R29. -/
inductive RegCell where
  | unwritten
  | value (w : Word)
deriving DecidableEq, Repr

/-- The bytes at `base` to `base + len - 1`: a range of 20_memory.md R45. -/
structure ByteRange where
  base : Nat
  len  : Nat
deriving DecidableEq, Repr

/-- The model faults of 60_exceptions.md R142. -/
inductive FaultCode where
  | illegalVariant
  | reserved
  | height
  | coord
  | pitch
  | align
  | access
  | overlap
  | busy
  | race
  | unwritten
  | regAccess
deriving DecidableEq, Repr

/-- The info a fault records (60_exceptions.md R142, column "info recorded"). -/
inductive FaultInfo where
  /-- The command word: F_ILLEGAL_VARIANT, F_RESERVED, F_HEIGHT at issue. -/
  | word (w : Word)
  /-- The variant of a call (42_decode_ops.md R132): F_ILLEGAL_VARIANT. -/
  | callVariant (v : Int)
  /-- The height of a call (42_decode_ops.md R132): F_HEIGHT. -/
  | callHeight (h : Int)
  /-- (x, y) of a call: F_COORD. -/
  | coord (x y : Int)
  /-- PITCH: F_PITCH. -/
  | pitch (p : Int)
  /-- The misaligned address: F_ALIGN. -/
  | address (a : Int)
  /-- The first range that is not admitted: F_ACCESS. -/
  | range (r : ByteRange)
  /-- A call's operand outside the address space (42_decode_ops.md R132): F_ACCESS (log 14). -/
  | operand (v : Int)
  /-- (SRC, DST): F_OVERLAP. -/
  | overlap (src dst : Nat)
  /-- (unit, register): F_BUSY. -/
  | busy (unit : Nat) (r : Reg)
  /-- (agent, address) of a host memory access: F_RACE. -/
  | agentAddress (agent addr : Nat)
  /-- The two units (u, v) of an issue: F_RACE. -/
  | units (u v : Nat)
  /-- The calling agent and the busy unit (42_decode_ops.md R132): F_RACE (log 13). -/
  | agentUnit (agent v : Nat)
  /-- The register: F_UNWRITTEN. -/
  | register (r : Reg)
  /-- (address, width): F_REGACCESS. -/
  | access (addr width : Nat)
deriving DecidableEq, Repr

/-- A fault record (10_state.md R38, 60_exceptions.md R142). -/
structure FaultRecord where
  code : FaultCode
  info : FaultInfo
deriving DecidableEq, Repr

/-- The part of the in-flight record that depends on OP (10_state.md R36): a `DBLK` latches iba, height, dst and pitch, a
`DTXL` latches x and y, and each leaves the other's fields without a value (42_decode_ops.md R122). -/
inductive LatchedOp where
  | block (iba : Bool) (height : BitVec 3) (dst pitch : Word)
  | texel (x y : BitVec 2)
deriving DecidableEq, Repr

/-- The in-flight record L of a busy unit (10_state.md R36), latched when the command issues. -/
structure InFlight where
  variant  : Variant
  op       : LatchedOp
  src      : Word
  readSet  : ByteRange
  writeSet : List ByteRange
deriving DecidableEq, Repr

/-- One unit: its register window (10_state.md R22; STATUS is held as BUSY and DONE, R28) and its in-flight record (R36). -/
structure UnitState where
  cmd      : RegCell
  src      : RegCell
  dst      : RegCell
  pitch    : RegCell
  result   : RegCell
  busy     : Bool
  done     : Bool
  inFlight : Option InFlight
deriving DecidableEq, Repr

/-- A unit after a reset (10_state.md R39, 70_reset_and_hazards.md R160). -/
def UnitState.reset : UnitState where
  cmd      := .unwritten
  src      := .unwritten
  dst      := .unwritten
  pitch    := .unwritten
  result   := .unwritten
  busy     := false
  done     := false
  inFlight := none

/-- What one agent does next (10_state.md R21, 30_encoding.md R77, 70_reset_and_hazards.md R163). The model's own, log 5. -/
inductive Event where
  /-- A host agent reads `width` bytes at `addr`: `RD` or `MEMR`. -/
  | hostRead (agent addr width : Nat)
  /-- A host agent writes the bytes at `addr`, the first at the lowest address: `WR` or `MEMW`. -/
  | hostWrite (agent addr : Nat) (bytes : List Byte)
  /-- A host agent's loop `WAIT` on the STATUS of a unit. -/
  | wait (agent unit : Nat)
  /-- A unit's own step, the completion step (42_decode_ops.md R129). -/
  | complete (unit : Nat)
  /-- The platform resets a unit (70_reset_and_hazards.md R160). -/
  | reset (unit : Nat)
  /-- The call `DecodeBlock` as one transition (42_decode_ops.md R132); variant 0, 1, 2 is A, B, C. -/
  | callBlock (agent : Nat) (variant src dst pitch height : Int) (iba : Bool)
  /-- The call `DecodeTexel` as one transition (42_decode_ops.md R132). -/
  | callTexel (agent : Nat) (variant src x y : Int)
deriving DecidableEq, Repr

/-- Whose step of a command `exec` runs: a host's CMD write to a unit (42_decode_ops.md R122), or that unit's own completion
step (R129). The model's own, log 7. -/
inductive Turn where
  | issue (unit : Nat)
  | complete (unit : Nat)
deriving DecidableEq, Repr

/-- What a host read gives: a register or texel word, or bytes of memory. -/
inductive HostData where
  | word (w : Word)
  | bytes (bs : List Byte)
deriving DecidableEq, Repr

/-- What the last host read returned, and to which agent: the host variable `t` of 30_encoding.md R77. -/
structure Reply where
  agent : Nat
  data  : HostData
deriving DecidableEq, Repr

/-- The shared memory (10_state.md R35): (address, byte) pairs in the canonical form `Memory.wf`. An unlisted byte reads
`Memory.unlisted`. -/
abbrev Memory := List Host.Cell

/-- What a byte of memory that nothing has written reads as. DESIGN CHOICE, log 4, unsafe: memory "holds whatever the
platform put there" (10_state.md R39). -/
def Memory.unlisted : Byte := 0

/-- The canonical form: addresses strictly rising, and no entry that an unlisted address would read as. -/
def Memory.wf : Memory → Bool
  | [] => true
  | (_, v) :: [] => v != Memory.unlisted
  | (a, v) :: (b, w) :: m => v != Memory.unlisted && decide (a < b) && Memory.wf ((b, w) :: m)

/-- The machine. -/
structure State where
  /-- The parameters of 00_scope.md R8; no step changes them (10_state.md R32). -/
  params : Params
  /-- The units 0 to N_UNITS - 1 (10_state.md R21, R22). -/
  units  : List UnitState
  /-- The shared memory (10_state.md R35). -/
  mem    : Memory
  /-- The fault record (10_state.md R38). -/
  fault  : Option FaultRecord
  /-- Whose step of a command `exec` runs (the model's own, log 7). -/
  turn   : Turn
  /-- What the agents do next, the first first (the model's own, log 5). -/
  events : List Event
  /-- What the last host read returned (the model's own, log 5). -/
  reply  : Option Reply
  /-- How many free bytes have been drawn (the model's own, log 8). -/
  draws  : Nat
deriving DecidableEq, Repr

/-- The reasons a step stops with a fault. -/
inductive Fault where
  /-- Raised by every step from a state whose fault record is set: "After a fault the model takes no further step of any
  agent" (60_exceptions.md R142). Safe. -/
  | halted (r : FaultRecord)
  /-- Raised by a host memory access to a byte at or above 2^ADDR_BITS, which does not exist (10_state.md R35; log 9). Safe. -/
  | noSuchAddress (addr : Nat)
  /-- Raised by an event or a command for a unit that is not one of 0 to N_UNITS - 1 (10_state.md R21; log 16). Safe. -/
  | noSuchUnit (unit : Nat)
deriving DecidableEq, Repr

/-- The reasons a step is refused. -/
inductive Refusal where
  /-- Raised by an arm of `exec` whose instruction has no meaning yet; no arm is left that raises it. Safe. -/
  | notModelled (mnemonic : String)
  /-- Raised by a host memory access to a byte of the address space outside `MemAdmits`, which is not usable memory
  (10_state.md R35); what the platform holds there the spec does not say (20_memory.md R50; log 9). Safe. -/
  | unusableMemory (addr : Nat)
deriving DecidableEq, Repr

/-- The machine right after reset: the start of a run (10_state.md R38, R39, 70_reset_and_hazards.md R160) on the sample
platform (log 1), with nothing in memory (log 4) and nothing to do (log 5). -/
def State.reset : State where
  params := Config.samplePlatform
  units  := [UnitState.reset]
  mem    := []
  fault  := none
  turn   := .issue 0
  events := []
  reply  := none
  draws  := 0

end Sys2Proof.Machine
end

