-- ==== Sys2Proof/Machine/Ops.lean ====
section
/-! DEFINITION. The named operations over memory, units and the fault record. Every read and write of the machine's
state goes through these. -/

namespace Sys2Proof.Machine

/-! ### Memory (00_scope.md R11, 20_memory.md R40, R41) -/

/-- The byte at an address. -/
def readByte : Memory → Nat → Byte
  | [], _ => Memory.unlisted
  | (k, v) :: m, a => if a = k then v else readByte m a

/-- Put `b` in front of the cells `m`, unless an unlisted address reads as `b`. -/
def consCell (a : Nat) (b : Byte) (m : Memory) : Memory :=
  if b = Memory.unlisted then m else (a, b) :: m

/-- Store a byte, keeping the canonical form. -/
def writeByte : Memory → Nat → Byte → Memory
  | [], a, b => consCell a b []
  | (k, v) :: m, a, b =>
    if a < k then consCell a b ((k, v) :: m)
    else if a = k then consCell a b m
    else (k, v) :: writeByte m a b

/-- The `n` bytes from `a` on: `MemRead` as the sequence of bytes read (00_scope.md R11, 30_encoding.md R60). -/
def readBytes (m : Memory) (a : Nat) : Nat → List Byte
  | 0 => []
  | n + 1 => readByte m a :: readBytes m (a + 1) n

/-- Store bytes from `a` on, the first at `a`. -/
def writeBytes (m : Memory) (a : Nat) : List Byte → Memory
  | [] => m
  | b :: bs => writeBytes (writeByte m a b) (a + 1) bs

/-- `MemWrite(addr, 4, w)` (00_scope.md R11, 20_memory.md R41). -/
def writeWord (m : Memory) (a : Nat) (w : Word) : Memory := writeBytes m a (bytesOfWord w)

/-- The word at `a`, little-endian (20_memory.md R42). -/
def readWord (m : Memory) (a : Nat) : Word := wordOfBytes (readBytes m a 4)

/-! ### Byte ranges (20_memory.md R45) -/

/-- The address lies in the range. -/
def ByteRange.has (r : ByteRange) (a : Nat) : Bool := r.base ≤ a && a < r.base + r.len

/-- Two ranges share a byte. -/
def ByteRange.meets (r q : ByteRange) : Bool := max r.base q.base < min (r.base + r.len) (q.base + q.len)

/-- Some range of a list has the address. -/
def rangesHave (rs : List ByteRange) (a : Nat) : Bool := rs.any (·.has a)

/-- Some range of a list shares a byte with `q`. -/
def rangesMeet (rs : List ByteRange) (q : ByteRange) : Bool := rs.any (·.meets q)

/-- A range shares a byte with a command's read set or write set. -/
def InFlight.touches (l : InFlight) (q : ByteRange) : Bool := l.readSet.meets q || rangesMeet l.writeSet q

/-- The race condition of two footprints: one's write set meets the other's read set or write set (20_memory.md R53). -/
def footprintsRace (readSet : ByteRange) (writeSet : List ByteRange) (l : InFlight) : Bool :=
  writeSet.any l.touches || rangesMeet l.writeSet readSet

/-! ### The platform (20_memory.md R46, R50) -/

/-- Some region holds all of the range. -/
def inRegion (p : Params) (r : ByteRange) : Bool :=
  p.regions.any fun g => g.base ≤ r.base && r.base + r.len ≤ g.base + g.size

/-- The OPEN predicate `MemAdmits(a, n)` (00_scope.md R8, 20_memory.md R46; log 3). -/
def memAdmits (p : Params) (r : ByteRange) : Bool := inRegion p r != p.exceptions.contains ⟨r.base, r.len⟩

/-- The range passes both checks of 20_memory.md R46: inside the address space, and admitted. -/
def admitted (p : Params) (r : ByteRange) : Bool := r.base + r.len ≤ 2 ^ p.addrBits && memAdmits p r

/-- The byte is usable memory (10_state.md R35): it lies in an admitted range of one byte, or of a length that a command's
ranges have (20_memory.md R45; log 9). -/
def usableByte (p : Params) (a : Nat) : Bool :=
  [1, 8, 16].any fun n => (List.range n).any fun k => decide (k ≤ a) && admitted p ⟨a - k, n⟩

/-- The register window at a base address (10_state.md R22: "0x20 bytes long"). -/
def windowRange (base : Nat) : ByteRange := ⟨base, 0x20⟩

/-- The parameters are ones the spec allows: there is a unit, the windows do not overlap, and `MemAdmits` excludes every
window (00_scope.md R8, 20_memory.md R46, R50). The last is asked of every region and every exception: a `MemAdmits` that excludes
the windows always has lists that meet it, with its admitted ranges as the exceptions (log 3). -/
def platformOk (p : Params) : Bool :=
  !p.unitBases.isEmpty &&
  (List.range p.unitBases.length).all (fun u => (List.range u).all fun v =>
    !(windowRange (p.unitBases.getD u 0)).meets (windowRange (p.unitBases.getD v 0))) &&
  p.unitBases.all (fun b => (p.regions ++ p.exceptions).all fun g => !(ByteRange.mk g.base g.size).meets (windowRange b))

/-! ### The machine -/

/-- Replace the memory. -/
def State.withMem (s : State) (m : Memory) : State := { s with mem := m }

/-- Replace unit `u`. -/
def State.setUnit (s : State) (u : Nat) (x : UnitState) : State := { s with units := s.units.set u x }

/-- Say whose step of a command `exec` runs. -/
def State.withTurn (s : State) (t : Turn) : State := { s with turn := t }

/-- Replace what the agents do next. -/
def State.withEvents (s : State) (es : List Event) : State := { s with events := es }

/-- Hand data back to a host agent (30_encoding.md R77). -/
def State.answer (s : State) (agent : Nat) (d : HostData) : State := { s with reply := some ⟨agent, d⟩ }

/-- Count free bytes as drawn. -/
def State.addDraws (s : State) (n : Nat) : State := { s with draws := s.draws + n }

/-- RAISING A MODEL FAULT, the one shared operation: "The first fault raised in a run sets the model's fault record", and
"The access or command that raised it has no other effect" (60_exceptions.md R142, R147; 10_state.md R38). There is no
handler, no saved state and no return (60_exceptions.md R147, R148). -/
def raise (code : FaultCode) (info : FaultInfo) (s : State) : State :=
  match s.fault with
  | none => { s with fault := some ⟨code, info⟩ }
  | some _ => s

/-- Raise a fault that a check reported. -/
def raiseRecord (r : FaultRecord) (s : State) : State := raise r.code r.info s

/-- The code number of a model fault (60_exceptions.md R142). -/
def FaultCode.number : FaultCode → Nat
  | .illegalVariant => 0x01
  | .reserved => 0x02
  | .height => 0x03
  | .coord => 0x04
  | .pitch => 0x05
  | .align => 0x06
  | .access => 0x07
  | .overlap => 0x08
  | .busy => 0x09
  | .race => 0x0A
  | .unwritten => 0x0B
  | .regAccess => 0x0C

/-- The offset of a register in its window (10_state.md R22). -/
def Reg.offset : Reg → Nat
  | .cmd => 0x00
  | .src => 0x04
  | .dst => 0x08
  | .pitch => 0x0C
  | .result => 0x10
  | .status => 0x14

/-- The register at an offset; 0x18 and 0x1C are reserved (10_state.md R22). -/
def regAtOffset (o : Nat) : Option Reg :=
  if o = 0x00 then some .cmd
  else if o = 0x04 then some .src
  else if o = 0x08 then some .dst
  else if o = 0x0C then some .pitch
  else if o = 0x10 then some .result
  else if o = 0x14 then some .status
  else none

/-! ### A unit's two changes of phase (42_decode_ops.md R122, R129) -/

/-- What a successful issue leaves in the unit: CMD holds the word, L is latched, BUSY = 1 and DONE = 0
(42_decode_ops.md R122). -/
def UnitState.issued (x : UnitState) (w : Word) (l : InFlight) : UnitState :=
  { x with cmd := .value w, busy := true, done := false, inFlight := some l }

/-- What the end of the completion step leaves in the unit: BUSY = 0, DONE = 1 and no L (42_decode_ops.md R129). -/
def UnitState.completed (x : UnitState) : UnitState :=
  { x with busy := false, done := true, inFlight := none }

/-- RESULT holds the word (10_state.md R27). -/
def UnitState.withResult (x : UnitState) (w : Word) : UnitState := { x with result := .value w }

end Sys2Proof.Machine
end

