-- ==== Sys2Proof/Machine/Block.lean ====
section
/-! DEFINITION. The fields of a compressed block under each `BLOCK_LAYOUT` (30_encoding.md R60 to R68). Every other file
reads a block through these fields only (R67). -/

namespace Sys2Proof.Machine

/-- `v[hi:lo]` (00_scope.md R9). -/
def bits (v hi lo : Nat) : Nat := (v >>> lo) % 2 ^ (hi - lo + 1)

/-- `Byte(blk, i)` (00_scope.md R11). -/
def blockByte (blk : List Byte) (i : Nat) : Nat := (blk.getD i 0).toNat

/-- `LE(blk, i, n)` (00_scope.md R11). -/
def blockLe (blk : List Byte) (i : Nat) : Nat → Nat
  | 0 => 0
  | n + 1 => blockByte blk i + 256 * blockLe blk (i + 1) n

/-- The length of a block of a variant: 8 for A, 16 for B and C (30_encoding.md R68). -/
def blockLen : Variant → Nat
  | .a => 8
  | .b => 16
  | .c => 16

/-- Where the colour payload starts (30_encoding.md R61 to R63): first in a `PSP` block; last in a `PC` block. -/
def colorBase (p : Params) (v : Variant) : Nat :=
  match p.blockLayout, v with
  | .psp, _ => 0
  | .pc, .a => 0
  | .pc, .b => 8
  | .pc, .c => 8

/-- `LINE[y]`, the colour indices of a row (30_encoding.md R61, R62). -/
def blockLine (p : Params) (v : Variant) (blk : List Byte) (y : Nat) : Nat :=
  match p.blockLayout with
  | .psp => blockByte blk (colorBase p v + y)
  | .pc => blockByte blk (colorBase p v + 4 + y)

/-- `COLOR1`, endpoint1 (30_encoding.md R61, R62). -/
def color1 (p : Params) (v : Variant) (blk : List Byte) : Nat :=
  match p.blockLayout with
  | .psp => blockLe blk (colorBase p v + 4) 2
  | .pc => blockLe blk (colorBase p v) 2

/-- `COLOR2`, endpoint2 (30_encoding.md R61, R62). -/
def color2 (p : Params) (v : Variant) (blk : List Byte) : Nat :=
  match p.blockLayout with
  | .psp => blockLe blk (colorBase p v + 6) 2
  | .pc => blockLe blk (colorBase p v + 2) 2

/-- `ALINE[y]`, the explicit alphas of a row of a Variant B block (30_encoding.md R62). -/
def alphaLine (p : Params) (blk : List Byte) (y : Nat) : Nat :=
  match p.blockLayout with
  | .psp => blockLe blk (8 + 2 * y) 2
  | .pc => blockLe blk (2 * y) 2

/-- `S`, the 48-bit alpha index stream of a Variant C block (30_encoding.md R63, R64; 90_conflicts.md C1). -/
def alphaStream (p : Params) (blk : List Byte) : Nat :=
  match p.blockLayout with
  | .psp => blockLe blk 8 6
  | .pc => blockLe blk 2 6

/-- `ALPHA1` of a Variant C block (30_encoding.md R63). -/
def alpha1 (p : Params) (blk : List Byte) : Nat :=
  match p.blockLayout with
  | .psp => blockByte blk 14
  | .pc => blockByte blk 0

/-- `ALPHA2` of a Variant C block (30_encoding.md R63). -/
def alpha2 (p : Params) (blk : List Byte) : Nat :=
  match p.blockLayout with
  | .psp => blockByte blk 15
  | .pc => blockByte blk 1

/-- The red field of a 5:6:5 colour (30_encoding.md R65). -/
def red5 (p : Params) (c : Nat) : Nat :=
  match p.blockLayout with
  | .psp => bits c 4 0
  | .pc => bits c 15 11

/-- The green field of a 5:6:5 colour (30_encoding.md R65). -/
def green6 (c : Nat) : Nat := bits c 10 5

/-- The blue field of a 5:6:5 colour (30_encoding.md R65). -/
def blue5 (p : Params) (c : Nat) : Nat :=
  match p.blockLayout with
  | .psp => bits c 15 11
  | .pc => bits c 4 0

end Sys2Proof.Machine
end

