-- ==== Sys2Proof/Machine/Flags.lean ====
section
/-! DEFINITION. The unit has no flag register (10_state.md R31). The two transient predicates an operation computes, and
the STATUS word that BUSY and DONE make (R28). -/

namespace Sys2Proof.Machine

/-- `FOUR_COLOR`: the unsigned compare of the two raw colour endpoints (10_state.md R31, 40_palette_expansion.md R92). -/
def fourColor (c1 c2 : Nat) : Bool := c1 > c2

/-- `ALPHA8`: the unsigned compare of the two alpha endpoints (10_state.md R31, 40_palette_expansion.md R99). -/
def alpha8 (a1 a2 : Nat) : Bool := a1 > a2

/-- STATUS as a host reads it: BUSY in bit 0, DONE in bit 1, the rest 0 (10_state.md R28). -/
def statusWord (x : UnitState) : Word := 0#30 ++ BitVec.ofBool x.done ++ BitVec.ofBool x.busy

end Sys2Proof.Machine
end

