-- ==== Sys2Proof/Machine/Palette.lean ====
section
/-! DEFINITION. The derivations of 40_palette_expansion.md: the colour palette, the alpha ramp, and the expansion of the
4-bit alpha. All arithmetic is on natural numbers and truncates (00_scope.md R10). -/

namespace Sys2Proof.Machine

/-- `Expand5` (40_palette_expansion.md R91). -/
def expand5 (v : Nat) : Nat := (v <<< 3) ||| (v >>> 2)

/-- `Expand6` (40_palette_expansion.md R91). -/
def expand6 (v : Nat) : Nat := (v <<< 2) ||| (v >>> 4)

/-- `Expand4` under each `BC2_ALPHA_EXPAND` (40_palette_expansion.md R105). -/
def expand4 (p : Params) (n : Nat) : Nat :=
  match p.bc2AlphaExpand with
  | .shift4 => n <<< 4
  | .replicate => (n <<< 4) ||| n

/-- An RGBA32 word (30_encoding.md R70, 00_scope.md R13). -/
def rgba (r g b a : Nat) : Word := BitVec.ofNat 32 (a * 2 ^ 24 + b * 2 ^ 16 + g * 2 ^ 8 + r)

/-- Three 8-bit colour channels. -/
structure Rgb where
  r : Nat
  g : Nat
  b : Nat
deriving DecidableEq, Repr

/-- Apply a blend to each channel of two colours. -/
def Rgb.blend (f : Nat → Nat → Nat) (e1 e2 : Rgb) : Rgb := ⟨f e1.r e2.r, f e1.g e2.g, f e1.b e2.b⟩

/-- The RGBA32 word of a colour with an alpha. -/
def Rgb.word (c : Rgb) (a : Nat) : Word := rgba c.r c.g c.b a

/-- `E(c)`: each channel of a 5:6:5 colour expanded to 8 bits (40_palette_expansion.md R91). -/
def expandColor (p : Params) (c : Nat) : Rgb := ⟨expand5 (red5 p c), expand6 (green6 c), expand5 (blue5 p c)⟩

/-- The 2:1 blend of a channel, `(2*a + b) div 3` (40_palette_expansion.md R93). -/
def blendTwoOne (a b : Nat) : Nat := (2 * a + b) / 3

/-- The 1:2 blend of a channel, `(a + 2*b) div 3` (40_palette_expansion.md R93). -/
def blendOneTwo (a b : Nat) : Nat := (a + 2 * b) / 3

/-- The average of a channel, `(a + b) div 2` (40_palette_expansion.md R94). -/
def average (a b : Nat) : Nat := (a + b) / 2

/-- The four-colour palette (40_palette_expansion.md R93). -/
def fourColorPalette (e1 e2 : Rgb) : Vector Word 4 :=
  #v[e1.word 255, e2.word 255, (Rgb.blend blendTwoOne e1 e2).word 255, (Rgb.blend blendOneTwo e1 e2).word 255]

/-- The three-colour palette, its last entry the transparent-black sentinel (40_palette_expansion.md R94). -/
def threeColorPalette (e1 e2 : Rgb) (iba : Bool) : Vector Word 4 :=
  #v[e1.word 255, e2.word 255, (Rgb.blend average e1 e2).word 255, rgba 0 0 0 (if iba then 255 else 0)]

/-- The palette P[0..3] of two raw endpoints (40_palette_expansion.md R90 to R94). -/
def palette (p : Params) (c1 c2 : Nat) (iba : Bool) : Vector Word 4 :=
  if fourColor c1 c2 then fourColorPalette (expandColor p c1) (expandColor p c2)
  else threeColorPalette (expandColor p c1) (expandColor p c2) iba

/-- `Lerp(a1, a2, n, d)` under each `ALPHA_LERP_FORM` (40_palette_expansion.md R102). -/
def lerp (p : Params) (a1 a2 n d : Nat) : Nat :=
  match p.alphaLerpForm with
  | .productThenDivide => ((a1 * ((d - n) <<< 8)) / d + (a2 * (n <<< 8)) / d + 31) >>> 8
  | .weightThenMultiply => (a1 * (((d - n) <<< 8) / d) + a2 * ((n <<< 8) / d) + 31) >>> 8

/-- The alpha ramp A[0..7]: eight-alpha (40_palette_expansion.md R100) or six-alpha (R101). -/
def alphaRamp (p : Params) (a1 a2 : Nat) : Vector Nat 8 :=
  if alpha8 a1 a2 then
    #v[a1, a2, lerp p a1 a2 1 7, lerp p a1 a2 2 7, lerp p a1 a2 3 7, lerp p a1 a2 4 7, lerp p a1 a2 5 7, lerp p a1 a2 6 7]
  else
    #v[a1, a2, lerp p a1 a2 1 5, lerp p a1 a2 2 5, lerp p a1 a2 3 5, lerp p a1 a2 4 5, 0, 255]

end Sys2Proof.Machine
end

