-- ==== Sys2Proof/Machine/Texel.lean ====
section
/-! DEFINITION. Index extraction and texel assembly (41_texel_assembly.md), and the two pure functions of
42_decode_ops.md R120 and R121. `x` is the column and `y` the row (00_scope.md R14). -/

namespace Sys2Proof.Machine

/-- `CI(x, y)`: the 2-bit colour index (41_texel_assembly.md R110). -/
def colorIndex (p : Params) (v : Variant) (blk : List Byte) (x y : Nat) : Nat :=
  bits (blockLine p v blk y) (2 * x + 1) (2 * x)

/-- `AN(x, y)`: the explicit 4-bit alpha (41_texel_assembly.md R111). -/
def alphaNibble (p : Params) (blk : List Byte) (x y : Nat) : Nat :=
  bits (alphaLine p blk y) (4 * x + 3) (4 * x)

/-- `AI(x, y)`: the 3-bit ramp index (41_texel_assembly.md R112). -/
def alphaIndex (p : Params) (blk : List Byte) (x y : Nat) : Nat :=
  bits (alphaStream p blk) (3 * (4 * y + x) + 2) (3 * (4 * y + x))

/-- The palette entry a texel selects, `P[CI(x, y)]`. -/
def paletteEntry (p : Params) (v : Variant) (blk : List Byte) (x y : Nat) (iba : Bool) : Word :=
  (palette p (color1 p v blk) (color2 p v blk) iba).toList.getD (colorIndex p v blk x y) 0

/-- Put an alpha over the RGB of a palette word: `(a << 24) | P[i][23:0]` (41_texel_assembly.md R114, R115). -/
def withAlpha (a : Nat) (w : Word) : Word := (BitVec.ofNat 32 a <<< 24) ||| (w &&& 0x00FFFFFF)

/-- `TexelA` (41_texel_assembly.md R113): the whole palette word. -/
def texelA (p : Params) (blk : List Byte) (x y : Nat) (iba : Bool) : Word :=
  paletteEntry p .a blk x y iba

/-- `TexelB` (41_texel_assembly.md R114). The palette is built with the command's iba, and its alpha is discarded. -/
def texelB (p : Params) (blk : List Byte) (x y : Nat) (iba : Bool) : Word :=
  withAlpha (expand4 p (alphaNibble p blk x y)) (paletteEntry p .b blk x y iba)

/-- `A[AI(x, y)]`: the ramp value of a texel of a Variant C block (41_texel_assembly.md R115). -/
def rampEntry (p : Params) (blk : List Byte) (x y : Nat) : Nat :=
  (alphaRamp p (alpha1 p blk) (alpha2 p blk)).toList.getD (alphaIndex p blk x y) 0

/-- `TexelC` (41_texel_assembly.md R115). The palette is built with the command's iba, and its alpha is discarded. -/
def texelC (p : Params) (blk : List Byte) (x y : Nat) (iba : Bool) : Word :=
  withAlpha (rampEntry p blk x y) (paletteEntry p .c blk x y iba)

/-- `Texel(v, blk, x, y, iba)` (41_texel_assembly.md R117). -/
def texel (p : Params) (v : Variant) (blk : List Byte) (x y : Nat) (iba : Bool) : Word :=
  match v with
  | .a => texelA p blk x y iba
  | .b => texelB p blk x y iba
  | .c => texelC p blk x y iba

/-- `DecodeTexelFn` (42_decode_ops.md R121): iba is 0. -/
def decodeTexelFn (p : Params) (v : Variant) (blk : List Byte) (x y : Nat) : Word := texel p v blk x y false

/-- The texels (x, y) of rows 0 to h - 1, row by row, each with the word that `f` gives it: the loops of 42_decode_ops.md
R123 to R125. -/
def blockTexels (f : Nat → Nat → Word) (h : Nat) : List ((Nat × Nat) × Word) :=
  (List.range h).flatMap fun y => (List.range 4).map fun x => ((x, y), f x y)

/-- `DecodeBlockFn` (42_decode_ops.md R120), as the list of its texels. -/
def decodeBlockFn (p : Params) (v : Variant) (blk : List Byte) (iba : Bool) (h : Nat) : List ((Nat × Nat) × Word) :=
  blockTexels (fun x y => texel p v blk x y iba) h

end Sys2Proof.Machine
end

