-- ==== Sys2Proof/Machine/Operands.lean ====
section
/-! DEFINITION. The operand forms: a command's register operands, its footprint, the texel addresses, and the checks on them
(20_memory.md R43 to R47, R53), in the order of 42_decode_ops.md R122; and the register that a host access names. -/

namespace Sys2Proof.Machine

/-! ### Footprint (20_memory.md R45) -/

/-- The address of texel (x, y) of the output (20_memory.md R45). -/
def texelAddr (dst pitch x y : Nat) : Nat := dst + 4 * (y * pitch + x)

/-- The read set R = [SRC, SRC + len) (20_memory.md R45). -/
def readSetOf (v : Variant) (src : Nat) : ByteRange := ⟨src, blockLen v⟩

/-- Row `y` of the write set (20_memory.md R45). -/
def rowRange (dst pitch y : Nat) : ByteRange := ⟨dst + 4 * y * pitch, 16⟩

/-- The write set W of a `DBLK`, one range a row (20_memory.md R45). -/
def writeSetOf (dst pitch h : Nat) : List ByteRange := (List.range h).map (rowRange dst pitch)

/-! ### The checks of an issue, each with the fault it raises (42_decode_ops.md R122) -/

/-- A register operand; an unwritten one is F_UNWRITTEN (10_state.md R29). -/
def readOperand (r : Reg) : RegCell → Except FaultRecord Word
  | .value w => .ok w
  | .unwritten => .error ⟨.unwritten, .register r⟩

/-- F_PITCH: more than one row, and rows that would overlap (20_memory.md R47). -/
def pitchBad (h pitch : Nat) : Bool := h > 1 && pitch < 4

/-- Unit `v` is busy with a command whose footprint races with R and W (20_memory.md R53). -/
def unitRaces (s : State) (readSet : ByteRange) (writeSet : List ByteRange) (v : Nat) : Bool :=
  match s.units[v]? with
  | none => false
  | some x =>
    x.busy && (match x.inFlight with
      | none => false
      | some l => footprintsRace readSet writeSet l)

/-- The first busy unit, other than `self`, that a footprint races with. -/
def racingUnit (s : State) (self : Option Nat) (readSet : ByteRange) (writeSet : List ByteRange) : Option Nat :=
  (List.range s.units.length).find? fun v => self != some v && unitRaces s readSet writeSet v

/-- The checks of a footprint, in order: F_ACCESS for the first range that is not admitted (20_memory.md R46), F_OVERLAP
(R47), F_RACE for the first unit (R53). -/
def footprintFault (s : State) (self : Option Nat) (raceInfo : Nat → FaultInfo) (readSet : ByteRange)
    (writeSet : List ByteRange) (src dst : Nat) : Option FaultRecord :=
  match (readSet :: writeSet).find? (fun r => !admitted s.params r) with
  | some r => some ⟨.access, .range r⟩
  | none =>
    if rangesMeet writeSet readSet then some ⟨.overlap, .overlap src dst⟩
    else match racingUnit s self readSet writeSet with
      | some v => some ⟨.race, raceInfo v⟩
      | none => none

/-- The checks of a `DBLK` once its operands are read, in order: F_PITCH, F_ALIGN for SRC and then DST (20_memory.md R43),
and those of its footprint. -/
def blockOperandFault (s : State) (u : Nat) (v : Variant) (h : BitVec 3) (src dst pitch : Word) : Option FaultRecord :=
  if pitchBad h.toNat pitch.toNat then some ⟨.pitch, .pitch pitch.toNat⟩
  else if src.toNat % blockLen v ≠ 0 then some ⟨.align, .address src.toNat⟩
  else if dst.toNat % 4 ≠ 0 then some ⟨.align, .address dst.toNat⟩
  else footprintFault s (some u) (.units u) (readSetOf v src.toNat) (writeSetOf dst.toNat pitch.toNat h.toNat)
    src.toNat dst.toNat

/-- The checks of a `DTXL` once SRC is read, in order: F_ALIGN for SRC, and those of its footprint, which writes nothing
(20_memory.md R43, R45). -/
def texelOperandFault (s : State) (u : Nat) (v : Variant) (src : Word) : Option FaultRecord :=
  if src.toNat % blockLen v ≠ 0 then some ⟨.align, .address src.toNat⟩
  else footprintFault s (some u) (.units u) (readSetOf v src.toNat) [] src.toNat 0

/-- The in-flight record of a `DBLK` (42_decode_ops.md R122). -/
def blockRecord (v : Variant) (iba : Bool) (h : BitVec 3) (src dst pitch : Word) : InFlight where
  variant  := v
  op       := .block iba h dst pitch
  src      := src
  readSet  := readSetOf v src.toNat
  writeSet := writeSetOf dst.toNat pitch.toNat h.toNat

/-- The in-flight record of a `DTXL` (42_decode_ops.md R122). -/
def texelRecord (v : Variant) (xx yy : BitVec 2) (src : Word) : InFlight where
  variant  := v
  op       := .texel xx yy
  src      := src
  readSet  := readSetOf v src.toNat
  writeSet := []

/-- The `DBLK` command of a variant (30_encoding.md R72). -/
def blockCommand : Variant → Bool → BitVec 3 → Instr
  | .a, iba, h => .dblkBc1 iba h
  | .b, iba, h => .dblkBc2 iba h
  | .c, iba, h => .dblkBc3 iba h

/-- The `DTXL` command of a variant (30_encoding.md R72). -/
def texelCommand : Variant → BitVec 2 → BitVec 2 → Instr
  | .a, x, y => .dtxlBc1 x y
  | .b, x, y => .dtxlBc2 x y
  | .c, x, y => .dtxlBc3 x y

/-- The command that an in-flight record names: the pair (OP, VAR) with its operands (30_encoding.md R72). -/
def InFlight.command (l : InFlight) : Instr :=
  match l.op with
  | .block iba h _ _ => blockCommand l.variant iba h
  | .texel x y => texelCommand l.variant x y

/-! ### The register a host access names (10_state.md R22, 60_exceptions.md R145) -/

/-- The unit whose window a host access touches; none makes it a memory access (60_exceptions.md R145). -/
def windowOf (p : Params) (addr width : Nat) : Option Nat :=
  p.unitBases.findIdx? fun b => (ByteRange.mk addr width).meets (windowRange b)

/-- The register of unit `u` that an access names: exactly 4 bytes wide at a register's offset (10_state.md R22). Every
such offset is 4-byte aligned. -/
def regNamed (p : Params) (u addr width : Nat) : Option Reg :=
  match p.unitBases[u]? with
  | none => none
  | some b => if width = 4 ∧ b ≤ addr then regAtOffset (addr - b) else none

end Sys2Proof.Machine
end

