-- ==== Sys2Proof/Machine/Command.lean ====
section
/-! DEFINITION. The two steps that every command has, once for all of them: the issue (42_decode_ops.md R122) and the
completion step (R129). Each of `issueBlock`, `issueTexel` and `completeWith` acts on one unit. -/

namespace Sys2Proof.Machine

/-- The end of R122: CMD, L, BUSY and DONE are written, "only when no check faults". -/
def latch (u : Nat) (x : UnitState) (w : Word) (l : InFlight) (s : State) : Host.Outcome State Fault Refusal :=
  .next (s.setUnit u (x.issued w l))

/-- The issue of a `DBLK` of variant `v` whose command word is `w` (42_decode_ops.md R122). The word has decoded, so
F_ILLEGAL_VARIANT and F_RESERVED, which stand between F_BUSY and F_HEIGHT, are behind it. -/
def issueBlock (u : Nat) (v : Variant) (iba : Bool) (h : BitVec 3) (w : Word) (s : State) :
    Host.Outcome State Fault Refusal :=
  match s.units[u]? with
  | none => .fault (.noSuchUnit u)
  | some x =>
    if x.busy then .next (raise .busy (.busy u .cmd) s)
    else if legalHeight h = false then .next (raise .height (.word w) s)
    else match readOperand .src x.src with
      | .error r => .next (raiseRecord r s)
      | .ok src => match readOperand .dst x.dst with
        | .error r => .next (raiseRecord r s)
        | .ok dst => match readOperand .pitch x.pitch with
          | .error r => .next (raiseRecord r s)
          | .ok pitch => match blockOperandFault s u v h src dst pitch with
            | some r => .next (raiseRecord r s)
            | none => latch u x w (blockRecord v iba h src dst pitch) s

/-- The issue of a `DTXL` of variant `v` whose command word is `w` (42_decode_ops.md R122). DST and PITCH are neither read
nor checked (R126). -/
def issueTexel (u : Nat) (v : Variant) (xx yy : BitVec 2) (w : Word) (s : State) : Host.Outcome State Fault Refusal :=
  match s.units[u]? with
  | none => .fault (.noSuchUnit u)
  | some x =>
    if x.busy then .next (raise .busy (.busy u .cmd) s)
    else match readOperand .src x.src with
      | .error r => .next (raiseRecord r s)
      | .ok src => match texelOperandFault s u v src with
        | some r => .next (raiseRecord r s)
        | none => latch u x w (texelRecord v xx yy src) s

/-- The completion step of unit `u` for the command `i`, whose pseudocode is `run` (42_decode_ops.md R129): it is enabled
when BUSY = 1 and L names `i`, and changes nothing otherwise (log 7). -/
def completeWith (u : Nat) (i : Instr) (run : UnitState → InFlight → State → State) (s : State) :
    Host.Outcome State Fault Refusal :=
  match s.units[u]? with
  | none => .fault (.noSuchUnit u)
  | some x => match x.inFlight with
    | none => .next s
    | some l => if x.busy = true ∧ l.command = i then .next (run x l s) else .next s

/-- The block a command reads, 8 or 16 bytes at SRC (20_memory.md R44). -/
def blockOf (s : State) (l : InFlight) : List Byte := readBytes s.mem l.src.toNat (blockLen l.variant)

/-- The texel writes of a `DBLK`, in the order of its loops (42_decode_ops.md R123 to R125; 20_memory.md R45). -/
def writeTexels (m : Memory) (dst pitch : Nat) : List ((Nat × Nat) × Word) → Memory
  | [] => m
  | ((x, y), w) :: ts => writeTexels (writeWord m (texelAddr dst pitch x y) w) dst pitch ts

/-- The pseudocode of a `DBLK` and the end of its completion step, for the texel function `f` of its block
(42_decode_ops.md R123 to R125, R129). -/
def runBlock (u : Nat) (f : List Byte → Nat → Nat → Word) (x : UnitState) (l : InFlight) (s : State) : State :=
  match l.op with
  | .block _ h dst pitch =>
    (s.withMem (writeTexels s.mem dst.toNat pitch.toNat (blockTexels (f (blockOf s l)) h.toNat))).setUnit u x.completed
  | .texel _ _ => s

/-- The pseudocode of a `DTXL` and the end of its completion step, for the texel function `f` of its block
(42_decode_ops.md R126 to R129). -/
def runTexel (u : Nat) (f : List Byte → Nat → Nat → Word) (x : UnitState) (l : InFlight) (s : State) : State :=
  match l.op with
  | .block _ _ _ _ => s
  | .texel xx yy => s.setUnit u (x.withResult (f (blockOf s l) xx.toNat yy.toNat)).completed

end Sys2Proof.Machine
end

