-- ==== Sys2Proof/Machine/Calls.lean ====
section
/-! DEFINITION. The call-level form of 42_decode_ops.md R132: `DecodeBlock` and `DecodeTexel` as single transitions over
unbounded integer operands, with no register and no unit. The order of the checks is that of R122; where R132 adds a
check, log 14 says where it stands. -/

namespace Sys2Proof.Machine

/-- The variant a call names: 0, 1, 2 for A, B, C (30_encoding.md R71); any other is F_ILLEGAL_VARIANT (42_decode_ops.md R132). -/
def callVariant (v : Int) : Option Variant :=
  if v = 0 then some .a else if v = 1 then some .b else if v = 2 then some .c else none

/-- The operand lies in 0 to 2^ADDR_BITS - 1 (42_decode_ops.md R132). -/
def operandFits (p : Params) (v : Int) : Bool := 0 ≤ v && v < (2 ^ p.addrBits : Nat)

/-- The first operand of a call that does not fit. -/
def operandMisfit (p : Params) (vs : List Int) : Option Int := vs.find? fun v => !operandFits p v

/-- The checks of a `DecodeBlock` call after its variant, in order: F_HEIGHT, F_PITCH, F_ALIGN for srcBlock and dst,
F_ACCESS for an operand and then for the footprint, F_OVERLAP, F_RACE (42_decode_ops.md R122, R132). -/
def callBlockFault (s : State) (agent : Nat) (v : Variant) (src dst pitch height : Int) : Option FaultRecord :=
  if height < 1 ∨ 4 < height then some ⟨.height, .callHeight height⟩
  else if 1 < height ∧ pitch < 4 then some ⟨.pitch, .pitch pitch⟩
  else if src % (blockLen v : Int) ≠ 0 then some ⟨.align, .address src⟩
  else if dst % 4 ≠ 0 then some ⟨.align, .address dst⟩
  else match operandMisfit s.params [src, dst, pitch] with
    | some o => some ⟨.access, .operand o⟩
    | none => footprintFault s none (.agentUnit agent) (readSetOf v src.toNat)
        (writeSetOf dst.toNat pitch.toNat height.toNat) src.toNat dst.toNat

/-- The checks of a `DecodeTexel` call after its variant, in order: F_COORD, F_ALIGN, F_ACCESS for srcBlock and then for
the footprint, F_RACE (42_decode_ops.md R122, R132). -/
def callTexelFault (s : State) (agent : Nat) (v : Variant) (src x y : Int) : Option FaultRecord :=
  if x < 0 ∨ 3 < x ∨ y < 0 ∨ 3 < y then some ⟨.coord, .coord x y⟩
  else if src % (blockLen v : Int) ≠ 0 then some ⟨.align, .address src⟩
  else match operandMisfit s.params [src] with
    | some o => some ⟨.access, .operand o⟩
    | none => footprintFault s none (.agentUnit agent) (readSetOf v src.toNat) [] src.toNat 0

/-- `DecodeBlock(variant, srcBlock, dst, pitch, height, ignoreBinaryAlpha)` (42_decode_ops.md R132). -/
def callBlock (agent : Nat) (variant src dst pitch height : Int) (iba : Bool) (s : State) : State :=
  match callVariant variant with
  | none => raise .illegalVariant (.callVariant variant) s
  | some v => match callBlockFault s agent v src dst pitch height with
    | some r => raiseRecord r s
    | none =>
      s.withMem (writeTexels s.mem dst.toNat pitch.toNat
        (decodeBlockFn s.params v (readBytes s.mem src.toNat (blockLen v)) iba height.toNat))

/-- `DecodeTexel(variant, srcBlock, x, y)`, which returns its RGBA32 word to the caller (42_decode_ops.md R132). -/
def callTexel (agent : Nat) (variant src x y : Int) (s : State) : State :=
  match callVariant variant with
  | none => raise .illegalVariant (.callVariant variant) s
  | some v => match callTexelFault s agent v src x y with
    | some r => raiseRecord r s
    | none =>
      s.answer agent (.word (decodeTexelFn s.params v (readBytes s.mem src.toNat (blockLen v)) x.toNat y.toNat))

end Sys2Proof.Machine
end

