-- ==== Sys2Proof/Machine/Dblk.lean ====
section
/-! DEFINITION. The meanings of the three `DBLK` commands (42_decode_ops.md R123 to R125). Each has the two steps of
R122 and R129; `State.turn` says which of them runs (log 7). -/

namespace Sys2Proof.Machine

/-- `DBLK.BC1` (42_decode_ops.md R123): the issue, or the completion step that writes `TexelA` of a Variant A block. -/
def execDblkBc1 (iba : Bool) (height : BitVec 3) (s : State) : Host.Outcome State Fault Refusal :=
  match s.turn with
  | .issue u => issueBlock u .a iba height (encode (.dblkBc1 iba height)) s
  | .complete u =>
    completeWith u (.dblkBc1 iba height) (runBlock u (fun blk x y => texelA s.params blk x y iba)) s

/-- `DBLK.BC2` (42_decode_ops.md R124): the issue, or the completion step that writes `TexelB` of a Variant B block. -/
def execDblkBc2 (iba : Bool) (height : BitVec 3) (s : State) : Host.Outcome State Fault Refusal :=
  match s.turn with
  | .issue u => issueBlock u .b iba height (encode (.dblkBc2 iba height)) s
  | .complete u =>
    completeWith u (.dblkBc2 iba height) (runBlock u (fun blk x y => texelB s.params blk x y iba)) s

/-- `DBLK.BC3` (42_decode_ops.md R125): the issue, or the completion step that writes `TexelC` of a Variant C block. -/
def execDblkBc3 (iba : Bool) (height : BitVec 3) (s : State) : Host.Outcome State Fault Refusal :=
  match s.turn with
  | .issue u => issueBlock u .c iba height (encode (.dblkBc3 iba height)) s
  | .complete u =>
    completeWith u (.dblkBc3 iba height) (runBlock u (fun blk x y => texelC s.params blk x y iba)) s

end Sys2Proof.Machine
end

