-- ==== Sys2Proof/Machine/Dtxl.lean ====
section
/-! DEFINITION. The meanings of the three `DTXL` commands (42_decode_ops.md R126 to R128). Each has the two steps of
R122 and R129; `State.turn` says which of them runs (log 7). A `DTXL` uses iba = 0 (R121). -/

namespace Sys2Proof.Machine

/-- `DTXL.BC1` (42_decode_ops.md R126): the issue, or the completion step that puts one `TexelA` into RESULT. -/
def execDtxlBc1 (x y : BitVec 2) (s : State) : Host.Outcome State Fault Refusal :=
  match s.turn with
  | .issue u => issueTexel u .a x y (encode (.dtxlBc1 x y)) s
  | .complete u =>
    completeWith u (.dtxlBc1 x y) (runTexel u (fun blk xx yy => decodeTexelFn s.params .a blk xx yy)) s

/-- `DTXL.BC2` (42_decode_ops.md R127): the issue, or the completion step that puts one `TexelB` into RESULT. -/
def execDtxlBc2 (x y : BitVec 2) (s : State) : Host.Outcome State Fault Refusal :=
  match s.turn with
  | .issue u => issueTexel u .b x y (encode (.dtxlBc2 x y)) s
  | .complete u =>
    completeWith u (.dtxlBc2 x y) (runTexel u (fun blk xx yy => texelB s.params blk xx yy false)) s

/-- `DTXL.BC3` (42_decode_ops.md R128): the issue, or the completion step that puts one `TexelC` into RESULT. -/
def execDtxlBc3 (x y : BitVec 2) (s : State) : Host.Outcome State Fault Refusal :=
  match s.turn with
  | .issue u => issueTexel u .c x y (encode (.dtxlBc3 x y)) s
  | .complete u =>
    completeWith u (.dtxlBc3 x y) (runTexel u (fun blk xx yy => texelC s.params blk xx yy false)) s

end Sys2Proof.Machine
end

