-- ==== Sys2Proof/Machine/Dispatch.lean ====
section
/-! DEFINITION. The dispatch: one arm per command of opcode_table.json. -/

namespace Sys2Proof.Machine

def exec (i : Instr) (s : State) : Host.Outcome State Fault Refusal :=
  match i with
  | .dblkBc1 iba height => Sys2Proof.Machine.execDblkBc1 iba height s
  | .dblkBc2 iba height => Sys2Proof.Machine.execDblkBc2 iba height s
  | .dblkBc3 iba height => Sys2Proof.Machine.execDblkBc3 iba height s
  | .dtxlBc1 x y => Sys2Proof.Machine.execDtxlBc1 x y s
  | .dtxlBc2 x y => Sys2Proof.Machine.execDtxlBc2 x y s
  | .dtxlBc3 x y => Sys2Proof.Machine.execDtxlBc3 x y s

end Sys2Proof.Machine
end

