-- ==== Sys2Proof/Machine/HostPort.lean ====
section
/-! DEFINITION. What a host agent's access does (10_state.md R22 to R29, 20_memory.md R53, 60_exceptions.md R143, R145):
register reads and writes, and memory reads and writes. -/

namespace Sys2Proof.Machine

/-! ### Register reads (no side effect, 20_memory.md R49) -/

/-- Read a cell: its value, or F_UNWRITTEN (10_state.md R29). -/
def readCell (agent : Nat) (r : Reg) (c : RegCell) (s : State) : State :=
  match readOperand r c with
  | .ok w => s.answer agent (.word w)
  | .error e => raiseRecord e s

/-- A host read of a register (10_state.md R23 to R28). Only RESULT may not be read while BUSY = 1 (R27). -/
def readReg (agent u : Nat) (r : Reg) (x : UnitState) (s : State) : State :=
  match r with
  | .cmd => readCell agent .cmd x.cmd s
  | .src => readCell agent .src x.src s
  | .dst => readCell agent .dst x.dst s
  | .pitch => readCell agent .pitch x.pitch s
  | .result => if x.busy then raise .busy (.busy u .result) s else readCell agent .result x.result s
  | .status => s.answer agent (.word (statusWord x))

/-! ### Register writes -/

/-- The fault of a command word that does not decode (30_encoding.md R73). The width of a register access is checked before
(60_exceptions.md R143), so `notAWord` does not arise here. -/
def decodeFault : DecodeError → FaultCode
  | .illegalVariant => .illegalVariant
  | .reserved => .reserved
  | .notAWord => .regAccess

/-- A host write of CMD: F_BUSY first, then the word is decoded, and the command it encodes issues
(42_decode_ops.md R122; `exec` makes the F_BUSY check again, which changes nothing). -/
def writeCmd (u : Nat) (bytes : List Byte) (x : UnitState) (s : State) : Host.Outcome State Fault Refusal :=
  match decodeBytes bytes with
  | .ok i => exec i (s.withTurn (.issue u))
  | .error e =>
    if x.busy then .next (raise .busy (.busy u .cmd) s)
    else .next (raise (decodeFault e) (.word (wordOfBytes bytes)) s)

/-- A host write of an operand register: F_BUSY while BUSY = 1, else the cell holds the word (10_state.md R24 to R26). -/
def writeOperand (u : Nat) (r : Reg) (x x' : UnitState) (s : State) : State :=
  if x.busy then raise .busy (.busy u r) s else s.setUnit u x'

/-- A host write of a register; RESULT and STATUS are read only (10_state.md R27, R28). -/
def writeReg (u addr : Nat) (r : Reg) (bytes : List Byte) (x : UnitState) (s : State) :
    Host.Outcome State Fault Refusal :=
  match r with
  | .cmd => writeCmd u bytes x s
  | .src => .next (writeOperand u .src x { x with src := .value (wordOfBytes bytes) } s)
  | .dst => .next (writeOperand u .dst x { x with dst := .value (wordOfBytes bytes) } s)
  | .pitch => .next (writeOperand u .pitch x { x with pitch := .value (wordOfBytes bytes) } s)
  | .result => .next (raise .regAccess (.access addr bytes.length) s)
  | .status => .next (raise .regAccess (.access addr bytes.length) s)

/-! ### Memory accesses (20_memory.md R53) -/

/-- A host write of the range races with a busy unit: it meets R or W (20_memory.md R53). -/
def unitBlocksWrite (q : ByteRange) (x : UnitState) : Bool :=
  x.busy && (match x.inFlight with
    | none => false
    | some l => l.touches q)

/-- A host read of the range races with a busy unit: it meets W (20_memory.md R53). -/
def unitBlocksRead (q : ByteRange) (x : UnitState) : Bool :=
  x.busy && (match x.inFlight with
    | none => false
    | some l => rangesMeet l.writeSet q)

/-- The first address of a range that does not pass a test. -/
def firstFailing (test : Nat → Bool) (q : ByteRange) : Option Nat :=
  ((List.range q.len).map (q.base + ·)).find? (fun a => !test a)

/-- Run a host memory access, its race check made: a byte that does not exist is a fault, and a byte that is not usable
memory is refused (10_state.md R35; log 9). -/
def onUsableMemory (q : ByteRange) (s s' : State) : Host.Outcome State Fault Refusal :=
  match firstFailing (fun a => decide (a < 2 ^ s.params.addrBits)) q with
  | some a => .fault (.noSuchAddress a)
  | none => match firstFailing (usableByte s.params) q with
    | some a => .refused (.unusableMemory a)
    | none => .next s'

/-- `MEMR` (30_encoding.md R77): "F_RACE is the only check" (60_exceptions.md R143). -/
def hostMemRead (agent addr width : Nat) (s : State) : Host.Outcome State Fault Refusal :=
  if s.units.any (unitBlocksRead ⟨addr, width⟩) then .next (raise .race (.agentAddress agent addr) s)
  else onUsableMemory ⟨addr, width⟩ s (s.answer agent (.bytes (readBytes s.mem addr width)))

/-- `MEMW` (30_encoding.md R77): "F_RACE is the only check" (60_exceptions.md R143). -/
def hostMemWrite (agent addr : Nat) (bytes : List Byte) (s : State) : Host.Outcome State Fault Refusal :=
  if s.units.any (unitBlocksWrite ⟨addr, bytes.length⟩) then .next (raise .race (.agentAddress agent addr) s)
  else onUsableMemory ⟨addr, bytes.length⟩ s (s.withMem (writeBytes s.mem addr bytes))

/-! ### An access: register or memory (60_exceptions.md R145) -/

/-- A host read of `width` bytes at `addr`. -/
def hostRead (agent addr width : Nat) (s : State) : Host.Outcome State Fault Refusal :=
  match windowOf s.params addr width with
  | none => hostMemRead agent addr width s
  | some u => match regNamed s.params u addr width with
    | none => .next (raise .regAccess (.access addr width) s)
    | some r => match s.units[u]? with
      | none => .fault (.noSuchUnit u)
      | some x => .next (readReg agent u r x s)

/-- A host write of some bytes at `addr`. -/
def hostWrite (agent addr : Nat) (bytes : List Byte) (s : State) : Host.Outcome State Fault Refusal :=
  match windowOf s.params addr bytes.length with
  | none => hostMemWrite agent addr bytes s
  | some u => match regNamed s.params u addr bytes.length with
    | none => .next (raise .regAccess (.access addr bytes.length) s)
    | some r => match s.units[u]? with
      | none => .fault (.noSuchUnit u)
      | some x => writeReg u addr r bytes x s

end Sys2Proof.Machine
end

