-- ==== Sys2Proof/Machine/Reset.lean ====
section
/-! DEFINITION. The reset of a unit (70_reset_and_hazards.md R160, R161). -/

namespace Sys2Proof.Machine

/-- The addresses of a write set, row by row. -/
def addressesOf (rs : List ByteRange) : List Nat := rs.flatMap fun r => (List.range r.len).map (r.base + ·)

/-- Store a fresh free byte at each address (70_reset_and_hazards.md R161; log 8). -/
def drawBytes (m : Memory) (k : Nat) : List Nat → Memory
  | [] => m
  | a :: as => drawBytes (writeByte m a (Config.freeByte k)) (k + 1) as

/-- The bytes that a reset of the unit leaves open: its write set, while BUSY = 1 (70_reset_and_hazards.md R161). -/
def openBytes (x : UnitState) : List Nat :=
  if x.busy then
    match x.inFlight with
    | none => []
    | some l => addressesOf l.writeSet
  else []

/-- A reset of unit `u`: the register state of 10_state.md R39; a command in flight is abandoned, and each byte of its
write set is a free draw (70_reset_and_hazards.md R160, R161). Neither any other byte nor the fault record changes. -/
def resetUnit (u : Nat) (s : State) : Host.Outcome State Fault Refusal :=
  match s.units[u]? with
  | none => .fault (.noSuchUnit u)
  | some x =>
    .next (((s.withMem (drawBytes s.mem s.draws (openBytes x))).addDraws (openBytes x).length).setUnit u UnitState.reset)

end Sys2Proof.Machine
end

