-- ==== Sys2Proof/Machine/Events.lean ====
section
/-! DEFINITION. The next move of the machine: the first event that State lists, or, when it lists none, the completion
step of a busy unit (70_reset_and_hazards.md R166). "The model interleaves agent steps one at a time"
(60_exceptions.md R143). -/

namespace Sys2Proof.Machine

/-- Unit `u` takes its completion step if it is enabled, which runs the command that L names (42_decode_ops.md R129); else
nothing happens (log 12). -/
def completeUnit (u : Nat) (s : State) : Host.Outcome State Fault Refusal :=
  match s.units[u]? with
  | none => .fault (.noSuchUnit u)
  | some x => match x.busy, x.inFlight with
    | true, some l => exec l.command (s.withTurn (.complete u))
    | _, _ => .next s

/-- `WAIT` (30_encoding.md R77), whose event is still the first of `s.events`: while BUSY = 1 the loop goes on, and the unit
takes its completion step (70_reset_and_hazards.md R166); once BUSY = 0 the host has read STATUS and goes past it (log 12). -/
def waitUnit (agent u : Nat) (s : State) : Host.Outcome State Fault Refusal :=
  match s.units[u]? with
  | none => .fault (.noSuchUnit u)
  | some x =>
    if x.busy then completeUnit u s
    else .next ((s.withEvents s.events.tail).answer agent (.word (statusWord x)))

/-- Run an event. Every event but a `WAIT` is used up by it. -/
def runEvent (e : Event) (s : State) : Host.Outcome State Fault Refusal :=
  match e with
  | .hostRead agent addr width => hostRead agent addr width (s.withEvents s.events.tail)
  | .hostWrite agent addr bytes => hostWrite agent addr bytes (s.withEvents s.events.tail)
  | .wait agent u => waitUnit agent u s
  | .complete u => completeUnit u (s.withEvents s.events.tail)
  | .reset u => resetUnit u (s.withEvents s.events.tail)
  | .callBlock agent variant src dst pitch height iba =>
    .next (callBlock agent variant src dst pitch height iba (s.withEvents s.events.tail))
  | .callTexel agent variant src x y => .next (callTexel agent variant src x y (s.withEvents s.events.tail))

/-- The first busy unit, if any. -/
def firstBusy (s : State) : Option Nat := s.units.findIdx? (·.busy)

/-- The move when no event is left: the first busy unit completes (70_reset_and_hazards.md R166), and when every unit is
idle nothing happens (log 12). Where a run ends is said in Run.lean. -/
def idleMove (s : State) : Host.Outcome State Fault Refusal :=
  match firstBusy s with
  | none => .next s
  | some u => completeUnit u s

/-- The next move of a machine whose fault record is `none`. -/
def nextMove (s : State) : Host.Outcome State Fault Refusal :=
  match s.events with
  | [] => idleMove s
  | e :: _ => runEvent e s

/-- `s` with a host write of a command word to CMD of unit 0 as the next event: where this machine gets its next command
(10_state.md R30). With no unit there is no CMD register, and nothing is placed. -/
def placeCommand (bytes : List Byte) (s : State) : State :=
  match s.params.unitBases with
  | [] => s
  | b :: _ => s.withEvents (.hostWrite 0 (b + Reg.cmd.offset) bytes :: s.events)

/-! ### The host's pseudo-instructions (30_encoding.md R77), as events of one agent on one unit -/

/-- `WR REG, imm`. -/
def wr (agent base : Nat) (r : Reg) (imm : Word) : Event := .hostWrite agent (base + r.offset) (bytesOfWord imm)

/-- `RD REG -> t`. -/
def rd (agent base : Nat) (r : Reg) : Event := .hostRead agent (base + r.offset) 4

/-- `DECODE.BCn src, dst, pitch, h, iba`, for the `DBLK` command `i`. -/
def decodePseudo (agent u base : Nat) (src dst pitch : Word) (i : Instr) : List Event :=
  [wr agent base .src src, wr agent base .dst dst, wr agent base .pitch pitch, wr agent base .cmd (encode i), .wait agent u]

/-- `TEXEL.BCn src, x, y -> t`, for the `DTXL` command `i`. -/
def texelPseudo (agent u base : Nat) (src : Word) (i : Instr) : List Event :=
  [wr agent base .src src, wr agent base .cmd (encode i), .wait agent u, rd agent base .result]

end Sys2Proof.Machine
end

