-- ==== Sys2Proof/Machine/Step.lean ====
section
/-! DEFINITION. One step of the machine, and how a command word is placed where the step takes its next command. -/

namespace Sys2Proof.Machine

/-- One step. "After a fault the model takes no further step of any agent" (60_exceptions.md R142). -/
def step (s : State) : Host.Outcome State Fault Refusal :=
  match s.fault with
  | some r => .fault (.halted r)
  | none => nextMove s

/-- `s` with the instruction of an opcode-table row placed so that the next step fetches and runs it: this machine takes a
command from a host's write of CMD (10_state.md R30; log 5). -/
def State.withFetchWord (s : State) (nbits w : Nat) : State := placeCommand (tableWordBytes nbits w) s

end Sys2Proof.Machine
end

