-- ==== Sys2Proof/Machine/Run.lean ====
section
/-! DEFINITION. The end of a run, its final state, and the run itself (70_reset_and_hazards.md R165). -/

namespace Sys2Proof.Machine

/-- The event belongs to a host agent's program; a completion step is the unit's own, and a reset the platform's
(10_state.md R21, 70_reset_and_hazards.md R160). -/
def Event.byHost : Event → Bool
  | .hostRead _ _ _ => true
  | .hostWrite _ _ _ => true
  | .wait _ _ => true
  | .complete _ => false
  | .reset _ => false
  | .callBlock _ _ _ _ _ _ _ => true
  | .callTexel _ _ _ _ _ => true

/-- "Every host agent has finished its program": what may be left are moves of the units and of the platform. -/
def State.hostsDone (s : State) : Bool := s.events.all fun e => !e.byHost

/-- "A run ends when all three of these hold": the hosts have finished, every unit has BUSY = 0, and the fault record is
`none` (70_reset_and_hazards.md R165). -/
def State.ended (s : State) : Bool := s.hostsDone && s.units.all (fun x => !x.busy) && s.fault.isNone

/-- The registers of a unit's window, STATUS as its word (10_state.md R22). -/
structure Window where
  cmd    : RegCell
  src    : RegCell
  dst    : RegCell
  pitch  : RegCell
  result : RegCell
  status : Word
deriving DecidableEq, Repr

/-- The window of a unit. -/
def UnitState.window (x : UnitState) : Window := ⟨x.cmd, x.src, x.dst, x.pitch, x.result, statusWord x⟩

/-- "The final state is the shared memory, every unit's registers and the fault record" (70_reset_and_hazards.md R165). -/
structure FinalState where
  mem     : Memory
  windows : List Window
  fault   : Option FaultRecord
deriving DecidableEq, Repr

/-- What R165 calls the final state, read off a state. -/
def State.final (s : State) : FinalState := ⟨s.mem, s.units.map UnitState.window, s.fault⟩

/-- What a run came to. -/
inductive RunResult where
  /-- The run has ended, with this final state. -/
  | ended (f : FinalState)
  /-- A fault is recorded: the run "has not ended; it is rejected" (70_reset_and_hazards.md R165). -/
  | rejected (r : FaultRecord)
  /-- The model has no further step: the reason it stops (log 9, log 16). -/
  | faulted (f : Fault)
  /-- The model refuses the next step (log 9). -/
  | refused (r : Refusal)
  /-- The steps counted are used up. -/
  | going
deriving DecidableEq, Repr

/-- Whether the run is over in this state: rejected, or ended. A run that has ended takes no further step, whatever the
platform does afterwards (log 22). -/
def State.verdict (s : State) : Option RunResult :=
  match s.fault with
  | some r => some (.rejected r)
  | none => if s.ended then some (.ended s.final) else none

/-- The run from a state, for at most `k` steps. -/
def runFrom : Nat → State → RunResult
  | 0, s => s.verdict.getD .going
  | k + 1, s =>
    match s.verdict with
    | some v => v
    | none =>
      match step s with
      | .next t => runFrom k t
      | .fault f => .faulted f
      | .refused r => .refused r

end Sys2Proof.Machine
end

