-- ==== Sys2Proof/Safety.lean ====
section
/-! DEFINITION. What claims about runs speak of: the invariant of the machine, the work that is left, and what it is to be
protected while a command is in flight (20_memory.md R53). -/

namespace Sys2Proof.Machine

/-! ### The invariant -/

/-- BUSY = 1 exactly while L is held (10_state.md R36), and never together with DONE = 1 (R28). -/
def UnitState.phaseOk (x : UnitState) : Bool := x.busy == x.inFlight.isSome && !(x.busy && x.done)

/-- The in-flight record passed the checks of its issue that do not look at other units (42_decode_ops.md R122), and its
footprint is that of its operands (20_memory.md R45). -/
def InFlight.legal (p : Params) (l : InFlight) : Bool :=
  l.src.toNat % blockLen l.variant == 0 && l.readSet == readSetOf l.variant l.src.toNat && admitted p l.readSet &&
    (match l.op with
    | .block _ h dst pitch =>
      legalHeight h && !pitchBad h.toNat pitch.toNat && dst.toNat % 4 == 0 &&
        l.writeSet == writeSetOf dst.toNat pitch.toNat h.toNat && l.writeSet.all (admitted p) &&
        !rangesMeet l.writeSet l.readSet
    | .texel _ _ => l.writeSet == [])

/-- The registers still hold what L was latched from: "every write that could change its sources raises F_BUSY"
(10_state.md R36). -/
def UnitState.sourcesKept (x : UnitState) (l : InFlight) : Bool :=
  x.cmd == .value (encode l.command) && x.src == .value l.src &&
    (match l.op with
    | .block _ _ dst pitch => x.dst == .value dst && x.pitch == .value pitch
    | .texel _ _ => true)

/-- A unit is in a state the spec allows. -/
def UnitState.ok (p : Params) (x : UnitState) : Bool :=
  x.phaseOk &&
    (match x.inFlight with
    | none => true
    | some l => l.legal p && x.sourcesKept l)

/-- No two units are in flight with conflicting footprints (20_memory.md R53). -/
def State.raceFree (s : State) : Bool :=
  (List.range s.units.length).all fun u => match s.units[u]? with
    | none => true
    | some x => match x.inFlight with
      | none => true
      | some l => (List.range s.units.length).all fun v => u == v || !unitRaces s l.readSet l.writeSet v

/-- The memory holds no byte outside the address space (10_state.md R35). -/
def memInSpace (p : Params) (m : Memory) : Bool := m.all fun c => decide (c.1 < 2 ^ p.addrBits)

/-- THE INVARIANT: the memory is in its canonical form and inside the address space, every unit has its window and is in an
allowed state, and no two commands in flight race. -/
def State.inv (s : State) : Bool :=
  Memory.wf s.mem && memInSpace s.params s.mem && s.units.length == s.params.unitBases.length &&
    s.units.all (UnitState.ok s.params) && s.raceFree

/-! ### The work that is left -/

/-- How many units are busy. -/
def State.busyCount (s : State) : Nat := s.units.countP (·.busy)

/-! ### Commands in flight -/

/-- Unit `u` is busy with the command `l`. -/
def State.flying (s : State) (u : Nat) (l : InFlight) : Bool :=
  match s.units[u]? with
  | none => false
  | some x => x.busy && x.inFlight == some l

/-- The memory bytes that 20_memory.md R53 protects while `l` is in flight: those of R and W. -/
def InFlight.protects (l : InFlight) (a : Nat) : Bool := l.readSet.has a || rangesHave l.writeSet a

/-! ### The next event -/

/-- The state in which the next event is used up. -/
def State.afterEvent (s : State) : State := s.withEvents s.events.tail

/-- No fault is recorded, and the next event is `e`. -/
def State.next (s : State) (e : Event) : Bool := s.fault.isNone && s.events.head? == some e

/-- No fault is recorded, and the next event is a host's access, at its address and width, of register `r` of unit `u`, a
write of these bytes (10_state.md R22, 30_encoding.md R77). -/
def State.nextWrites (s : State) (u : Nat) (r : Reg) (agent addr : Nat) (bytes : List Byte) : Bool :=
  s.next (.hostWrite agent addr bytes) && windowOf s.params addr bytes.length == some u &&
    regNamed s.params u addr bytes.length == some r

/-- The same for a read. -/
def State.nextReads (s : State) (u : Nat) (r : Reg) (agent addr : Nat) : Bool :=
  s.next (.hostRead agent addr 4) && windowOf s.params addr 4 == some u && regNamed s.params u addr 4 == some r

end Sys2Proof.Machine
end

