-- ==== Sys2Proof/Certificates/Slice0/Obligations.lean ====
section
/-! DEFINITION. The statements for the provers, from the numbered rules of spec/. Each docstring names the rule. A witness
for the hypotheses of each stands in Sys2Proof/Tests/Slice0.lean. -/

open Sys2Proof Sys2Proof.Machine

/-! ### Encoding -/

/-- 30_encoding.md R71, R72: decoding and encoding agree in both directions, for every word and every command. -/
def Obligations.DecodeEncodeAgree : Prop :=
  ∀ (w : Word) (i : Instr), decode w = .ok i ↔ w = encode i

/-- 30_encoding.md R72: the six rows as match and mask, the illegal variant, and that every other word is rejected. -/
def Obligations.OpcodeRowsDecode : Prop :=
  ∀ w : Word,
    (w &&& 0xFFFFFF87#32 = 0x00000000#32 ↔ ∃ iba h, decode w = .ok (.dblkBc1 iba h)) ∧
    (w &&& 0xFFFFFF87#32 = 0x00000001#32 ↔ ∃ iba h, decode w = .ok (.dblkBc2 iba h)) ∧
    (w &&& 0xFFFFFF87#32 = 0x00000002#32 ↔ ∃ iba h, decode w = .ok (.dblkBc3 iba h)) ∧
    (w &&& 0xFFFFF0FF#32 = 0x00000004#32 ↔ ∃ x y, decode w = .ok (.dtxlBc1 x y)) ∧
    (w &&& 0xFFFFF0FF#32 = 0x00000005#32 ↔ ∃ x y, decode w = .ok (.dtxlBc2 x y)) ∧
    (w &&& 0xFFFFF0FF#32 = 0x00000006#32 ↔ ∃ x y, decode w = .ok (.dtxlBc3 x y)) ∧
    (w.extractLsb' 0 2 = 3#2 ↔ decode w = .error .illegalVariant) ∧
    ((∃ e, decode w = .error e) ↔
      w &&& 0xFFFFFF87#32 ≠ 0x00000000#32 ∧ w &&& 0xFFFFFF87#32 ≠ 0x00000001#32 ∧ w &&& 0xFFFFFF87#32 ≠ 0x00000002#32 ∧
      w &&& 0xFFFFF0FF#32 ≠ 0x00000004#32 ∧ w &&& 0xFFFFF0FF#32 ≠ 0x00000005#32 ∧ w &&& 0xFFFFF0FF#32 ≠ 0x00000006#32)

/-- 30_encoding.md R73: what a CMD write of a reserved or illegal word to an idle unit raises. -/
def Obligations.ReservedWordsFault : Prop :=
  ∀ (s : State) (u agent addr : Nat) (bytes : List Byte) (x : UnitState) (w : Word),
    s.nextWrites u .cmd agent addr bytes = true → s.units[u]? = some x → x.busy = false → w = wordOfBytes bytes →
    (w.extractLsb' 0 2 = 3#2 → step s = .next (raise .illegalVariant (.word w) s.afterEvent)) ∧
    (w.extractLsb' 0 2 ≠ 3#2 →
      (w.extractLsb' 7 1 ≠ 0#1 ∨ w.extractLsb' 12 20 ≠ 0#20 ∨
        (w.extractLsb' 2 1 = 0#1 ∧ (w.extractLsb' 8 2 ≠ 0#2 ∨ w.extractLsb' 10 2 ≠ 0#2)) ∨
        (w.extractLsb' 2 1 = 1#1 ∧ (w.extractLsb' 3 1 ≠ 0#1 ∨ w.extractLsb' 4 3 ≠ 0#3))) →
      step s = .next (raise .reserved (.word w) s.afterEvent)) ∧
    (w.extractLsb' 0 2 ≠ 3#2 → w.extractLsb' 2 1 = 0#1 → w.extractLsb' 7 5 = 0#5 → w.extractLsb' 12 20 = 0#20 →
      (w.extractLsb' 4 3 = 0#3 ∨ w.extractLsb' 4 3 = 5#3 ∨ w.extractLsb' 4 3 = 6#3 ∨ w.extractLsb' 4 3 = 7#3) →
      step s = .next (raise .height (.word w) (s.afterEvent.withTurn (.issue u))))

/-- 42_decode_ops.md R122, 60_exceptions.md R143: a CMD write to a busy unit raises F_BUSY, whatever the word: F_BUSY comes before
F_ILLEGAL_VARIANT and F_RESERVED for a word that does not decode, and before every check of a command's issue. -/
def Obligations.BusyCmdWriteFaults : Prop :=
  ∀ (s : State) (u agent addr : Nat) (bytes : List Byte) (x : UnitState),
    s.nextWrites u .cmd agent addr bytes = true → s.units[u]? = some x → x.busy = true →
    (∀ e, decode (wordOfBytes bytes) = .error e → step s = .next (raise .busy (.busy u .cmd) s.afterEvent)) ∧
    (∀ i, decode (wordOfBytes bytes) = .ok i →
      step s = .next (raise .busy (.busy u .cmd) (s.afterEvent.withTurn (.issue u))))

/-- 30_encoding.md R76, 95_test_vectors.md section 2.9: some command words, and words that are none. A sanity statement. -/
def Obligations.SampleWordsDecode : Prop :=
  decode 0x00000040 = .ok (.dblkBc1 false 4) ∧ decode 0x00000048 = .ok (.dblkBc1 true 4) ∧
  decode 0x00000021 = .ok (.dblkBc2 false 2) ∧ decode 0x00000042 = .ok (.dblkBc3 false 4) ∧
  decode 0x00000304 = .ok (.dtxlBc1 3 0) ∧ decode 0x00000705 = .ok (.dtxlBc2 3 1) ∧
  decode 0x00000A06 = .ok (.dtxlBc3 2 2) ∧ decode 0xFFFFFFFF = .error .illegalVariant ∧
  decode 0x00001040 = .error .reserved ∧ decode 0x0000000C = .error .reserved

/-- 30_encoding.md R76: the word of each command as the assembler syntax gives it. -/
def Obligations.AssemblerWords : Prop :=
  (∀ (iba : Bool) (h : BitVec 3),
    (encode (.dblkBc1 iba h)).toNat = (h.toNat <<< 4) ||| (iba.toNat <<< 3) ||| 0 ∧
    (encode (.dblkBc2 iba h)).toNat = (h.toNat <<< 4) ||| (iba.toNat <<< 3) ||| 1 ∧
    (encode (.dblkBc3 iba h)).toNat = (h.toNat <<< 4) ||| (iba.toNat <<< 3) ||| 2) ∧
  (∀ x y : BitVec 2,
    (encode (.dtxlBc1 x y)).toNat = (y.toNat <<< 10) ||| (x.toNat <<< 8) ||| 4 ||| 0 ∧
    (encode (.dtxlBc2 x y)).toNat = (y.toNat <<< 10) ||| (x.toNat <<< 8) ||| 4 ||| 1 ∧
    (encode (.dtxlBc3 x y)).toNat = (y.toNat <<< 10) ||| (x.toNat <<< 8) ||| 4 ||| 2)

/-! ### The fields of a block -/

/-- 30_encoding.md R61, R62, R63: the byte offsets of every block field under both layouts. -/
def Obligations.BlockFields : Prop :=
  (∀ (p : Params) (v : Variant) (blk : List Byte) (b : Nat → Nat), (∀ i, b i = (blk.getD i 0).toNat) →
    p.blockLayout = .psp →
    (∀ y < 4, blockLine p v blk y = b y) ∧ color1 p v blk = b 4 + 256 * b 5 ∧ color2 p v blk = b 6 + 256 * b 7 ∧
    (∀ y < 4, alphaLine p blk y = b (8 + 2 * y) + 256 * b (9 + 2 * y)) ∧
    alphaStream p blk = b 8 + 2 ^ 8 * b 9 + 2 ^ 16 * b 10 + 2 ^ 24 * b 11 + 2 ^ 32 * b 12 + 2 ^ 40 * b 13 ∧
    alpha1 p blk = b 14 ∧ alpha2 p blk = b 15) ∧
  (∀ (p : Params) (v : Variant) (blk : List Byte) (b : Nat → Nat) (c : Nat), (∀ i, b i = (blk.getD i 0).toNat) →
    p.blockLayout = .pc → (v = .a ∧ c = 0) ∨ (v = .b ∧ c = 8) ∨ (v = .c ∧ c = 8) →
    color1 p v blk = b c + 256 * b (c + 1) ∧ color2 p v blk = b (c + 2) + 256 * b (c + 3) ∧
    (∀ y < 4, blockLine p v blk y = b (c + 4 + y)) ∧
    (∀ y < 4, alphaLine p blk y = b (2 * y) + 256 * b (2 * y + 1)) ∧
    alphaStream p blk = b 2 + 2 ^ 8 * b 3 + 2 ^ 16 * b 4 + 2 ^ 24 * b 5 + 2 ^ 32 * b 6 + 2 ^ 40 * b 7 ∧
    alpha1 p blk = b 0 ∧ alpha2 p blk = b 1)

/-- 41_texel_assembly.md R110, R111, R112: which bits each texel's index takes, from the least significant up; and bit `j` of
the 48-bit stream under `PSP`, which puts the index of texel 10 across its two words. -/
def Obligations.IndexBits : Prop :=
  (∀ (p : Params) (v : Variant) (blk : List Byte) (x y j : Nat),
    (colorIndex p v blk x y).testBit j = (decide (j < 2) && (blockLine p v blk y).testBit (2 * x + j)) ∧
    (alphaNibble p blk x y).testBit j = (decide (j < 4) && (alphaLine p blk y).testBit (4 * x + j)) ∧
    (alphaIndex p blk x y).testBit j = (decide (j < 3) && (alphaStream p blk).testBit (3 * (4 * y + x) + j))) ∧
  (∀ (p : Params) (blk : List Byte), p.blockLayout = .psp →
    ∀ j < 48, (alphaStream p blk).testBit j = (blk.getD (8 + j / 8) 0).getLsbD (j % 8))

/-! ### Derivations and texels -/

/-- 30_encoding.md R65, 40_palette_expansion.md R91, R105: the channels of a 5:6:5 colour, and the expansions to 8 bits. -/
def Obligations.ChannelExpansion : Prop :=
  (∀ (p : Params) (c : Nat), c < 2 ^ 16 →
    (p.blockLayout = .psp → red5 p c = c % 32 ∧ green6 c = c / 32 % 64 ∧ blue5 p c = c / 2048) ∧
    (p.blockLayout = .pc → red5 p c = c / 2048 ∧ green6 c = c / 32 % 64 ∧ blue5 p c = c % 32)) ∧
  (∀ v < 32, expand5 v = 8 * v + v / 4) ∧ (∀ v < 64, expand6 v = 4 * v + v / 16) ∧
  (∀ (p : Params) (c : Nat), expandColor p c = ⟨expand5 (red5 p c), expand6 (green6 c), expand5 (blue5 p c)⟩) ∧
  (∀ (p : Params), ∀ n < 16, (p.bc2AlphaExpand = .shift4 → expand4 p n = 16 * n) ∧
    (p.bc2AlphaExpand = .replicate → expand4 p n = 17 * n))

/-- 40_palette_expansion.md R92, R93, R94: the four entries of a palette in each of its two modes. -/
def Obligations.PaletteEntries : Prop :=
  ∀ (p : Params) (c1 c2 r1 g1 b1 r2 g2 b2 : Nat) (iba : Bool),
    expandColor p c1 = ⟨r1, g1, b1⟩ → expandColor p c2 = ⟨r2, g2, b2⟩ →
    (c1 > c2 → (palette p c1 c2 iba).toList = [rgba r1 g1 b1 255, rgba r2 g2 b2 255,
      rgba ((2 * r1 + r2) / 3) ((2 * g1 + g2) / 3) ((2 * b1 + b2) / 3) 255,
      rgba ((r1 + 2 * r2) / 3) ((g1 + 2 * g2) / 3) ((b1 + 2 * b2) / 3) 255]) ∧
    (c1 ≤ c2 → (palette p c1 c2 iba).toList = [rgba r1 g1 b1 255, rgba r2 g2 b2 255,
      rgba ((r1 + r2) / 2) ((g1 + g2) / 2) ((b1 + b2) / 2) 255, rgba 0 0 0 (if iba then 255 else 0)])

/-- 40_palette_expansion.md R99 to R102: the eight entries of a ramp in each of its two modes, and both forms of `Lerp`. -/
def Obligations.RampEntries : Prop :=
  (∀ (p : Params) (a1 a2 : Nat), (alphaRamp p a1 a2).toList.getD 0 0 = a1 ∧ (alphaRamp p a1 a2).toList.getD 1 0 = a2 ∧
    (a1 > a2 → ∀ i, 2 ≤ i → i ≤ 7 → (alphaRamp p a1 a2).toList.getD i 0 = lerp p a1 a2 (i - 1) 7) ∧
    (a1 ≤ a2 → (∀ i, 2 ≤ i → i ≤ 5 → (alphaRamp p a1 a2).toList.getD i 0 = lerp p a1 a2 (i - 1) 5) ∧
      (alphaRamp p a1 a2).toList.getD 6 0 = 0 ∧ (alphaRamp p a1 a2).toList.getD 7 0 = 255)) ∧
  (∀ (p : Params) (a1 a2 n d : Nat),
    (p.alphaLerpForm = .productThenDivide →
      lerp p a1 a2 n d = (a1 * ((d - n) * 256) / d + a2 * (n * 256) / d + 31) / 256) ∧
    (p.alphaLerpForm = .weightThenMultiply →
      lerp p a1 a2 n d = (a1 * ((d - n) * 256 / d) + a2 * (n * 256 / d) + 31) / 256))

/-- 41_texel_assembly.md R113, R114, R115: the word of a texel: a Variant A texel is its palette entry; a texel of Variant B or C
has the entry's colour under the alpha of its own payload. -/
def Obligations.TexelChannels : Prop :=
  ∀ (p : Params) (v : Variant) (blk : List Byte) (x y : Nat) (iba : Bool) (entry : Word),
    entry = (palette p (color1 p v blk) (color2 p v blk) iba).toList.getD (colorIndex p v blk x y) 0 →
    (v = .a → texelA p blk x y iba = entry) ∧
    (v = .b → (texelB p blk x y iba).toNat = expand4 p (alphaNibble p blk x y) * 2 ^ 24 + entry.toNat % 2 ^ 24) ∧
    (v = .c → (texelC p blk x y iba).toNat =
      (alphaRamp p (alpha1 p blk) (alpha2 p blk)).toList.getD (alphaIndex p blk x y) 0 * 2 ^ 24 + entry.toNat % 2 ^ 24)

/-- 40_palette_expansion.md R92, R93, R94: the palette laws, under every parameter. The spec lists them in R96, which it marks as
its own derivation from these rules. -/
def Obligations.PaletteLaws : Prop :=
  ∀ (p : Params) (c1 c2 : Nat) (iba : Bool) (e1 e2 : Rgb) (entry : Nat → Word),
    e1 = expandColor p c1 → e2 = expandColor p c2 → (∀ i, entry i = (palette p c1 c2 iba).toList.getD i 0) →
    (c1 > c2 →
      entry 2 = rgba ((2 * e1.r + e2.r) / 3) ((2 * e1.g + e2.g) / 3) ((2 * e1.b + e2.b) / 3) 255 ∧
      entry 3 = rgba ((e1.r + 2 * e2.r) / 3) ((e1.g + 2 * e2.g) / 3) ((e1.b + 2 * e2.b) / 3) 255) ∧
    (c1 ≤ c2 → iba = false → entry 3 = 0x00000000) ∧
    (c1 ≤ c2 → iba = true → entry 3 = 0xFF000000) ∧
    (entry 0).extractLsb' 24 8 = 255#8 ∧ (entry 1).extractLsb' 24 8 = 255#8

/-- 40_palette_expansion.md R91, R93, R94: expansions and blends stay in range, and every palette entry is four 8-bit channels.
The spec says so in R97, which it marks as its own derivation from these rules. -/
def Obligations.PaletteChannelsInRange : Prop :=
  (∀ v < 32, expand5 v ≤ 255) ∧ (∀ v < 64, expand6 v ≤ 255) ∧
  (∀ a b : Nat, a ≤ 255 → b ≤ 255 →
    (min a b ≤ blendTwoOne a b ∧ blendTwoOne a b ≤ max a b) ∧
    (min a b ≤ blendOneTwo a b ∧ blendOneTwo a b ≤ max a b) ∧
    (min a b ≤ average a b ∧ average a b ≤ max a b)) ∧
  (∀ (p : Params) (c1 c2 : Nat) (iba : Bool), ∀ i < 4, ∃ r g b a : Nat, r ≤ 255 ∧ g ≤ 255 ∧ b ≤ 255 ∧ a ≤ 255 ∧
    (palette p c1 c2 iba).toList.getD i 0 = rgba r g b a ∧
    (bytesOfWord ((palette p c1 c2 iba).toList.getD i 0)).map BitVec.toNat = [r, g, b, a])

/-- 40_palette_expansion.md R100, R101, R102: the ramp fits 8 bits under either form, and the largest results are 255 and 254.
The spec says so in R103, which it marks as its own derivation from R102. -/
def Obligations.RampInRange : Prop :=
  (∀ (p : Params) (a1 a2 : Nat), a1 ≤ 255 → a2 ≤ 255 → ∀ i < 8, (alphaRamp p a1 a2).toList.getD i 0 ≤ 255) ∧
  (∀ (p : Params) (a1 a2 n d : Nat), a1 ≤ 255 → a2 ≤ 255 → (d = 5 ∨ d = 7) → 1 ≤ n → n < d →
    (p.alphaLerpForm = .productThenDivide → lerp p a1 a2 n d ≤ 255) ∧
    (p.alphaLerpForm = .weightThenMultiply → lerp p a1 a2 n d ≤ 254)) ∧
  (∀ p : Params, p.alphaLerpForm = .productThenDivide →
    ∃ a1 a2 n d, a1 ≤ 255 ∧ a2 ≤ 255 ∧ (d = 5 ∨ d = 7) ∧ 1 ≤ n ∧ n < d ∧ lerp p a1 a2 n d = 255) ∧
  (∀ p : Params, p.alphaLerpForm = .weightThenMultiply →
    ∃ a1 a2 n d, a1 ≤ 255 ∧ a2 ≤ 255 ∧ (d = 5 ∨ d = 7) ∧ 1 ≤ n ∧ n < d ∧ lerp p a1 a2 n d = 254)

/-- 40_palette_expansion.md R99 to R102: the ramp laws (a), (b) and (c) of R104, which the spec marks as its own derivation
from these rules. -/
def Obligations.RampLaws : Prop :=
  ∀ p : Params, p.alphaLerpForm = .productThenDivide →
    (∀ a1 a2 : Nat, a1 ≤ 255 → a2 ≤ 255 → ∀ i : Nat, 2 ≤ i → (i ≤ 5 ∨ (a1 > a2 ∧ i ≤ 7)) →
      min a1 a2 ≤ (alphaRamp p a1 a2).toList.getD i 0 ∧ (alphaRamp p a1 a2).toList.getD i 0 ≤ max a1 a2) ∧
    (∀ v : Nat, v ≤ 255 → (∀ i ≤ 5, (alphaRamp p v v).toList.getD i 0 = v) ∧
      (alphaRamp p v v).toList.getD 6 0 = 0 ∧ (alphaRamp p v v).toList.getD 7 0 = 255) ∧
    (∀ i : Nat, 2 ≤ i → i ≤ 7 → (alphaRamp p 1 0).toList.getD i 0 = 0)

/-- 30_encoding.md R63, 00_scope.md R11: the 48-bit stream from a 32-bit and a 16-bit word, its bit 0 the least significant of
byte 8. R64 says so, and marks the equality as the spec's own derivation from these rules. -/
def Obligations.AlphaStreamWords : Prop :=
  ∀ (p : Params) (blk : List Byte), p.blockLayout = .psp →
    alphaStream p blk = blockLe blk 12 2 * 2 ^ 32 + blockLe blk 8 4 ∧ alphaStream p blk = blockLe blk 8 6 ∧
    alphaStream p blk % 2 = blockByte blk 8 % 2

/-- 40_palette_expansion.md R95: iba changes the alpha of P[3] in three-colour mode and nothing else; it reaches the output of
Variant A, and never that of Variants B and C. -/
def Obligations.IbaReachesOnlyVariantA : Prop :=
  (∀ (p : Params) (c1 c2 : Nat), ∀ i < 4,
    (palette p c1 c2 true).toList.getD i 0 &&& 0x00FFFFFF = (palette p c1 c2 false).toList.getD i 0 &&& 0x00FFFFFF ∧
    ((palette p c1 c2 true).toList.getD i 0 ≠ (palette p c1 c2 false).toList.getD i 0 ↔ c1 ≤ c2 ∧ i = 3)) ∧
  (∀ (p : Params) (blk : List Byte) (x y : Nat), color1 p .a blk ≤ color2 p .a blk → colorIndex p .a blk x y = 3 →
    texel p .a blk x y true = 0xFF000000 ∧ texel p .a blk x y false = 0x00000000) ∧
  (∀ (p : Params) (blk : List Byte) (x y : Nat) (iba : Bool),
    texel p .b blk x y iba = texel p .b blk x y false ∧ texel p .c blk x y iba = texel p .c blk x y false)

/-- 42_decode_ops.md R120, R121, 40_palette_expansion.md R95: bulk and texel decode agree, and where they part. The spec says
so in R130, which it marks as its own derivation from these rules. -/
def Obligations.BulkTexelConsistency : Prop :=
  ∀ (p : Params) (v : Variant) (blk : List Byte) (x y : Nat), x < 4 → y < 4 →
    (∀ w : Word, ((x, y), w) ∈ decodeBlockFn p v blk false 4 ↔ w = decodeTexelFn p v blk x y) ∧
    (v ≠ .a → ∀ w : Word, ((x, y), w) ∈ decodeBlockFn p v blk true 4 ↔ w = decodeTexelFn p v blk x y) ∧
    (v = .a → (((x, y), decodeTexelFn p v blk x y) ∉ decodeBlockFn p v blk true 4 ↔
      color1 p v blk ≤ color2 p v blk ∧ colorIndex p v blk x y = 3))

/-- 41_texel_assembly.md R116: every index selects a defined entry. -/
def Obligations.SelectorsTotal : Prop :=
  ∀ (p : Params) (v : Variant) (blk : List Byte) (x y : Nat),
    colorIndex p v blk x y < 4 ∧ alphaNibble p blk x y < 16 ∧ alphaIndex p blk x y < 8

/-! ### Issue -/

/-- 42_decode_ops.md R122: when a `DBLK` issues, and what that leaves. It names DBLK.BC1, DBLK.BC2 and DBLK.BC3. -/
def Obligations.BlockCommandIssues : Prop :=
  ∀ (s : State) (u : Nat) (x : UnitState) (v : Variant) (iba : Bool) (h : BitVec 3) (src dst pitch : Word)
    (i : Instr),
    (v = .a ∧ i = .dblkBc1 iba h) ∨ (v = .b ∧ i = .dblkBc2 iba h) ∨ (v = .c ∧ i = .dblkBc3 iba h) →
    s.turn = .issue u → s.units[u]? = some x → x.busy = false →
    1 ≤ h.toNat → h.toNat ≤ 4 → x.src = .value src → x.dst = .value dst → x.pitch = .value pitch →
    (1 < h.toNat → 4 ≤ pitch.toNat) → src.toNat % blockLen v = 0 → dst.toNat % 4 = 0 →
    admitted s.params ⟨src.toNat, blockLen v⟩ = true →
    (∀ y < h.toNat, admitted s.params ⟨dst.toNat + 4 * y * pitch.toNat, 16⟩ = true ∧
      (ByteRange.mk (dst.toNat + 4 * y * pitch.toNat) 16).meets ⟨src.toNat, blockLen v⟩ = false) →
    (∀ (u' : Nat) (x' : UnitState) (l : InFlight), u' ≠ u → s.units[u']? = some x' → x'.busy = true →
      x'.inFlight = some l →
      rangesMeet l.writeSet ⟨src.toNat, blockLen v⟩ = false ∧
      ∀ y < h.toNat, l.touches ⟨dst.toNat + 4 * y * pitch.toNat, 16⟩ = false) →
    exec i s = .next { s with
      units := s.units.set u { x with
        cmd := .value (encode i)
        busy := true
        done := false
        inFlight := some
          { variant := v
            op := .block iba h dst pitch
            src := src
            readSet := ⟨src.toNat, blockLen v⟩
            writeSet := (List.range h.toNat).map fun y => ⟨dst.toNat + 4 * y * pitch.toNat, 16⟩ } } }

/-- 42_decode_ops.md R122: when a `DTXL` issues, and what that leaves; DST and PITCH may be anything. It names DTXL.BC1,
DTXL.BC2 and DTXL.BC3. -/
def Obligations.TexelCommandIssues : Prop :=
  ∀ (s : State) (u : Nat) (x : UnitState) (v : Variant) (xx yy : BitVec 2) (src : Word) (i : Instr),
    (v = .a ∧ i = .dtxlBc1 xx yy) ∨ (v = .b ∧ i = .dtxlBc2 xx yy) ∨ (v = .c ∧ i = .dtxlBc3 xx yy) →
    s.turn = .issue u → s.units[u]? = some x → x.busy = false → x.src = .value src →
    src.toNat % blockLen v = 0 → admitted s.params ⟨src.toNat, blockLen v⟩ = true →
    (∀ (u' : Nat) (x' : UnitState) (l : InFlight), u' ≠ u → s.units[u']? = some x' → x'.busy = true →
      x'.inFlight = some l → rangesMeet l.writeSet ⟨src.toNat, blockLen v⟩ = false) →
    exec i s = .next { s with
      units := s.units.set u { x with
        cmd := .value (encode i)
        busy := true
        done := false
        inFlight := some
          { variant := v
            op := .texel xx yy
            src := src
            readSet := ⟨src.toNat, blockLen v⟩
            writeSet := [] } } }

/-- 42_decode_ops.md R122, 60_exceptions.md R143: the faults of a `DBLK`'s issue up to F_ALIGN, in their order. -/
def Obligations.BlockOperandFaults : Prop :=
  ∀ (s : State) (u : Nat) (x : UnitState) (v : Variant) (iba : Bool) (h : BitVec 3) (i : Instr),
    (v = .a ∧ i = .dblkBc1 iba h) ∨ (v = .b ∧ i = .dblkBc2 iba h) ∨ (v = .c ∧ i = .dblkBc3 iba h) →
    s.turn = .issue u → s.units[u]? = some x →
    (x.busy = true → exec i s = .next (raise .busy (.busy u .cmd) s)) ∧
    (x.busy = false →
      (h.toNat < 1 ∨ 4 < h.toNat → exec i s = .next (raise .height (.word (encode i)) s)) ∧
      (1 ≤ h.toNat → h.toNat ≤ 4 →
        (x.src = .unwritten → exec i s = .next (raise .unwritten (.register .src) s)) ∧
        ∀ src, x.src = .value src →
          (x.dst = .unwritten → exec i s = .next (raise .unwritten (.register .dst) s)) ∧
          ∀ dst, x.dst = .value dst →
            (x.pitch = .unwritten → exec i s = .next (raise .unwritten (.register .pitch) s)) ∧
            ∀ pitch, x.pitch = .value pitch →
              (1 < h.toNat ∧ pitch.toNat < 4 → exec i s = .next (raise .pitch (.pitch pitch.toNat) s)) ∧
              (¬(1 < h.toNat ∧ pitch.toNat < 4) →
                (src.toNat % blockLen v ≠ 0 → exec i s = .next (raise .align (.address src.toNat) s)) ∧
                (src.toNat % blockLen v = 0 → dst.toNat % 4 ≠ 0 →
                  exec i s = .next (raise .align (.address dst.toNat) s)))))

/-- 42_decode_ops.md R122, 20_memory.md R46, R47, R53: the faults of a `DBLK`'s footprint, in their order: F_ACCESS for the
first range that is not admitted, F_OVERLAP, F_RACE for the first unit. That the infos name the first is the model's choice
(log 13). -/
def Obligations.BlockFootprintFaults : Prop :=
  ∀ (s : State) (u : Nat) (x : UnitState) (v : Variant) (iba : Bool) (h : BitVec 3) (src dst pitch : Word)
    (readSet : ByteRange) (rows : List ByteRange) (i : Instr),
    (v = .a ∧ i = .dblkBc1 iba h) ∨ (v = .b ∧ i = .dblkBc2 iba h) ∨ (v = .c ∧ i = .dblkBc3 iba h) →
    s.turn = .issue u → s.units[u]? = some x → x.busy = false → 1 ≤ h.toNat → h.toNat ≤ 4 →
    x.src = .value src → x.dst = .value dst → x.pitch = .value pitch →
    (1 < h.toNat → 4 ≤ pitch.toNat) → src.toNat % blockLen v = 0 → dst.toNat % 4 = 0 →
    readSet = ⟨src.toNat, blockLen v⟩ →
    rows = (List.range h.toNat).map (fun y => ⟨dst.toNat + 4 * y * pitch.toNat, 16⟩) →
    (∀ (before after : List ByteRange) (r : ByteRange), readSet :: rows = before ++ r :: after →
      (∀ q ∈ before, admitted s.params q = true) → admitted s.params r = false →
      exec i s = .next (raise .access (.range r) s)) ∧
    ((∀ r ∈ readSet :: rows, admitted s.params r = true) →
      ((∃ r ∈ rows, r.meets readSet = true) →
        exec i s = .next (raise .overlap (.overlap src.toNat dst.toNat) s)) ∧
      ((∀ r ∈ rows, r.meets readSet = false) →
        ∀ u', u' ≠ u → unitRaces s readSet rows u' = true →
          (∀ u'' < u', u'' ≠ u → unitRaces s readSet rows u'' = false) →
          exec i s = .next (raise .race (.units u u') s)))

/-- 42_decode_ops.md R122, R126, 60_exceptions.md R144: the faults of a `DTXL`'s issue, in their order. That F_RACE names
the first unit is the model's choice (log 13). -/
def Obligations.TexelIssueFaults : Prop :=
  ∀ (s : State) (u : Nat) (x : UnitState) (v : Variant) (xx yy : BitVec 2) (i : Instr),
    (v = .a ∧ i = .dtxlBc1 xx yy) ∨ (v = .b ∧ i = .dtxlBc2 xx yy) ∨ (v = .c ∧ i = .dtxlBc3 xx yy) →
    s.turn = .issue u → s.units[u]? = some x →
    (x.busy = true → exec i s = .next (raise .busy (.busy u .cmd) s)) ∧
    (x.busy = false →
      (x.src = .unwritten → exec i s = .next (raise .unwritten (.register .src) s)) ∧
      ∀ src, x.src = .value src →
        (src.toNat % blockLen v ≠ 0 → exec i s = .next (raise .align (.address src.toNat) s)) ∧
        (src.toNat % blockLen v = 0 →
          (admitted s.params ⟨src.toNat, blockLen v⟩ = false →
            exec i s = .next (raise .access (.range ⟨src.toNat, blockLen v⟩) s)) ∧
          (admitted s.params ⟨src.toNat, blockLen v⟩ = true →
            ∀ u', u' ≠ u → unitRaces s ⟨src.toNat, blockLen v⟩ [] u' = true →
              (∀ u'' < u', u'' ≠ u → unitRaces s ⟨src.toNat, blockLen v⟩ [] u'' = false) →
              exec i s = .next (raise .race (.units u u') s))))

/-! ### Completion -/

/-- 42_decode_ops.md R123, R129: the completion step of `DBLK.BC1` writes TexelA at every texel address of its rows, leaves
every other byte alone, and makes the unit idle. -/
def Obligations.DblkBc1Completes : Prop :=
  ∀ (s : State) (u : Nat) (x : UnitState) (l : InFlight) (iba : Bool) (h : BitVec 3) (dst pitch : Word),
    s.turn = .complete u → s.units[u]? = some x → x.busy = true → x.inFlight = some l →
    l.variant = .a → l.op = .block iba h dst pitch → (1 < h.toNat → 4 ≤ pitch.toNat) → Memory.wf s.mem = true →
    ∃ m : Memory,
      exec (.dblkBc1 iba h) s = .next { s with
        mem := m, units := s.units.set u { x with busy := false, done := true, inFlight := none } } ∧
      (∀ y < h.toNat, ∀ xx < 4, readWord m (texelAddr dst.toNat pitch.toNat xx y) =
        texelA s.params (readBytes s.mem l.src.toNat 8) xx y iba) ∧
      (∀ a : Nat, (∀ y < h.toNat, ∀ xx < 4, a < texelAddr dst.toNat pitch.toNat xx y ∨
        texelAddr dst.toNat pitch.toNat xx y + 4 ≤ a) → readByte m a = readByte s.mem a)

/-- 42_decode_ops.md R124, R129: the completion step of `DBLK.BC2`, likewise with TexelB of a 16-byte block. -/
def Obligations.DblkBc2Completes : Prop :=
  ∀ (s : State) (u : Nat) (x : UnitState) (l : InFlight) (iba : Bool) (h : BitVec 3) (dst pitch : Word),
    s.turn = .complete u → s.units[u]? = some x → x.busy = true → x.inFlight = some l →
    l.variant = .b → l.op = .block iba h dst pitch → (1 < h.toNat → 4 ≤ pitch.toNat) → Memory.wf s.mem = true →
    ∃ m : Memory,
      exec (.dblkBc2 iba h) s = .next { s with
        mem := m, units := s.units.set u { x with busy := false, done := true, inFlight := none } } ∧
      (∀ y < h.toNat, ∀ xx < 4, readWord m (texelAddr dst.toNat pitch.toNat xx y) =
        texelB s.params (readBytes s.mem l.src.toNat 16) xx y iba) ∧
      (∀ a : Nat, (∀ y < h.toNat, ∀ xx < 4, a < texelAddr dst.toNat pitch.toNat xx y ∨
        texelAddr dst.toNat pitch.toNat xx y + 4 ≤ a) → readByte m a = readByte s.mem a)

/-- 42_decode_ops.md R125, R129: the completion step of `DBLK.BC3`, likewise with TexelC of a 16-byte block. -/
def Obligations.DblkBc3Completes : Prop :=
  ∀ (s : State) (u : Nat) (x : UnitState) (l : InFlight) (iba : Bool) (h : BitVec 3) (dst pitch : Word),
    s.turn = .complete u → s.units[u]? = some x → x.busy = true → x.inFlight = some l →
    l.variant = .c → l.op = .block iba h dst pitch → (1 < h.toNat → 4 ≤ pitch.toNat) → Memory.wf s.mem = true →
    ∃ m : Memory,
      exec (.dblkBc3 iba h) s = .next { s with
        mem := m, units := s.units.set u { x with busy := false, done := true, inFlight := none } } ∧
      (∀ y < h.toNat, ∀ xx < 4, readWord m (texelAddr dst.toNat pitch.toNat xx y) =
        texelC s.params (readBytes s.mem l.src.toNat 16) xx y iba) ∧
      (∀ a : Nat, (∀ y < h.toNat, ∀ xx < 4, a < texelAddr dst.toNat pitch.toNat xx y ∨
        texelAddr dst.toNat pitch.toNat xx y + 4 ≤ a) → readByte m a = readByte s.mem a)

/-- 42_decode_ops.md R126, R129: the completion step of `DTXL.BC1` puts TexelA with iba = 0 into RESULT; nothing else
changes but BUSY, DONE and L. -/
def Obligations.DtxlBc1Completes : Prop :=
  ∀ (s : State) (u : Nat) (x : UnitState) (l : InFlight) (xx yy : BitVec 2),
    s.turn = .complete u → s.units[u]? = some x → x.busy = true → x.inFlight = some l →
    l.variant = .a → l.op = .texel xx yy →
    exec (.dtxlBc1 xx yy) s = .next { s with units := s.units.set u { x with
      result := .value (texelA s.params (readBytes s.mem l.src.toNat 8) xx.toNat yy.toNat false)
      busy := false, done := true, inFlight := none } }

/-- 42_decode_ops.md R127, R129: the completion step of `DTXL.BC2` puts TexelB into RESULT. -/
def Obligations.DtxlBc2Completes : Prop :=
  ∀ (s : State) (u : Nat) (x : UnitState) (l : InFlight) (xx yy : BitVec 2),
    s.turn = .complete u → s.units[u]? = some x → x.busy = true → x.inFlight = some l →
    l.variant = .b → l.op = .texel xx yy →
    exec (.dtxlBc2 xx yy) s = .next { s with units := s.units.set u { x with
      result := .value (texelB s.params (readBytes s.mem l.src.toNat 16) xx.toNat yy.toNat false)
      busy := false, done := true, inFlight := none } }

/-- 42_decode_ops.md R128, R129: the completion step of `DTXL.BC3` puts TexelC into RESULT. -/
def Obligations.DtxlBc3Completes : Prop :=
  ∀ (s : State) (u : Nat) (x : UnitState) (l : InFlight) (xx yy : BitVec 2),
    s.turn = .complete u → s.units[u]? = some x → x.busy = true → x.inFlight = some l →
    l.variant = .c → l.op = .texel xx yy →
    exec (.dtxlBc3 xx yy) s = .next { s with units := s.units.set u { x with
      result := .value (texelC s.params (readBytes s.mem l.src.toNat 16) xx.toNat yy.toNat false)
      busy := false, done := true, inFlight := none } }

/-- 42_decode_ops.md R123, R126, R129, 20_memory.md R44, 10_state.md R27: the frame of every command, at either of its
steps. -/
def Obligations.CommandFrame : Prop :=
  ∀ (i : Instr) (s t : State), exec i s = .next t →
    t.params = s.params ∧ t.turn = s.turn ∧ t.events = s.events ∧ t.reply = s.reply ∧ t.draws = s.draws ∧
    t.units.length = s.units.length ∧
    (∀ v, s.turn ≠ .issue v → s.turn ≠ .complete v → t.units[v]? = s.units[v]?) ∧
    (∀ (v : Nat) (x y : UnitState), s.units[v]? = some x → t.units[v]? = some y →
      y.src = x.src ∧ y.dst = x.dst ∧ y.pitch = x.pitch) ∧
    (∀ u, s.turn = .issue u → t.mem = s.mem ∧
      ∀ (v : Nat) (x y : UnitState), s.units[v]? = some x → t.units[v]? = some y → y.result = x.result) ∧
    (∀ u, s.turn = .complete u → t.fault = s.fault ∧
      (∀ (v : Nat) (x y : UnitState), s.units[v]? = some x → t.units[v]? = some y → y.cmd = x.cmd ∧
        ((∃ iba h, i = .dblkBc1 iba h ∨ i = .dblkBc2 iba h ∨ i = .dblkBc3 iba h) → y.result = x.result)) ∧
      ((∃ xx yy, i = .dtxlBc1 xx yy ∨ i = .dtxlBc2 xx yy ∨ i = .dtxlBc3 xx yy) → t.mem = s.mem) ∧
      (∀ (x : UnitState) (l : InFlight) (iba : Bool) (h : BitVec 3) (dst pitch : Word), s.units[u]? = some x →
        x.inFlight = some l → l.op = .block iba h dst pitch →
        ∀ a : Nat, (∀ y < h.toNat, ∀ xx < 4, a < texelAddr dst.toNat pitch.toNat xx y ∨
          texelAddr dst.toNat pitch.toNat xx y + 4 ≤ a) → readByte t.mem a = readByte s.mem a))

/-- 20_memory.md R41: the four bytes of a stored texel are red, green, blue, alpha from the lowest address. -/
def Obligations.TexelByteOrder : Prop :=
  ∀ (m : Memory) (addr r g b a : Nat), Memory.wf m = true → r ≤ 255 → g ≤ 255 → b ≤ 255 → a ≤ 255 →
    (readByte (writeWord m addr (rgba r g b a)) addr).toNat = r ∧
    (readByte (writeWord m addr (rgba r g b a)) (addr + 1)).toNat = g ∧
    (readByte (writeWord m addr (rgba r g b a)) (addr + 2)).toNat = b ∧
    (readByte (writeWord m addr (rgba r g b a)) (addr + 3)).toNat = a

/-! ### Steps -/

/-- 10_state.md R30, 42_decode_ops.md R122, R129: a step runs the decoded command. A CMD write whose bytes decode to `i` runs
the issue of `i`; a unit's own step runs the command that L names. -/
def Obligations.StepRunsTheDecodedCommand : Prop :=
  (∀ (s : State) (u agent addr : Nat) (bytes : List Byte) (x : UnitState) (i : Instr),
    s.nextWrites u .cmd agent addr bytes = true → s.units[u]? = some x → decodeBytes bytes = .ok i →
    step s = exec i (s.afterEvent.withTurn (.issue u))) ∧
  (∀ (s : State) (u : Nat) (x : UnitState) (l : InFlight),
    s.next (.complete u) = true → s.units[u]? = some x → x.busy = true → x.inFlight = some l →
    step s = exec l.command (s.afterEvent.withTurn (.complete u)))

/-- 10_state.md R30 (the model's own placing of a command, log 5): a placed opcode-table word is the next command run. -/
def Obligations.PlacedCommandRuns : Prop :=
  ∀ (s : State) (w base : Nat) (bases : List Nat) (x : UnitState) (i : Instr),
    s.fault = none → s.params.unitBases = base :: bases → s.units[0]? = some x → decodeTableWord 32 w = some i →
    step (s.withFetchWord 32 w) = exec i (s.withTurn (.issue 0))

/-- 42_decode_ops.md R129: the completion step is enabled when BUSY = 1, raises no fault, and makes the unit idle with DONE = 1
and no L. With BUSY = 0 the rule says only that the step is not enabled: that its event is then used up and nothing else
happens is the model's choice (log 7, log 12). -/
def Obligations.CompletionRaisesNoFault : Prop :=
  ∀ (s : State) (u : Nat) (x : UnitState), s.next (.complete u) = true → s.inv = true → s.units[u]? = some x →
    (x.busy = true → ∃ (t : State) (y : UnitState), step s = .next t ∧ t.fault = none ∧ t.units[u]? = some y ∧
      y.busy = false ∧ y.done = true ∧ y.inFlight = none) ∧
    (x.busy = false → step s = .next s.afterEvent)

/-- 60_exceptions.md R147: a fault is precise and final. The step that records it changes nothing but the record, the event
it used up and whose turn it was, and no step follows. -/
def Obligations.FaultsArePrecise : Prop :=
  ∀ (s t : State) (r : FaultRecord), step s = .next t → t.fault = some r →
    s.fault = none ∧ t.mem = s.mem ∧ t.units = s.units ∧ t.params = s.params ∧ t.reply = s.reply ∧
    t.draws = s.draws ∧ t.events = s.events.tail ∧ step t = .fault (.halted r)

/-- 10_state.md R38: the first fault sets the record, and nothing changes it afterwards. -/
def Obligations.FirstFaultIsKept : Prop :=
  State.reset.fault = none ∧
  (∀ (s : State) (code : FaultCode) (info : FaultInfo),
    (s.fault = none → raise code info s = { s with fault := some ⟨code, info⟩ }) ∧
    (s.fault ≠ none → raise code info s = s)) ∧
  (∀ (s : State) (r : FaultRecord), s.fault = some r → step s = .fault (.halted r))

/-! ### Registers -/

/-- 10_state.md R22: on a platform the spec allows, each register is at its offset in its unit's window. -/
def Obligations.RegisterAddresses : Prop :=
  ∀ (p : Params) (u base : Nat) (r : Reg), platformOk p = true → p.unitBases[u]? = some base →
    windowOf p (base + r.offset) 4 = some u ∧ regNamed p u (base + r.offset) 4 = some r

/-- 10_state.md R24, R25, R26: a write of SRC, DST or PITCH raises F_BUSY while BUSY = 1, and else replaces the cell and
nothing else. -/
def Obligations.OperandRegisterWrites : Prop :=
  ∀ (s : State) (u agent addr : Nat) (bytes : List Byte) (x : UnitState) (r : Reg),
    s.nextWrites u r agent addr bytes = true → s.units[u]? = some x → (r = .src ∨ r = .dst ∨ r = .pitch) →
    (x.busy = true → step s = .next (raise .busy (.busy u r) s.afterEvent)) ∧
    (x.busy = false →
      (r = .src → step s = .next { s.afterEvent with
        units := s.units.set u { x with src := .value (wordOfBytes bytes) } }) ∧
      (r = .dst → step s = .next { s.afterEvent with
        units := s.units.set u { x with dst := .value (wordOfBytes bytes) } }) ∧
      (r = .pitch → step s = .next { s.afterEvent with
        units := s.units.set u { x with pitch := .value (wordOfBytes bytes) } }))

/-- 10_state.md R23 to R29: what a read of each register returns, and when it raises F_BUSY or F_UNWRITTEN. -/
def Obligations.RegisterReads : Prop :=
  ∀ (s : State) (u agent addr : Nat) (x : UnitState) (r : Reg),
    s.nextReads u r agent addr = true → s.units[u]? = some x →
    (r = .status → ∃ w : Word, step s = .next { s.afterEvent with reply := some ⟨agent, .word w⟩ } ∧
      w.getLsbD 0 = x.busy ∧ w.getLsbD 1 = x.done ∧ w.extractLsb' 2 30 = 0#30) ∧
    (r = .result → x.busy = true → step s = .next (raise .busy (.busy u .result) s.afterEvent)) ∧
    (∀ c : RegCell,
      (r = .cmd ∧ c = x.cmd) ∨ (r = .src ∧ c = x.src) ∨ (r = .dst ∧ c = x.dst) ∨ (r = .pitch ∧ c = x.pitch) ∨
        (r = .result ∧ x.busy = false ∧ c = x.result) →
      (∀ w, c = .value w → step s = .next { s.afterEvent with reply := some ⟨agent, .word w⟩ }) ∧
      (c = .unwritten → step s = .next (raise .unwritten (.register r) s.afterEvent)))

/-- 60_exceptions.md R145: the register-access faults, and that an access outside every window is a memory access. -/
def Obligations.RegisterAccessFaults : Prop :=
  (∀ (s : State) (u agent addr width base : Nat), s.next (.hostRead agent addr width) = true →
    windowOf s.params addr width = some u → s.params.unitBases[u]? = some base → base ≤ addr →
    (width ≠ 4 ∨ (addr - base) % 4 ≠ 0 ∨ addr - base = 0x18 ∨ addr - base = 0x1C) →
    step s = .next (raise .regAccess (.access addr width) s.afterEvent)) ∧
  (∀ (s : State) (u agent addr base : Nat) (bytes : List Byte), s.next (.hostWrite agent addr bytes) = true →
    windowOf s.params addr bytes.length = some u → s.params.unitBases[u]? = some base → base ≤ addr →
    (bytes.length ≠ 4 ∨ (addr - base) % 4 ≠ 0 ∨ addr - base = 0x18 ∨ addr - base = 0x1C) →
    step s = .next (raise .regAccess (.access addr bytes.length) s.afterEvent)) ∧
  (∀ (s : State) (u agent addr : Nat) (bytes : List Byte) (x : UnitState) (r : Reg),
    s.nextWrites u r agent addr bytes = true → s.units[u]? = some x → (r = .result ∨ r = .status) →
    step s = .next (raise .regAccess (.access addr bytes.length) s.afterEvent)) ∧
  (∀ (s : State) (agent addr width : Nat), s.next (.hostRead agent addr width) = true →
    windowOf s.params addr width = none → step s = hostMemRead agent addr width s.afterEvent) ∧
  (∀ (s : State) (agent addr : Nat) (bytes : List Byte), s.next (.hostWrite agent addr bytes) = true →
    windowOf s.params addr bytes.length = none → step s = hostMemWrite agent addr bytes s.afterEvent)

/-- 60_exceptions.md R145, as the model reads it (log 10): an access that starts below a window and reaches into it is a register
access, and raises F_REGACCESS. -/
def Obligations.StraddlingAccessFaults : Prop :=
  (∀ (s : State) (u agent addr width base : Nat), s.next (.hostRead agent addr width) = true →
    windowOf s.params addr width = some u → s.params.unitBases[u]? = some base → addr < base →
    step s = .next (raise .regAccess (.access addr width) s.afterEvent)) ∧
  (∀ (s : State) (u agent addr base : Nat) (bytes : List Byte), s.next (.hostWrite agent addr bytes) = true →
    windowOf s.params addr bytes.length = some u → s.params.unitBases[u]? = some base → addr < base →
    step s = .next (raise .regAccess (.access addr bytes.length) s.afterEvent))

/-! ### Memory -/

/-- 30_encoding.md R77, 20_memory.md R49, R53: a host access of usable memory (which bytes that is, log 9
says) that races with no busy unit reads the bytes, or stores them and leaves every other byte alone. -/
def Obligations.HostMemoryAccesses : Prop :=
  ∀ (s : State) (agent addr : Nat), s.fault = none → Memory.wf s.mem = true →
    (∀ (width : Nat), s.next (.hostRead agent addr width) = true → windowOf s.params addr width = none →
      (∀ i < width, addr + i < 2 ^ s.params.addrBits ∧ ∃ r : ByteRange,
        (r.len = 1 ∨ r.len = 8 ∨ r.len = 16) ∧ r.has (addr + i) = true ∧ admitted s.params r = true) →
      (∀ (u : Nat) (x : UnitState) (l : InFlight), s.units[u]? = some x → x.busy = true → x.inFlight = some l →
        rangesMeet l.writeSet ⟨addr, width⟩ = false) →
      ∃ bs : List Byte, step s = .next { s.afterEvent with reply := some ⟨agent, .bytes bs⟩ } ∧ bs.length = width ∧
        ∀ i < width, bs[i]? = some (readByte s.mem (addr + i))) ∧
    (∀ (bytes : List Byte), s.next (.hostWrite agent addr bytes) = true →
      windowOf s.params addr bytes.length = none →
      (∀ i < bytes.length, addr + i < 2 ^ s.params.addrBits ∧ ∃ r : ByteRange,
        (r.len = 1 ∨ r.len = 8 ∨ r.len = 16) ∧ r.has (addr + i) = true ∧ admitted s.params r = true) →
      (∀ (u : Nat) (x : UnitState) (l : InFlight), s.units[u]? = some x → x.busy = true → x.inFlight = some l →
        l.touches ⟨addr, bytes.length⟩ = false) →
      ∃ m : Memory, step s = .next { s.afterEvent with mem := m } ∧ Memory.wf m = true ∧
        (∀ i < bytes.length, some (readByte m (addr + i)) = bytes[i]?) ∧
        ∀ a : Nat, a < addr ∨ addr + bytes.length ≤ a → readByte m a = readByte s.mem a)

/-- 20_memory.md R53: the race rule. A host write to a byte of R or W of a busy unit, a host read of a byte of W, and an
issue on another unit whose footprint conflicts, each raise F_RACE. A host read of no byte of a W, of R among others, raises
nothing. -/
def Obligations.RacesFault : Prop :=
  (∀ (s : State) (agent addr u a : Nat) (bytes : List Byte) (x : UnitState) (l : InFlight),
    s.next (.hostWrite agent addr bytes) = true → windowOf s.params addr bytes.length = none →
    s.units[u]? = some x → x.busy = true → x.inFlight = some l → addr ≤ a → a < addr + bytes.length →
    (l.readSet.has a = true ∨ rangesHave l.writeSet a = true) →
    ∃ info, step s = .next (raise .race info s.afterEvent)) ∧
  (∀ (s : State) (agent addr width u a : Nat) (x : UnitState) (l : InFlight),
    s.next (.hostRead agent addr width) = true → windowOf s.params addr width = none →
    s.units[u]? = some x → x.busy = true → x.inFlight = some l → addr ≤ a → a < addr + width →
    rangesHave l.writeSet a = true →
    ∃ info, step s = .next (raise .race info s.afterEvent)) ∧
  (∀ (s : State) (v u a : Nat) (y x : UnitState) (k l : InFlight) (i : Instr),
    s.turn = .issue v → s.units[v]? = some y → s.units[u]? = some x → u ≠ v → x.busy = true → x.inFlight = some l →
    i = k.command → y.busy = false → y.src = .value k.src → k.legal s.params = true →
    (∀ iba h dst pitch, k.op = .block iba h dst pitch → y.dst = .value dst ∧ y.pitch = .value pitch) →
    ((rangesHave k.writeSet a = true ∧ (l.readSet.has a = true ∨ rangesHave l.writeSet a = true)) ∨
      (rangesHave l.writeSet a = true ∧ k.readSet.has a = true)) →
    ∃ info, exec i s = .next (raise .race info s)) ∧
  (∀ (s t : State) (agent addr width : Nat), s.next (.hostRead agent addr width) = true →
    windowOf s.params addr width = none →
    (∀ (u : Nat) (x : UnitState) (l : InFlight), s.units[u]? = some x → x.busy = true → x.inFlight = some l →
      ∀ a : Nat, addr ≤ a → a < addr + width → rangesHave l.writeSet a = false) →
    step s = .next t → t.fault = none)

/-! ### Reset -/

/-- 10_state.md R38, R39: what reset leaves, as far as the spec gives it: the registers unwritten, STATUS = 0, no in-flight
record, no fault. -/
def Obligations.ResetLeavesTheUnitIdle : Prop :=
  State.reset.fault = none ∧
  ∀ x ∈ State.reset.units, x.cmd = .unwritten ∧ x.src = .unwritten ∧ x.dst = .unwritten ∧ x.pitch = .unwritten ∧
    x.result = .unwritten ∧ statusWord x = 0x00000000 ∧ x.inFlight = none

/-- 70_reset_and_hazards.md R160, R161: a reset of a unit. Its registers, STATUS and L are those of R39; no other unit, no
fault record and no byte outside the write set of an abandoned command changes. -/
def Obligations.UnitReset : Prop :=
  ∀ (s : State) (u : Nat) (x : UnitState), s.next (.reset u) = true → s.units[u]? = some x →
    ∃ (m : Memory) (n : Nat), step s = .next { s.afterEvent with
        mem := m
        draws := n
        units := s.units.set u
          { cmd := .unwritten, src := .unwritten, dst := .unwritten, pitch := .unwritten, result := .unwritten
            busy := false, done := false, inFlight := none } } ∧
      (x.busy = false → m = s.mem) ∧
      (∀ l, x.inFlight = some l → ∀ a : Nat, rangesHave l.writeSet a = false → readByte m a = readByte s.mem a)

/-! ### Whole-machine claims -/

/-- The invariant at reset (10_state.md R39; it rests on log 1, log 4 and log 5 for the platform, the memory and the events). -/
def Obligations.ResetMeetsTheInvariant : Prop := State.reset.inv = true

/-- The invariant that every step keeps: canonical memory inside the address space (10_state.md R35), L held exactly from the
issue to the completion step and BUSY and DONE never together (42_decode_ops.md R122, R129), the sources of L unchanged
(10_state.md R23 to R26), and no two commands in flight that race (20_memory.md R53). And no step changes a parameter
(10_state.md R32). That BUSY and DONE are never together is a sentence of 10_state.md R28, and that the sources of L do not
change is one of R36: the spec marks both as its own derivations, the first from R122 and R129, the second from R23 to R26. -/
def Obligations.StepKeepsTheInvariant : Prop :=
  ∀ s t : State, s.inv = true → step s = .next t → t.inv = true ∧ t.params = s.params

/-- 10_state.md R23 to R26, 20_memory.md R53: while a unit stays busy, a step changes neither its in-flight record nor any byte
of its block or of its write set. The spec says the first in 10_state.md R36, which it marks as its own derivation from R23 to
R26, and the second in 20_memory.md R52, which it marks as its own derivation from R53 and R36. -/
def Obligations.InFlightIsUndisturbed : Prop :=
  ∀ (s t : State) (u : Nat) (l : InFlight) (y : UnitState), s.inv = true → s.flying u l = true → step s = .next t →
    t.units[u]? = some y → y.busy = true →
    t.flying u l = true ∧ ∀ a : Nat, l.protects a = true → readByte t.mem a = readByte s.mem a

/-- 41_texel_assembly.md R117: what a command writes and returns depends only on the latched operands and the block bytes. The
spec says so in 42_decode_ops.md R131, which it marks as its own derivation from R117. -/
def Obligations.OutputDependsOnlyOnOperandsAndBlock : Prop :=
  ∀ (s1 s2 t1 t2 : State) (u : Nat) (l : InFlight), s1.params = s2.params → s1.inv = true → s2.inv = true →
    s1.turn = .complete u → s2.turn = .complete u → s1.flying u l = true → s2.flying u l = true →
    (∀ i < blockLen l.variant, readByte s1.mem (l.src.toNat + i) = readByte s2.mem (l.src.toNat + i)) →
    exec l.command s1 = .next t1 → exec l.command s2 = .next t2 →
    (∀ a : Nat, rangesHave l.writeSet a = true → readByte t1.mem a = readByte t2.mem a) ∧
    (∀ (xx yy : BitVec 2) (y1 y2 : UnitState), l.op = .texel xx yy → t1.units[u]? = some y1 →
      t2.units[u]? = some y2 → y1.result = y2.result)

/-- 20_memory.md R49: a host read, of memory or of a register, changes no memory byte, no register and no unit. -/
def Obligations.HostReadsHaveNoSideEffect : Prop :=
  ∀ (s t : State) (agent addr width : Nat), s.next (.hostRead agent addr width) = true → step s = .next t →
    t.mem = s.mem ∧ t.units = s.units ∧ t.params = s.params ∧ t.draws = s.draws ∧ t.events = s.events.tail

/-- 30_encoding.md R77, 70_reset_and_hazards.md R166: a `WAIT` ends, after at most one completion, with BUSY = 0 and the host
past it. That the unit completes before other agents move is the model's choice of order (log 12). -/
def Obligations.WaitEnds : Prop :=
  ∀ (s : State) (agent u : Nat) (x : UnitState), s.inv = true → s.next (.wait agent u) = true →
    s.units[u]? = some x →
    ∃ k ≤ 2, ∃ (t : State) (y : UnitState), Host.Core.run Sys2Proof.core k s = .next t ∧ t.events = s.events.tail ∧
      t.fault = none ∧ t.units[u]? = some y ∧ y.busy = false ∧ t.reply = some ⟨agent, .word (statusWord y)⟩

/-- 70_reset_and_hazards.md R165, R166: once the hosts have finished, the run ends: after as many steps as there are busy
units every unit is idle and no fault is recorded, and it stays so. Which unit completes first is the model's choice (log 12). -/
def Obligations.QuietRunEnds : Prop :=
  ∀ s : State, s.inv = true → s.fault = none → s.events = [] →
    ∃ t : State, Host.Core.run Sys2Proof.core s.busyCount s = .next t ∧ t.ended = true ∧ step t = .next t

/-- 70_reset_and_hazards.md R165, R166: the end of a run is its three conditions; a run that has ended is over, with the memory,
the registers and the fault record as they are, whatever moves of the units and the platform are left (log 22); a recorded
fault rejects it; and once the hosts have finished, a run ends under any order of the completions and resets left. -/
def Obligations.RunEnds : Prop :=
  (∀ s : State, s.ended = true ↔
    (∀ e ∈ s.events, (∃ u, e = .complete u) ∨ (∃ u, e = .reset u)) ∧ (∀ x ∈ s.units, x.busy = false) ∧ s.fault = none) ∧
  (∀ (s : State) (k : Nat), s.ended = true → runFrom k s = .ended
    { mem := s.mem
      windows := s.units.map fun x => ⟨x.cmd, x.src, x.dst, x.pitch, x.result, statusWord x⟩
      fault := none }) ∧
  (∀ (s : State) (k : Nat) (r : FaultRecord), s.fault = some r → runFrom k s = .rejected r) ∧
  (∀ s : State, s.inv = true → s.fault = none →
    (∀ e ∈ s.events, ∃ u < s.units.length, e = .complete u ∨ e = .reset u) →
    ∃ f : FinalState, runFrom (s.events.length + s.busyCount) s = .ended f)

/-! ### The call level -/

/-- 42_decode_ops.md R132, 41_texel_assembly.md R117: a `DecodeBlock` call whose operands pass the checks writes the block's
texels and leaves every other byte alone. That it changes nothing else, no unit's registers among it, and that the variants are
numbered 0, 1, 2, is the model's choice (log 14). -/
def Obligations.DecodeBlockCallWrites : Prop :=
  ∀ (s : State) (agent : Nat) (v : Variant) (tag : Int) (src dst pitch height : Nat) (iba : Bool),
    s.next (.callBlock agent tag src dst pitch height iba) = true → Memory.wf s.mem = true →
    (v = .a ∧ tag = 0) ∨ (v = .b ∧ tag = 1) ∨ (v = .c ∧ tag = 2) →
    1 ≤ height → height ≤ 4 → (1 < height → 4 ≤ pitch) → src % blockLen v = 0 → dst % 4 = 0 →
    src < 2 ^ s.params.addrBits → dst < 2 ^ s.params.addrBits → pitch < 2 ^ s.params.addrBits →
    admitted s.params ⟨src, blockLen v⟩ = true →
    (∀ y < height, admitted s.params ⟨dst + 4 * y * pitch, 16⟩ = true ∧
      (ByteRange.mk (dst + 4 * y * pitch) 16).meets ⟨src, blockLen v⟩ = false) →
    (∀ (u : Nat) (x : UnitState) (l : InFlight), s.units[u]? = some x → x.busy = true → x.inFlight = some l →
      rangesMeet l.writeSet ⟨src, blockLen v⟩ = false ∧ ∀ y < height, l.touches ⟨dst + 4 * y * pitch, 16⟩ = false) →
    ∃ m : Memory, step s = .next { s.afterEvent with mem := m } ∧
      (∀ y < height, ∀ xx < 4, readWord m (texelAddr dst pitch xx y) =
        texel s.params v (readBytes s.mem src (blockLen v)) xx y iba) ∧
      (∀ a : Nat, (∀ y < height, ∀ xx < 4, a < texelAddr dst pitch xx y ∨ texelAddr dst pitch xx y + 4 ≤ a) →
        readByte m a = readByte s.mem a)

/-- 42_decode_ops.md R121, R132: a `DecodeTexel` call whose operands pass the checks returns the texel decoded with iba = 0.
That it changes no unit, and that the variants are numbered 0, 1, 2, is the model's choice (log 14). -/
def Obligations.DecodeTexelCallReturns : Prop :=
  ∀ (s : State) (agent : Nat) (v : Variant) (tag : Int) (src xx yy : Nat),
    s.next (.callTexel agent tag src xx yy) = true →
    (v = .a ∧ tag = 0) ∨ (v = .b ∧ tag = 1) ∨ (v = .c ∧ tag = 2) →
    xx < 4 → yy < 4 → src % blockLen v = 0 → src < 2 ^ s.params.addrBits →
    admitted s.params ⟨src, blockLen v⟩ = true →
    (∀ (u : Nat) (x : UnitState) (l : InFlight), s.units[u]? = some x → x.busy = true → x.inFlight = some l →
      rangesMeet l.writeSet ⟨src, blockLen v⟩ = false) →
    step s = .next { s.afterEvent with
      reply := some ⟨agent, .word (texel s.params v (readBytes s.mem src (blockLen v)) xx yy false)⟩ }

/-- 42_decode_ops.md R132: the faults of a call's own operands. The order of F_COORD and of an operand's F_ACCESS among
the other checks, and that the variants are numbered 0, 1, 2, is the model's choice (log 14), so the hypotheses rule the
earlier faults out. -/
def Obligations.CallOperandFaults : Prop :=
  (∀ (s : State) (agent : Nat) (tag src dst pitch height : Int) (iba : Bool),
    s.next (.callBlock agent tag src dst pitch height iba) = true →
    (tag < 0 ∨ 2 < tag → step s = .next (raise .illegalVariant (.callVariant tag) s.afterEvent)) ∧
    (0 ≤ tag → tag ≤ 2 → height < 1 ∨ 4 < height →
      step s = .next (raise .height (.callHeight height) s.afterEvent)) ∧
    (∀ v : Variant, (v = .a ∧ tag = 0) ∨ (v = .b ∧ tag = 1) ∨ (v = .c ∧ tag = 2) → 1 ≤ height → height ≤ 4 →
      (1 < height → 4 ≤ pitch) → src % (blockLen v : Int) = 0 → dst % 4 = 0 →
      (src < 0 ∨ (2 ^ s.params.addrBits : Nat) ≤ src ∨ dst < 0 ∨ (2 ^ s.params.addrBits : Nat) ≤ dst ∨
        pitch < 0 ∨ (2 ^ s.params.addrBits : Nat) ≤ pitch) →
      ∃ o, (o = src ∨ o = dst ∨ o = pitch) ∧ step s = .next (raise .access (.operand o) s.afterEvent))) ∧
  (∀ (s : State) (agent : Nat) (tag src xx yy : Int), s.next (.callTexel agent tag src xx yy) = true →
    (tag < 0 ∨ 2 < tag → step s = .next (raise .illegalVariant (.callVariant tag) s.afterEvent)) ∧
    (0 ≤ tag → tag ≤ 2 → xx < 0 ∨ 3 < xx ∨ yy < 0 ∨ 3 < yy →
      step s = .next (raise .coord (.coord xx yy) s.afterEvent)) ∧
    (∀ v : Variant, (v = .a ∧ tag = 0) ∨ (v = .b ∧ tag = 1) ∨ (v = .c ∧ tag = 2) → 0 ≤ xx → xx ≤ 3 → 0 ≤ yy →
      yy ≤ 3 → src % (blockLen v : Int) = 0 →
      (src < 0 ∨ (2 ^ s.params.addrBits : Nat) ≤ src) →
      step s = .next (raise .access (.operand src) s.afterEvent)))

/-- 42_decode_ops.md R132, R122: the checks that a `DecodeBlock` call takes from an issue, in the order of R122: F_PITCH, F_ALIGN
for srcBlock and then dst, and, for operands inside the address space, F_ACCESS of the footprint, F_OVERLAP and F_RACE. The
variants' numbers, the place of the operands' own F_ACCESS before the footprint's, and what F_ACCESS and F_RACE record are the
model's choices (log 13, log 14). -/
def Obligations.BlockCallFaults : Prop :=
  ∀ (s : State) (agent : Nat) (v : Variant) (tag src dst pitch : Int) (height : Nat) (iba : Bool),
    s.next (.callBlock agent tag src dst pitch height iba) = true →
    (v = .a ∧ tag = 0) ∨ (v = .b ∧ tag = 1) ∨ (v = .c ∧ tag = 2) → 1 ≤ height → height ≤ 4 →
    (1 < height → pitch < 4 → step s = .next (raise .pitch (.pitch pitch) s.afterEvent)) ∧
    ((1 < height → 4 ≤ pitch) →
      (src % (blockLen v : Int) ≠ 0 → step s = .next (raise .align (.address src) s.afterEvent)) ∧
      (src % (blockLen v : Int) = 0 → dst % 4 ≠ 0 → step s = .next (raise .align (.address dst) s.afterEvent)) ∧
      (src % (blockLen v : Int) = 0 → dst % 4 = 0 →
        ∀ (a b c : Nat) (readSet : ByteRange) (rows : List ByteRange), src = a → dst = b → pitch = c →
          a < 2 ^ s.params.addrBits → b < 2 ^ s.params.addrBits → c < 2 ^ s.params.addrBits →
          readSet = ⟨a, blockLen v⟩ → rows = (List.range height).map (fun y => ⟨b + 4 * y * c, 16⟩) →
          (∀ (before after : List ByteRange) (r : ByteRange), readSet :: rows = before ++ r :: after →
            (∀ q ∈ before, admitted s.params q = true) → admitted s.params r = false →
            step s = .next (raise .access (.range r) s.afterEvent)) ∧
          ((∀ r ∈ readSet :: rows, admitted s.params r = true) →
            ((∃ r ∈ rows, r.meets readSet = true) → step s = .next (raise .overlap (.overlap a b) s.afterEvent)) ∧
            ((∀ r ∈ rows, r.meets readSet = false) →
              ∀ u, unitRaces s readSet rows u = true → (∀ u' < u, unitRaces s readSet rows u' = false) →
              step s = .next (raise .race (.agentUnit agent u) s.afterEvent)))))

/-- 42_decode_ops.md R132, R122: the checks that a `DecodeTexel` call takes from an issue, in the order of R122: F_ALIGN, and, for
an operand inside the address space, F_ACCESS of the block and F_RACE. The variants' numbers, the place of F_COORD and of the
operand's own F_ACCESS, and what F_ACCESS and F_RACE record are the model's choices (log 13, log 14). -/
def Obligations.TexelCallFaults : Prop :=
  ∀ (s : State) (agent : Nat) (v : Variant) (tag src : Int) (xx yy : Nat),
    s.next (.callTexel agent tag src xx yy) = true →
    (v = .a ∧ tag = 0) ∨ (v = .b ∧ tag = 1) ∨ (v = .c ∧ tag = 2) → xx < 4 → yy < 4 →
    (src % (blockLen v : Int) ≠ 0 → step s = .next (raise .align (.address src) s.afterEvent)) ∧
    (src % (blockLen v : Int) = 0 → ∀ a : Nat, src = a → a < 2 ^ s.params.addrBits →
      (admitted s.params ⟨a, blockLen v⟩ = false →
        step s = .next (raise .access (.range ⟨a, blockLen v⟩) s.afterEvent)) ∧
      (admitted s.params ⟨a, blockLen v⟩ = true →
        ∀ u, unitRaces s ⟨a, blockLen v⟩ [] u = true → (∀ u' < u, unitRaces s ⟨a, blockLen v⟩ [] u' = false) →
        step s = .next (raise .race (.agentUnit agent u) s.afterEvent)))
end

