-- ==== Sys2Proof/Laws/Calls.lean ====
section
/-! SUPPORT. The operands of a call (42_decode_ops.md R132). -/

namespace Sys2Proof.Machine

/-- The number of each variant. -/
theorem callVariant_eq_some {tag : Int} {v : Variant} :
    callVariant tag = some v ↔ (v = .a ∧ tag = 0) ∨ (v = .b ∧ tag = 1) ∨ (v = .c ∧ tag = 2) := by
  unfold callVariant
  split
  · cases v <;> simp [*]
  · split
    · cases v <;> simp [*]
    · split <;> cases v <;> simp [*]

/-- The numbers that are no variant's. -/
theorem callVariant_eq_none {tag : Int} : callVariant tag = none ↔ tag < 0 ∨ 2 < tag := by
  unfold callVariant
  split
  · simp; omega
  · split
    · simp; omega
    · split
      · simp; omega
      · simp; omega

/-- Every operand fits. -/
theorem operandMisfit_eq_none {p : Params} {vs : List Int} :
    operandMisfit p vs = none ↔ ∀ v ∈ vs, 0 ≤ v ∧ v < (2 ^ p.addrBits : Nat) := by
  simp [operandMisfit, List.find?_eq_none, operandFits]

/-- An operand reported is one of those passed, and does not fit. -/
theorem operandMisfit_some {p : Params} {vs : List Int} {o : Int} (h : operandMisfit p vs = some o) :
    o ∈ vs ∧ (o < 0 ∨ (2 ^ p.addrBits : Nat) ≤ o) := by
  refine ⟨List.mem_of_find?_eq_some h, ?_⟩
  have := List.find?_some h
  simp only [operandFits, Bool.not_eq_true', Bool.and_eq_false_iff, decide_eq_false_iff_not] at this
  omega

end Sys2Proof.Machine
end

