-- ==== Sys2Proof/Laws/Memory.lean ====
section
/-! SUPPORT. Memory: every operation keeps the canonical form, a read after a write gives the value written, and a write
leaves every other byte alone. -/

namespace Sys2Proof.Machine

/-! ### The canonical form -/

/-- The canonical form of a cons: the entry is needed, every later address is greater, and the rest is canonical. -/
theorem wf_cons (a : Nat) (v : Byte) (m : Memory) :
    Memory.wf ((a, v) :: m) = true ↔ v ≠ Memory.unlisted ∧ (∀ c ∈ m, a < c.1) ∧ Memory.wf m = true := by
  induction m generalizing a v with
  | nil => simp [Memory.wf]
  | cons c m ih =>
    obtain ⟨b, w⟩ := c
    simp only [Memory.wf, Bool.and_eq_true, bne_iff_ne, ne_eq, decide_eq_true_eq, List.mem_cons, forall_eq_or_imp]
    constructor
    · rintro ⟨⟨hv, hab⟩, h⟩
      exact ⟨hv, ⟨hab, fun c hc => hab.trans ((ih b w).1 h |>.2.1 c hc)⟩, h⟩
    · rintro ⟨hv, ⟨hab, _⟩, h⟩
      exact ⟨⟨hv, hab⟩, h⟩

/-- An address below every listed one reads as unlisted. -/
theorem readByte_below {m : Memory} {a : Nat} (h : ∀ c ∈ m, a < c.1) : readByte m a = Memory.unlisted := by
  induction m with
  | nil => rfl
  | cons c m ih =>
    obtain ⟨k, v⟩ := c
    have hk : a < k := h (k, v) (by simp)
    rw [readByte, if_neg (by omega), ih fun c hc => h c (by simp [hc])]

theorem readByte_consCell (a : Nat) (b : Byte) (m : Memory) (a' : Nat) :
    readByte (consCell a b m) a' = if a' = a ∧ b ≠ Memory.unlisted then b else readByte m a' := by
  by_cases hb : b = Memory.unlisted
  · simp [consCell, hb]
  · by_cases ha : a' = a <;> simp [consCell, hb, readByte, ha]

theorem mem_consCell {a : Nat} {b : Byte} {m : Memory} {c : Host.Cell} (h : c ∈ consCell a b m) :
    c = (a, b) ∨ c ∈ m := by
  unfold consCell at h
  split at h
  · exact .inr h
  · simpa using h

theorem wf_consCell {a : Nat} {b : Byte} {m : Memory} (hm : Memory.wf m = true) (h : ∀ c ∈ m, a < c.1) :
    Memory.wf (consCell a b m) = true := by
  unfold consCell
  split
  · exact hm
  · exact (wf_cons a b m).2 ⟨‹_›, h, hm⟩

/-! ### One byte -/

/-- A byte write adds no cell but its own. -/
theorem mem_writeByte {m : Memory} {a : Nat} {b : Byte} {c : Host.Cell} (h : c ∈ writeByte m a b) :
    c = (a, b) ∨ c ∈ m := by
  induction m with
  | nil => exact mem_consCell h
  | cons d m ih =>
    obtain ⟨k, v⟩ := d
    simp only [writeByte] at h
    split at h
    · exact mem_consCell h
    · split at h
      · exact (mem_consCell h).imp_right fun h => by simp [h]
      · rcases List.mem_cons.1 h with h | h
        · exact .inr (by simp [h])
        · exact (ih h).imp_right fun h => by simp [h]

/-- A byte write keeps the canonical form. -/
theorem wf_writeByte {m : Memory} (hm : Memory.wf m = true) (a : Nat) (b : Byte) :
    Memory.wf (writeByte m a b) = true := by
  induction m with
  | nil => exact wf_consCell rfl (by simp)
  | cons d m ih =>
    obtain ⟨k, v⟩ := d
    obtain ⟨hv, hlt, hwf⟩ := (wf_cons k v m).1 hm
    simp only [writeByte]
    split
    · refine wf_consCell hm fun c hc => ?_
      rcases List.mem_cons.1 hc with rfl | hc
      · assumption
      · exact lt_trans ‹_› (hlt c hc)
    · split
      · subst k; exact wf_consCell hwf hlt
      · refine (wf_cons k v _).2 ⟨hv, fun c hc => ?_, ih hwf⟩
        rcases mem_writeByte hc with rfl | hc
        · simp only; omega
        · exact hlt c hc

/-- A byte write leaves every other byte alone, in any memory. -/
theorem readByte_writeByte_other (m : Memory) {a a' : Nat} (b : Byte) (h : a' ≠ a) :
    readByte (writeByte m a b) a' = readByte m a' := by
  induction m with
  | nil => simp [writeByte, readByte_consCell, h]
  | cons d m ih =>
    obtain ⟨k, v⟩ := d
    simp only [writeByte]
    split
    · simp [readByte_consCell, h]
    · split
      · subst k; simp [readByte_consCell, h, readByte]
      · simp [readByte, ih]

/-- A byte reads as it was written. -/
theorem readByte_writeByte_same {m : Memory} (hm : Memory.wf m = true) (a : Nat) (b : Byte) :
    readByte (writeByte m a b) a = b := by
  induction m with
  | nil => by_cases hb : b = Memory.unlisted <;> simp [writeByte, readByte_consCell, hb, readByte]
  | cons d m ih =>
    obtain ⟨k, v⟩ := d
    obtain ⟨hv, hlt, hwf⟩ := (wf_cons k v m).1 hm
    simp only [writeByte]
    split
    · rename_i hak
      have : readByte ((k, v) :: m) a = Memory.unlisted := readByte_below fun c hc => by
        rcases List.mem_cons.1 hc with rfl | hc
        · exact hak
        · exact hak.trans (hlt c hc)
      by_cases hb : b = Memory.unlisted
      · rw [readByte_consCell, if_neg (by simp [hb]), this, hb]
      · rw [readByte_consCell, if_pos ⟨rfl, hb⟩]
    · split
      · subst k
        by_cases hb : b = Memory.unlisted
        · rw [readByte_consCell, if_neg (by simp [hb]), readByte_below hlt, hb]
        · rw [readByte_consCell, if_pos ⟨rfl, hb⟩]
      · rw [readByte, if_neg (by omega), ih hwf]

/-! ### Runs of bytes -/

theorem wf_writeBytes {m : Memory} (hm : Memory.wf m = true) (a : Nat) (bs : List Byte) :
    Memory.wf (writeBytes m a bs) = true := by
  induction bs generalizing m a with
  | nil => exact hm
  | cons b bs ih => exact ih (wf_writeByte hm a b) (a + 1)

/-- A write of bytes leaves every byte outside its range alone. -/
theorem readByte_writeBytes_other (m : Memory) {a a' : Nat} (bs : List Byte) (h : a' < a ∨ a + bs.length ≤ a') :
    readByte (writeBytes m a bs) a' = readByte m a' := by
  induction bs generalizing m a with
  | nil => rfl
  | cons b bs ih =>
    simp only [List.length_cons] at h
    rw [writeBytes, ih _ (by omega), readByte_writeByte_other m b (by omega)]

/-- Each byte of a run reads as it was written. -/
theorem readByte_writeBytes_same {m : Memory} (hm : Memory.wf m = true) (a : Nat) (bs : List Byte) {i : Nat}
    (hi : i < bs.length) : readByte (writeBytes m a bs) (a + i) = bs[i] := by
  induction bs generalizing m a i with
  | nil => simp at hi
  | cons b bs ih =>
    cases i with
    | zero => rw [writeBytes, readByte_writeBytes_other _ _ (by omega)]; exact readByte_writeByte_same hm a b
    | succ i =>
      have := ih (wf_writeByte hm a b) (a + 1) (i := i) (by simpa using hi)
      rw [writeBytes, show a + (i + 1) = a + 1 + i by omega, this, List.getElem_cons_succ]

@[simp] theorem length_readBytes (m : Memory) (a n : Nat) : (readBytes m a n).length = n := by
  induction n generalizing a with
  | zero => rfl
  | succ n ih => simp [readBytes, ih]

/-- Byte `i` of a run read is the byte at `a + i`. -/
theorem getElem_readBytes (m : Memory) (a n : Nat) {i : Nat} (h : i < (readBytes m a n).length) :
    (readBytes m a n)[i] = readByte m (a + i) := by
  induction n generalizing a i with
  | zero => simp [readBytes] at h
  | succ n ih =>
    cases i with
    | zero => rfl
    | succ i => simp only [readBytes, List.getElem_cons_succ]; rw [ih]; congr 1; omega

/-- Two memories that agree on a range read the same there. -/
theorem readBytes_congr {m m' : Memory} {a n : Nat} (h : ∀ i < n, readByte m (a + i) = readByte m' (a + i)) :
    readBytes m a n = readBytes m' a n := by
  refine List.ext_getElem (by simp) fun i h1 h2 => ?_
  rw [getElem_readBytes, getElem_readBytes, h i (by simpa using h1)]

/-- A run reads back as it was written. -/
theorem readBytes_writeBytes {m : Memory} (hm : Memory.wf m = true) (a : Nat) (bs : List Byte) :
    readBytes (writeBytes m a bs) a bs.length = bs := by
  refine List.ext_getElem (by simp) fun i h1 h2 => ?_
  rw [getElem_readBytes, readByte_writeBytes_same hm a bs h2]

/-! ### Words -/

@[simp] theorem length_bytesOfWord (w : Word) : (bytesOfWord w).length = 4 := rfl

/-- A word is the little-endian value of its bytes. -/
@[simp] theorem wordOfBytes_bytesOfWord (w : Word) : wordOfBytes (bytesOfWord w) = w := by
  apply BitVec.eq_of_toNat_eq
  simp only [wordOfBytes, bytesOfWord, leNat, BitVec.extractLsb'_toNat, Nat.shiftRight_eq_div_pow, BitVec.toNat_ofNat]
  have := w.isLt
  omega

theorem wf_writeWord {m : Memory} (hm : Memory.wf m = true) (a : Nat) (w : Word) :
    Memory.wf (writeWord m a w) = true := wf_writeBytes hm a _

theorem readByte_writeWord_other (m : Memory) {a a' : Nat} (w : Word) (h : a' < a ∨ a + 4 ≤ a') :
    readByte (writeWord m a w) a' = readByte m a' := readByte_writeBytes_other m _ (by simpa using h)

/-- A word reads back as it was written. -/
theorem readWord_writeWord {m : Memory} (hm : Memory.wf m = true) (a : Nat) (w : Word) :
    readWord (writeWord m a w) a = w := by
  have := readBytes_writeBytes hm a (bytesOfWord w)
  rw [length_bytesOfWord] at this
  rw [readWord, writeWord, this, wordOfBytes_bytesOfWord]

/-- A word read depends only on its four bytes. -/
theorem readWord_congr {m m' : Memory} {a : Nat} (h : ∀ i < 4, readByte m (a + i) = readByte m' (a + i)) :
    readWord m a = readWord m' a := by
  rw [readWord, readWord, readBytes_congr h]

/-! ### The texel writes of a `DBLK` -/

theorem mem_blockTexels {f : Nat → Nat → Word} {h x y : Nat} {w : Word} :
    ((x, y), w) ∈ blockTexels f h ↔ x < 4 ∧ y < h ∧ w = f x y := by
  simp only [blockTexels, List.mem_flatMap, List.mem_range, List.mem_map, Prod.mk.injEq]
  constructor
  · rintro ⟨y, hy, x, hx, ⟨rfl, rfl⟩, rfl⟩
    exact ⟨hx, hy, rfl⟩
  · rintro ⟨hx, hy, rfl⟩
    exact ⟨y, hy, x, hx, ⟨rfl, rfl⟩, rfl⟩

theorem wf_writeTexels {m : Memory} (hm : Memory.wf m = true) (dst pitch : Nat) (ts : List ((Nat × Nat) × Word)) :
    Memory.wf (writeTexels m dst pitch ts) = true := by
  induction ts generalizing m with
  | nil => exact hm
  | cons t ts ih => exact ih (wf_writeWord hm _ _)

/-- The texel writes leave every byte outside the texels' words alone. -/
theorem readByte_writeTexels_other (m : Memory) (dst pitch a : Nat) (ts : List ((Nat × Nat) × Word))
    (h : ∀ x y w, ((x, y), w) ∈ ts → a < texelAddr dst pitch x y ∨ texelAddr dst pitch x y + 4 ≤ a) :
    readByte (writeTexels m dst pitch ts) a = readByte m a := by
  induction ts generalizing m with
  | nil => rfl
  | cons t ts ih =>
    obtain ⟨⟨x, y⟩, w⟩ := t
    rw [writeTexels, ih _ fun x y w hm => h x y w (by simp [hm]),
      readByte_writeWord_other m w (h x y w (by simp))]

/-- Two texel writes at different places do not touch, since rows are at least 4 texels apart (20_memory.md R47). -/
theorem texelAddr_apart {dst pitch h x y x' y' : Nat} (hp : pitchBad h pitch = false) (hx : x < 4) (hx' : x' < 4)
    (hy : y < h) (hy' : y' < h) (hne : (x, y) ≠ (x', y')) :
    texelAddr dst pitch x y + 4 ≤ texelAddr dst pitch x' y' ∨ texelAddr dst pitch x' y' + 4 ≤ texelAddr dst pitch x y := by
  simp only [pitchBad, Bool.and_eq_false_iff, decide_eq_false_iff_not] at hp
  simp only [texelAddr]
  rcases Nat.lt_trichotomy y y' with hlt | rfl | hlt
  · have hm : (y + 1) * pitch ≤ y' * pitch := Nat.mul_le_mul_right _ hlt
    have : (y + 1) * pitch = y * pitch + pitch := by ring
    omega
  · have : x ≠ x' := fun h => hne (by rw [h])
    omega
  · have hm : (y' + 1) * pitch ≤ y * pitch := Nat.mul_le_mul_right _ hlt
    have : (y' + 1) * pitch = y' * pitch + pitch := by ring
    omega

/-- Every texel written reads back, when the words do not touch one another. -/
theorem readWord_writeTexels {m : Memory} (hm : Memory.wf m = true) (dst pitch : Nat)
    (ts : List ((Nat × Nat) × Word)) (hp : ts.Pairwise fun t t' =>
      texelAddr dst pitch t.1.1 t.1.2 + 4 ≤ texelAddr dst pitch t'.1.1 t'.1.2 ∨
      texelAddr dst pitch t'.1.1 t'.1.2 + 4 ≤ texelAddr dst pitch t.1.1 t.1.2)
    {x y : Nat} {w : Word} (h : ((x, y), w) ∈ ts) :
    readWord (writeTexels m dst pitch ts) (texelAddr dst pitch x y) = w := by
  induction ts generalizing m with
  | nil => simp at h
  | cons t ts ih =>
    obtain ⟨⟨x', y'⟩, w'⟩ := t
    obtain ⟨hhead, htail⟩ := List.pairwise_cons.1 hp
    rcases List.mem_cons.1 h with h | h
    · obtain ⟨⟨rfl, rfl⟩, rfl⟩ : (x = x' ∧ y = y') ∧ w = w' := by simpa using h
      rw [writeTexels, ← readWord_writeWord hm (texelAddr dst pitch x y) w]
      refine readWord_congr fun i hi => ?_
      rw [readWord_writeWord hm]
      refine readByte_writeTexels_other _ dst pitch _ ts fun x1 y1 w1 hmem => ?_
      have := hhead _ hmem
      simp only at this
      omega
    · exact ih (wf_writeWord hm _ _) htail h

/-- The texels of a block lie at different places. -/
theorem blockTexels_apart {dst pitch h : Nat} (f : Nat → Nat → Word) (hp : pitchBad h pitch = false) :
    (blockTexels f h).Pairwise fun t t' =>
      texelAddr dst pitch t.1.1 t.1.2 + 4 ≤ texelAddr dst pitch t'.1.1 t'.1.2 ∨
      texelAddr dst pitch t'.1.1 t'.1.2 + 4 ≤ texelAddr dst pitch t.1.1 t.1.2 := by
  have hnd : (blockTexels f h).Pairwise fun t t' => t.1 ≠ t'.1 := by
    unfold blockTexels
    rw [List.pairwise_flatMap]
    constructor
    · intro y _
      rw [List.pairwise_map]
      exact List.nodup_range.imp fun hne => by simpa using hne
    · refine List.nodup_range.imp fun hne t ht t' ht' => ?_
      simp only [List.mem_map] at ht ht'
      obtain ⟨_, _, rfl⟩ := ht
      obtain ⟨_, _, rfl⟩ := ht'
      intro heq
      exact hne (Prod.mk.inj heq).2
  refine hnd.imp_of_mem fun {t t'} ht ht' hne => ?_
  obtain ⟨⟨x, y⟩, w⟩ := t
  obtain ⟨⟨x', y'⟩, w'⟩ := t'
  obtain ⟨hx, hy, _⟩ := mem_blockTexels.1 ht
  obtain ⟨hx', hy', _⟩ := mem_blockTexels.1 ht'
  exact texelAddr_apart hp hx hx' hy hy' hne

/-- A `DBLK`'s writes put the texel function's word at every texel address of its rows (42_decode_ops.md R123 to R125). -/
theorem readWord_writeBlock {m : Memory} (hm : Memory.wf m = true) {dst pitch h x y : Nat} (f : Nat → Nat → Word)
    (hp : pitchBad h pitch = false) (hx : x < 4) (hy : y < h) :
    readWord (writeTexels m dst pitch (blockTexels f h)) (texelAddr dst pitch x y) = f x y :=
  readWord_writeTexels hm dst pitch _ (blockTexels_apart f hp) (mem_blockTexels.2 ⟨hx, hy, rfl⟩)

/-- A `DBLK`'s writes leave every byte outside its write set alone (20_memory.md R44, R45). -/
theorem readByte_writeBlock_other (m : Memory) {dst pitch h a : Nat} (f : Nat → Nat → Word)
    (ha : rangesHave (writeSetOf dst pitch h) a = false) :
    readByte (writeTexels m dst pitch (blockTexels f h)) a = readByte m a := by
  refine readByte_writeTexels_other m dst pitch a _ fun x y w hmem => ?_
  obtain ⟨hx, hy, _⟩ := mem_blockTexels.1 hmem
  have := List.any_eq_false.1 ha (rowRange dst pitch y) (by simpa [writeSetOf] using ⟨y, hy, rfl⟩)
  simp only [rowRange, ByteRange.has, Bool.and_eq_true, decide_eq_true_eq, not_and, not_lt, Nat.mul_assoc] at this
  simp only [texelAddr, Nat.mul_add]
  omega

/-! ### The free bytes of a reset -/

theorem wf_drawBytes {m : Memory} (hm : Memory.wf m = true) (k : Nat) (as : List Nat) :
    Memory.wf (drawBytes m k as) = true := by
  induction as generalizing m k with
  | nil => exact hm
  | cons a as ih => exact ih (wf_writeByte hm _ _) (k + 1)

/-- The draws leave every byte that is not drawn alone. -/
theorem readByte_drawBytes_other (m : Memory) (k a : Nat) (as : List Nat) (h : a ∉ as) :
    readByte (drawBytes m k as) a = readByte m a := by
  induction as generalizing m k with
  | nil => rfl
  | cons b as ih =>
    simp only [List.mem_cons, not_or] at h
    rw [drawBytes, ih _ _ h.2, readByte_writeByte_other m _ h.1]

theorem mem_addressesOf {rs : List ByteRange} {a : Nat} : a ∈ addressesOf rs ↔ rangesHave rs a = true := by
  simp only [addressesOf, List.mem_flatMap, List.mem_map, List.mem_range, rangesHave, List.any_eq_true,
    ByteRange.has, Bool.and_eq_true, decide_eq_true_eq]
  constructor
  · rintro ⟨r, hr, i, hi, rfl⟩
    exact ⟨r, hr, by omega, by omega⟩
  · rintro ⟨r, hr, h1, h2⟩
    exact ⟨r, hr, a - r.base, by omega, by omega⟩

/-! ### The address space -/

/-- Every listed byte passes a test. -/
theorem all_writeByte {m : Memory} {test : Nat → Bool} (hm : m.all (fun c => test c.1) = true) {a : Nat} (b : Byte)
    (ha : test a = true) : (writeByte m a b).all (fun c => test c.1) = true := by
  rw [List.all_eq_true] at hm ⊢
  intro c hc
  rcases mem_writeByte hc with rfl | hc
  · exact ha
  · exact hm c hc

theorem all_writeBytes {m : Memory} {test : Nat → Bool} (hm : m.all (fun c => test c.1) = true) {a : Nat}
    (bs : List Byte) (ha : ∀ i < bs.length, test (a + i) = true) :
    (writeBytes m a bs).all (fun c => test c.1) = true := by
  induction bs generalizing m a with
  | nil => exact hm
  | cons b bs ih =>
    refine ih (all_writeByte hm b (ha 0 (by simp))) fun i hi => ?_
    have := ha (i + 1) (by simpa using hi)
    rwa [show a + 1 + i = a + (i + 1) by omega]

theorem all_drawBytes {m : Memory} {test : Nat → Bool} (hm : m.all (fun c => test c.1) = true) (k : Nat)
    (as : List Nat) (ha : ∀ a ∈ as, test a = true) : (drawBytes m k as).all (fun c => test c.1) = true := by
  induction as generalizing m k with
  | nil => exact hm
  | cons a as ih => exact ih (all_writeByte hm _ (ha a (by simp))) _ fun b hb => ha b (by simp [hb])

theorem all_writeTexels {m : Memory} {test : Nat → Bool} (hm : m.all (fun c => test c.1) = true) (dst pitch : Nat)
    (ts : List ((Nat × Nat) × Word))
    (ha : ∀ x y w, ((x, y), w) ∈ ts → ∀ i < 4, test (texelAddr dst pitch x y + i) = true) :
    (writeTexels m dst pitch ts).all (fun c => test c.1) = true := by
  induction ts generalizing m with
  | nil => exact hm
  | cons t ts ih =>
    obtain ⟨⟨x, y⟩, w⟩ := t
    refine ih (all_writeBytes hm _ fun i hi => ha x y w (by simp) i (by simpa using hi)) fun x y w hmem => ?_
    exact ha x y w (by simp [hmem])

end Sys2Proof.Machine
end

