-- ==== Sys2Proof/Laws/State.lean ====
section
/-! SUPPORT. One lemma for each field under each named update of a state or of a unit, so that no later proof unfolds one. -/

namespace Sys2Proof.Machine

variable (s : State) (m : Memory) (u : Nat) (x : UnitState) (t : Turn) (es : List Event) (agent n : Nat) (d : HostData)
  (code : FaultCode) (info : FaultInfo) (r : FaultRecord) (w : Word) (l : InFlight)

/-! ### `withMem` -/
@[simp] theorem withMem_params : (s.withMem m).params = s.params := rfl
@[simp] theorem withMem_units : (s.withMem m).units = s.units := rfl
@[simp] theorem withMem_mem : (s.withMem m).mem = m := rfl
@[simp] theorem withMem_fault : (s.withMem m).fault = s.fault := rfl
@[simp] theorem withMem_turn : (s.withMem m).turn = s.turn := rfl
@[simp] theorem withMem_events : (s.withMem m).events = s.events := rfl
@[simp] theorem withMem_reply : (s.withMem m).reply = s.reply := rfl
@[simp] theorem withMem_draws : (s.withMem m).draws = s.draws := rfl

/-! ### `setUnit` -/
@[simp] theorem setUnit_params : (s.setUnit u x).params = s.params := rfl
@[simp] theorem setUnit_units : (s.setUnit u x).units = s.units.set u x := rfl
@[simp] theorem setUnit_mem : (s.setUnit u x).mem = s.mem := rfl
@[simp] theorem setUnit_fault : (s.setUnit u x).fault = s.fault := rfl
@[simp] theorem setUnit_turn : (s.setUnit u x).turn = s.turn := rfl
@[simp] theorem setUnit_events : (s.setUnit u x).events = s.events := rfl
@[simp] theorem setUnit_reply : (s.setUnit u x).reply = s.reply := rfl
@[simp] theorem setUnit_draws : (s.setUnit u x).draws = s.draws := rfl

/-! ### `withTurn` -/
@[simp] theorem withTurn_params : (s.withTurn t).params = s.params := rfl
@[simp] theorem withTurn_units : (s.withTurn t).units = s.units := rfl
@[simp] theorem withTurn_mem : (s.withTurn t).mem = s.mem := rfl
@[simp] theorem withTurn_fault : (s.withTurn t).fault = s.fault := rfl
@[simp] theorem withTurn_turn : (s.withTurn t).turn = t := rfl
@[simp] theorem withTurn_events : (s.withTurn t).events = s.events := rfl
@[simp] theorem withTurn_reply : (s.withTurn t).reply = s.reply := rfl
@[simp] theorem withTurn_draws : (s.withTurn t).draws = s.draws := rfl

/-! ### `withEvents` -/
@[simp] theorem withEvents_params : (s.withEvents es).params = s.params := rfl
@[simp] theorem withEvents_units : (s.withEvents es).units = s.units := rfl
@[simp] theorem withEvents_mem : (s.withEvents es).mem = s.mem := rfl
@[simp] theorem withEvents_fault : (s.withEvents es).fault = s.fault := rfl
@[simp] theorem withEvents_turn : (s.withEvents es).turn = s.turn := rfl
@[simp] theorem withEvents_events : (s.withEvents es).events = es := rfl
@[simp] theorem withEvents_reply : (s.withEvents es).reply = s.reply := rfl
@[simp] theorem withEvents_draws : (s.withEvents es).draws = s.draws := rfl

/-! ### `answer` -/
@[simp] theorem answer_params : (s.answer agent d).params = s.params := rfl
@[simp] theorem answer_units : (s.answer agent d).units = s.units := rfl
@[simp] theorem answer_mem : (s.answer agent d).mem = s.mem := rfl
@[simp] theorem answer_fault : (s.answer agent d).fault = s.fault := rfl
@[simp] theorem answer_turn : (s.answer agent d).turn = s.turn := rfl
@[simp] theorem answer_events : (s.answer agent d).events = s.events := rfl
@[simp] theorem answer_reply : (s.answer agent d).reply = some ⟨agent, d⟩ := rfl
@[simp] theorem answer_draws : (s.answer agent d).draws = s.draws := rfl

/-! ### `addDraws` -/
@[simp] theorem addDraws_params : (s.addDraws n).params = s.params := rfl
@[simp] theorem addDraws_units : (s.addDraws n).units = s.units := rfl
@[simp] theorem addDraws_mem : (s.addDraws n).mem = s.mem := rfl
@[simp] theorem addDraws_fault : (s.addDraws n).fault = s.fault := rfl
@[simp] theorem addDraws_turn : (s.addDraws n).turn = s.turn := rfl
@[simp] theorem addDraws_events : (s.addDraws n).events = s.events := rfl
@[simp] theorem addDraws_reply : (s.addDraws n).reply = s.reply := rfl
@[simp] theorem addDraws_draws : (s.addDraws n).draws = s.draws + n := rfl

/-! ### `raise`: the fault record and nothing else (60_exceptions.md R142) -/

/-- What `raise` is, as one record update. -/
theorem raise_eq : raise code info s = { s with fault := some (s.fault.getD ⟨code, info⟩) } := by
  cases s with
  | mk p us m f t es r d => cases f <;> rfl

@[simp] theorem raise_params : (raise code info s).params = s.params := by rw [raise_eq]
@[simp] theorem raise_units : (raise code info s).units = s.units := by rw [raise_eq]
@[simp] theorem raise_mem : (raise code info s).mem = s.mem := by rw [raise_eq]
@[simp] theorem raise_fault : (raise code info s).fault = some (s.fault.getD ⟨code, info⟩) := by rw [raise_eq]
@[simp] theorem raise_turn : (raise code info s).turn = s.turn := by rw [raise_eq]
@[simp] theorem raise_events : (raise code info s).events = s.events := by rw [raise_eq]
@[simp] theorem raise_reply : (raise code info s).reply = s.reply := by rw [raise_eq]
@[simp] theorem raise_draws : (raise code info s).draws = s.draws := by rw [raise_eq]

@[simp] theorem raiseRecord_eq : raiseRecord r s = raise r.code r.info s := rfl

/-! ### The changes of a unit -/
@[simp] theorem issued_cmd : (x.issued w l).cmd = .value w := rfl
@[simp] theorem issued_src : (x.issued w l).src = x.src := rfl
@[simp] theorem issued_dst : (x.issued w l).dst = x.dst := rfl
@[simp] theorem issued_pitch : (x.issued w l).pitch = x.pitch := rfl
@[simp] theorem issued_result : (x.issued w l).result = x.result := rfl
@[simp] theorem issued_busy : (x.issued w l).busy = true := rfl
@[simp] theorem issued_done : (x.issued w l).done = false := rfl
@[simp] theorem issued_inFlight : (x.issued w l).inFlight = some l := rfl

@[simp] theorem completed_cmd : x.completed.cmd = x.cmd := rfl
@[simp] theorem completed_src : x.completed.src = x.src := rfl
@[simp] theorem completed_dst : x.completed.dst = x.dst := rfl
@[simp] theorem completed_pitch : x.completed.pitch = x.pitch := rfl
@[simp] theorem completed_result : x.completed.result = x.result := rfl
@[simp] theorem completed_busy : x.completed.busy = false := rfl
@[simp] theorem completed_done : x.completed.done = true := rfl
@[simp] theorem completed_inFlight : x.completed.inFlight = none := rfl

@[simp] theorem withResult_cmd : (x.withResult w).cmd = x.cmd := rfl
@[simp] theorem withResult_src : (x.withResult w).src = x.src := rfl
@[simp] theorem withResult_dst : (x.withResult w).dst = x.dst := rfl
@[simp] theorem withResult_pitch : (x.withResult w).pitch = x.pitch := rfl
@[simp] theorem withResult_result : (x.withResult w).result = .value w := rfl
@[simp] theorem withResult_busy : (x.withResult w).busy = x.busy := rfl
@[simp] theorem withResult_done : (x.withResult w).done = x.done := rfl
@[simp] theorem withResult_inFlight : (x.withResult w).inFlight = x.inFlight := rfl

end Sys2Proof.Machine
end

