-- ==== Sys2Proof/Laws/Command.lean ====
section
/-! SUPPORT. What an issue, a completion step and `exec` can do, said once: a later proof cites these and does not unfold. -/

namespace Sys2Proof.Machine

/-! ### Every command is a `DBLK` or a `DTXL` of a variant -/

theorem instr_cases (i : Instr) :
    (∃ v iba h, i = blockCommand v iba h) ∨ ∃ v x y, i = texelCommand v x y := by
  cases i with
  | dblkBc1 iba h => exact .inl ⟨.a, iba, h, rfl⟩
  | dblkBc2 iba h => exact .inl ⟨.b, iba, h, rfl⟩
  | dblkBc3 iba h => exact .inl ⟨.c, iba, h, rfl⟩
  | dtxlBc1 x y => exact .inr ⟨.a, x, y, rfl⟩
  | dtxlBc2 x y => exact .inr ⟨.b, x, y, rfl⟩
  | dtxlBc3 x y => exact .inr ⟨.c, x, y, rfl⟩

theorem exec_blockCommand (v : Variant) (iba : Bool) (h : BitVec 3) (s : State) :
    exec (blockCommand v iba h) s = match s.turn with
      | .issue u => issueBlock u v iba h (encode (blockCommand v iba h)) s
      | .complete u =>
        completeWith u (blockCommand v iba h) (runBlock u fun blk x y => texel s.params v blk x y iba) s := by
  cases v <;> rfl

theorem exec_texelCommand (v : Variant) (x y : BitVec 2) (s : State) :
    exec (texelCommand v x y) s = match s.turn with
      | .issue u => issueTexel u v x y (encode (texelCommand v x y)) s
      | .complete u =>
        completeWith u (texelCommand v x y) (runTexel u fun blk xx yy => decodeTexelFn s.params v blk xx yy) s := by
  cases v <;> rfl

/-- Commands of different shapes differ, and a `DBLK` command names its variant and fields. -/
theorem blockCommand_inj {v v' : Variant} {iba iba' : Bool} {h h' : BitVec 3} :
    blockCommand v iba h = blockCommand v' iba' h' ↔ v = v' ∧ iba = iba' ∧ h = h' := by
  cases v <;> cases v' <;> simp [blockCommand]

theorem texelCommand_inj {v v' : Variant} {x x' y y' : BitVec 2} :
    texelCommand v x y = texelCommand v' x' y' ↔ v = v' ∧ x = x' ∧ y = y' := by
  cases v <;> cases v' <;> simp [texelCommand]

theorem blockCommand_ne_texelCommand (v v' : Variant) (iba : Bool) (h : BitVec 3) (x y : BitVec 2) :
    blockCommand v iba h ≠ texelCommand v' x y := by
  cases v <;> cases v' <;> simp [blockCommand, texelCommand]

/-- A record that names a `DBLK` has latched a `DBLK`. -/
theorem command_eq_block {l : InFlight} {v : Variant} {iba : Bool} {h : BitVec 3} :
    l.command = blockCommand v iba h ↔ l.variant = v ∧ ∃ dst pitch, l.op = .block iba h dst pitch := by
  unfold InFlight.command
  cases hop : l.op with
  | block iba' h' dst pitch =>
    simp only [blockCommand_inj, LatchedOp.block.injEq]
    constructor
    · rintro ⟨rfl, rfl, rfl⟩; exact ⟨rfl, dst, pitch, rfl, rfl, rfl, rfl⟩
    · rintro ⟨rfl, _, _, rfl, rfl, _⟩; exact ⟨rfl, rfl, rfl⟩
  | texel x y =>
    simp only [reduceCtorEq, exists_const, and_false, iff_false]
    exact (blockCommand_ne_texelCommand _ _ _ _ _ _).symm

/-- A record that names a `DTXL` has latched a `DTXL`. -/
theorem command_eq_texel {l : InFlight} {v : Variant} {x y : BitVec 2} :
    l.command = texelCommand v x y ↔ l.variant = v ∧ l.op = .texel x y := by
  unfold InFlight.command
  cases hop : l.op with
  | block iba h dst pitch =>
    simp only [reduceCtorEq, and_false, iff_false]
    exact blockCommand_ne_texelCommand _ _ _ _ _ _
  | texel x' y' => simp only [texelCommand_inj, LatchedOp.texel.injEq]

/-! ### The checks of an issue -/

theorem readOperand_ok {r : Reg} {c : RegCell} {w : Word} : readOperand r c = .ok w ↔ c = .value w := by
  cases c <;> simp [readOperand]

theorem readOperand_error {r : Reg} {c : RegCell} {e : FaultRecord} :
    readOperand r c = .error e ↔ c = .unwritten ∧ e = ⟨.unwritten, .register r⟩ := by
  cases c <;> simp [readOperand, eq_comm]

/-- No unit races: the third check of 20_memory.md R53. -/
theorem racingUnit_none {s : State} {self : Option Nat} {readSet : ByteRange} {writeSet : List ByteRange} :
    racingUnit s self readSet writeSet = none ↔
      ∀ v < s.units.length, self ≠ some v → unitRaces s readSet writeSet v = false := by
  simp [racingUnit, List.find?_eq_none]

/-- The racing unit reported is the first one. -/
theorem racingUnit_some {s : State} {self : Option Nat} {readSet : ByteRange} {writeSet : List ByteRange} {v : Nat} :
    racingUnit s self readSet writeSet = some v ↔
      v < s.units.length ∧ self ≠ some v ∧ unitRaces s readSet writeSet v = true ∧
      ∀ v' < v, self ≠ some v' → unitRaces s readSet writeSet v' = false := by
  simp only [racingUnit, List.find?_range_eq_some, List.mem_range, Bool.and_eq_true, bne_iff_ne, Bool.not_eq_true',
    Bool.and_eq_false_iff, bne_eq_false_iff_eq, ← or_iff_not_imp_left]
  tauto

/-- What a footprint that raises nothing is (20_memory.md R46, R47, R53). -/
theorem footprintFault_none {s : State} {self : Option Nat} {raceInfo : Nat → FaultInfo} {readSet : ByteRange}
    {writeSet : List ByteRange} {src dst : Nat} :
    footprintFault s self raceInfo readSet writeSet src dst = none ↔
      admitted s.params readSet = true ∧ (∀ r ∈ writeSet, admitted s.params r = true) ∧
      rangesMeet writeSet readSet = false ∧
      ∀ v < s.units.length, self ≠ some v → unitRaces s readSet writeSet v = false := by
  unfold footprintFault
  rw [← racingUnit_none]
  cases hf : (readSet :: writeSet).find? (fun r => !admitted s.params r) with
  | some r =>
    have hm := List.mem_of_find?_eq_some hf
    have hr := List.find?_some hf
    simp only [Bool.not_eq_true', reduceCtorEq, false_iff, not_and] at hr ⊢
    intro h1 h2
    rcases List.mem_cons.1 hm with rfl | hm
    · simp [h1] at hr
    · simp [h2 r hm] at hr
  | none =>
    simp only [List.find?_eq_none, List.mem_cons, Bool.not_eq_true', Bool.not_eq_false, forall_eq_or_imp] at hf
    simp only [hf.1, true_and]
    cases hm : rangesMeet writeSet readSet with
    | true => simp
    | false =>
      simp only [Bool.false_eq_true, ↓reduceIte, true_and]
      cases racingUnit s self readSet writeSet with
      | none => simpa using hf.2
      | some v => simp

/-- What the operands of a `DBLK` that raise nothing are (42_decode_ops.md R122). -/
theorem blockOperandFault_none {s : State} {u : Nat} {v : Variant} {h : BitVec 3} {src dst pitch : Word} :
    blockOperandFault s u v h src dst pitch = none ↔
      pitchBad h.toNat pitch.toNat = false ∧ src.toNat % blockLen v = 0 ∧ dst.toNat % 4 = 0 ∧
      footprintFault s (some u) (.units u) (readSetOf v src.toNat) (writeSetOf dst.toNat pitch.toNat h.toNat)
        src.toNat dst.toNat = none := by
  unfold blockOperandFault
  by_cases h1 : pitchBad h.toNat pitch.toNat <;> by_cases h2 : src.toNat % blockLen v = 0 <;>
    by_cases h3 : dst.toNat % 4 = 0 <;> simp [h1, h2, h3]

/-- What the operand of a `DTXL` that raises nothing is (42_decode_ops.md R122). -/
theorem texelOperandFault_none {s : State} {u : Nat} {v : Variant} {src : Word} :
    texelOperandFault s u v src = none ↔
      src.toNat % blockLen v = 0 ∧
      footprintFault s (some u) (.units u) (readSetOf v src.toNat) [] src.toNat 0 = none := by
  unfold texelOperandFault
  by_cases h : src.toNat % blockLen v = 0 <;> simp [h]

/-! ### What an issue does -/

/-- The issue of a `DBLK` raises one fault and does nothing else, or latches the command in an idle unit. -/
theorem issueBlock_next {u : Nat} {v : Variant} {iba : Bool} {h : BitVec 3} {w : Word} {s t : State}
    (hn : issueBlock u v iba h w s = .next t) :
    (∃ code info, t = raise code info s) ∨
    ∃ x src dst pitch, s.units[u]? = some x ∧ x.busy = false ∧ legalHeight h = true ∧ x.src = .value src ∧
      x.dst = .value dst ∧ x.pitch = .value pitch ∧ blockOperandFault s u v h src dst pitch = none ∧
      t = s.setUnit u (x.issued w (blockRecord v iba h src dst pitch)) := by
  unfold issueBlock at hn
  split at hn
  · simp at hn
  rename_i x hx
  split at hn
  · exact .inl ⟨_, _, (Host.Outcome.next.inj hn).symm⟩
  rename_i hb
  split at hn
  · exact .inl ⟨_, _, (Host.Outcome.next.inj hn).symm⟩
  rename_i hl
  split at hn
  · exact .inl ⟨_, _, (Host.Outcome.next.inj hn).symm⟩
  rename_i src hsrc
  split at hn
  · exact .inl ⟨_, _, (Host.Outcome.next.inj hn).symm⟩
  rename_i dst hdst
  split at hn
  · exact .inl ⟨_, _, (Host.Outcome.next.inj hn).symm⟩
  rename_i pitch hpitch
  split at hn
  · exact .inl ⟨_, _, (Host.Outcome.next.inj hn).symm⟩
  rename_i hf
  exact .inr ⟨x, src, dst, pitch, hx, by simpa using hb, by simpa using hl, readOperand_ok.1 hsrc,
    readOperand_ok.1 hdst, readOperand_ok.1 hpitch, hf, (Host.Outcome.next.inj hn).symm⟩

/-- The issue of a `DTXL` raises one fault and does nothing else, or latches the command in an idle unit. -/
theorem issueTexel_next {u : Nat} {v : Variant} {xx yy : BitVec 2} {w : Word} {s t : State}
    (hn : issueTexel u v xx yy w s = .next t) :
    (∃ code info, t = raise code info s) ∨
    ∃ x src, s.units[u]? = some x ∧ x.busy = false ∧ x.src = .value src ∧ texelOperandFault s u v src = none ∧
      t = s.setUnit u (x.issued w (texelRecord v xx yy src)) := by
  unfold issueTexel at hn
  split at hn
  · simp at hn
  rename_i x hx
  split at hn
  · exact .inl ⟨_, _, (Host.Outcome.next.inj hn).symm⟩
  rename_i hb
  split at hn
  · exact .inl ⟨_, _, (Host.Outcome.next.inj hn).symm⟩
  rename_i src hsrc
  split at hn
  · exact .inl ⟨_, _, (Host.Outcome.next.inj hn).symm⟩
  rename_i hf
  exact .inr ⟨x, src, hx, by simpa using hb, readOperand_ok.1 hsrc, hf, (Host.Outcome.next.inj hn).symm⟩

/-- A `DBLK` whose checks pass issues (42_decode_ops.md R122). -/
theorem issueBlock_ok {u : Nat} {v : Variant} {iba : Bool} {h : BitVec 3} {w : Word} {s : State} {x : UnitState}
    {src dst pitch : Word} (hx : s.units[u]? = some x) (hb : x.busy = false) (hl : legalHeight h = true)
    (hsrc : x.src = .value src) (hdst : x.dst = .value dst) (hpitch : x.pitch = .value pitch)
    (hf : blockOperandFault s u v h src dst pitch = none) :
    issueBlock u v iba h w s = .next (s.setUnit u (x.issued w (blockRecord v iba h src dst pitch))) := by
  simp [issueBlock, hx, hb, hl, hsrc, hdst, hpitch, readOperand, hf, latch]

/-- A `DTXL` whose checks pass issues (42_decode_ops.md R122). -/
theorem issueTexel_ok {u : Nat} {v : Variant} {xx yy : BitVec 2} {w : Word} {s : State} {x : UnitState} {src : Word}
    (hx : s.units[u]? = some x) (hb : x.busy = false) (hsrc : x.src = .value src)
    (hf : texelOperandFault s u v src = none) :
    issueTexel u v xx yy w s = .next (s.setUnit u (x.issued w (texelRecord v xx yy src))) := by
  simp [issueTexel, hx, hb, hsrc, readOperand, hf, latch]

/-! ### What a completion step does -/

/-- A completion step runs the command that L names, or changes nothing (42_decode_ops.md R129). -/
theorem completeWith_next {u : Nat} {i : Instr} {run : UnitState → InFlight → State → State} {s t : State}
    (hn : completeWith u i run s = .next t) :
    t = s ∨ ∃ x l, s.units[u]? = some x ∧ x.busy = true ∧ x.inFlight = some l ∧ l.command = i ∧ t = run x l s := by
  unfold completeWith at hn
  split at hn
  · simp at hn
  rename_i x hx
  split at hn
  · exact .inl (Host.Outcome.next.inj hn).symm
  rename_i l hl
  split at hn
  · rename_i hc
    exact .inr ⟨x, l, hx, hc.1, hl, hc.2, (Host.Outcome.next.inj hn).symm⟩
  · exact .inl (Host.Outcome.next.inj hn).symm

/-- An enabled completion step runs its command (42_decode_ops.md R129). -/
theorem completeWith_ok {u : Nat} {i : Instr} {run : UnitState → InFlight → State → State} {s : State} {x : UnitState}
    {l : InFlight} (hx : s.units[u]? = some x) (hb : x.busy = true) (hl : x.inFlight = some l) (hc : l.command = i) :
    completeWith u i run s = .next (run x l s) := by
  simp [completeWith, hx, hb, hl, hc]

/-- The completion of a record, once for every command: a `DBLK` writes memory, a `DTXL` writes RESULT. -/
def finish (u : Nat) (x : UnitState) (l : InFlight) (s : State) : State :=
  match l.op with
  | .block iba h dst pitch =>
    (s.withMem (writeTexels s.mem dst.toNat pitch.toNat
      (blockTexels (fun xx yy => texel s.params l.variant (blockOf s l) xx yy iba) h.toNat))).setUnit u x.completed
  | .texel xx yy =>
    s.setUnit u (x.withResult (decodeTexelFn s.params l.variant (blockOf s l) xx.toNat yy.toNat)).completed

/-- At its completion step every command in flight finishes: the one lemma about the six meanings' second step. -/
theorem exec_completes {u : Nat} {s : State} {x : UnitState} {l : InFlight} (ht : s.turn = .complete u)
    (hx : s.units[u]? = some x) (hb : x.busy = true) (hl : x.inFlight = some l) :
    exec l.command s = .next (finish u x l s) := by
  obtain ⟨v, iba, h, hc⟩ | ⟨v, xx, yy, hc⟩ := instr_cases l.command
  · obtain ⟨rfl, dst, pitch, hop⟩ := command_eq_block.1 hc
    rw [hc, exec_blockCommand, ht]
    simp only
    rw [completeWith_ok hx hb hl hc]
    simp [runBlock, finish, hop]
  · obtain ⟨rfl, hop⟩ := command_eq_texel.1 hc
    rw [hc, exec_texelCommand, ht]
    simp only
    rw [completeWith_ok hx hb hl hc]
    simp [runTexel, finish, hop]

/-- WHAT `exec` CAN DO: raise a fault, latch its command in an idle unit, finish a command in flight, or (a completion step
that is not enabled) nothing. -/
theorem exec_next {i : Instr} {s t : State} (hn : exec i s = .next t) :
    (∃ code info, t = raise code info s) ∨
    (∃ u x l, s.turn = .issue u ∧ s.units[u]? = some x ∧ x.busy = false ∧ l.command = i ∧ x.src = .value l.src ∧
      ((∃ v iba h dst pitch, legalHeight h = true ∧ x.dst = .value dst ∧ x.pitch = .value pitch ∧
          l = blockRecord v iba h l.src dst pitch ∧ blockOperandFault s u v h l.src dst pitch = none) ∨
        (∃ v xx yy, l = texelRecord v xx yy l.src ∧ texelOperandFault s u v l.src = none)) ∧
      t = s.setUnit u (x.issued (encode i) l)) ∨
    (∃ u x l, s.turn = .complete u ∧ s.units[u]? = some x ∧ x.busy = true ∧ x.inFlight = some l ∧ l.command = i ∧
      t = finish u x l s) ∨
    t = s := by
  cases ht : s.turn with
  | issue u =>
    obtain ⟨v, iba, h, rfl⟩ | ⟨v, xx, yy, rfl⟩ := instr_cases i
    · rw [exec_blockCommand, ht] at hn
      obtain hr | ⟨x, src, dst, pitch, hx, hb, hl, hsrc, hdst, hpitch, hf, rfl⟩ := issueBlock_next hn
      · exact .inl hr
      · exact .inr (.inl ⟨u, x, _, rfl, hx, hb, by cases v <;> rfl, hsrc,
          .inl ⟨v, iba, h, dst, pitch, hl, hdst, hpitch, rfl, hf⟩, rfl⟩)
    · rw [exec_texelCommand, ht] at hn
      obtain hr | ⟨x, src, hx, hb, hsrc, hf, rfl⟩ := issueTexel_next hn
      · exact .inl hr
      · exact .inr (.inl ⟨u, x, _, rfl, hx, hb, by cases v <;> rfl, hsrc, .inr ⟨v, xx, yy, rfl, hf⟩, rfl⟩)
  | complete u =>
    have hw : ∃ run, completeWith u i run s = .next t := by
      obtain ⟨v, iba, h, rfl⟩ | ⟨v, xx, yy, rfl⟩ := instr_cases i
      · rw [exec_blockCommand, ht] at hn; exact ⟨_, hn⟩
      · rw [exec_texelCommand, ht] at hn; exact ⟨_, hn⟩
    obtain ⟨run, hr⟩ := hw
    obtain rfl | ⟨x, l, hx, hb, hl, rfl, _⟩ := completeWith_next hr
    · exact .inr (.inr (.inr rfl))
    · rw [exec_completes ht hx hb hl] at hn
      exact .inr (.inr (.inl ⟨u, x, l, rfl, hx, hb, hl, rfl, (Host.Outcome.next.inj hn).symm⟩))

/-- `exec` on a unit that exists always answers a next state. -/
theorem exec_isNext {i : Instr} {s : State} {u : Nat} {x : UnitState} (hx : s.units[u]? = some x)
    (ht : s.turn = .issue u ∨ s.turn = .complete u) : ∃ t, exec i s = .next t := by
  obtain ⟨v, iba, h, rfl⟩ | ⟨v, xx, yy, rfl⟩ := instr_cases i <;> rcases ht with ht | ht
  · rw [exec_blockCommand, ht]
    simp only [issueBlock, hx]
    split <;> [skip; split <;> [skip; split <;> [skip; split <;> [skip; split <;> [skip; split]]]]] <;>
      exact ⟨_, rfl⟩
  · rw [exec_blockCommand, ht]
    simp only [completeWith, hx]
    split <;> [skip; split] <;> exact ⟨_, rfl⟩
  · rw [exec_texelCommand, ht]
    simp only [issueTexel, hx]
    split <;> [skip; split <;> [skip; split]] <;> exact ⟨_, rfl⟩
  · rw [exec_texelCommand, ht]
    simp only [completeWith, hx]
    split <;> [skip; split] <;> exact ⟨_, rfl⟩

/-! ### What finishing a command changes -/

@[simp] theorem finish_params (u : Nat) (x : UnitState) (l : InFlight) (s : State) :
    (finish u x l s).params = s.params := by unfold finish; split <;> rfl
@[simp] theorem finish_fault (u : Nat) (x : UnitState) (l : InFlight) (s : State) :
    (finish u x l s).fault = s.fault := by unfold finish; split <;> rfl
@[simp] theorem finish_turn (u : Nat) (x : UnitState) (l : InFlight) (s : State) :
    (finish u x l s).turn = s.turn := by unfold finish; split <;> rfl
@[simp] theorem finish_events (u : Nat) (x : UnitState) (l : InFlight) (s : State) :
    (finish u x l s).events = s.events := by unfold finish; split <;> rfl
@[simp] theorem finish_reply (u : Nat) (x : UnitState) (l : InFlight) (s : State) :
    (finish u x l s).reply = s.reply := by unfold finish; split <;> rfl
@[simp] theorem finish_draws (u : Nat) (x : UnitState) (l : InFlight) (s : State) :
    (finish u x l s).draws = s.draws := by unfold finish; split <;> rfl

/-- Finishing changes the one unit: it is idle and DONE, holds no L, and keeps its operand registers and CMD. -/
theorem finish_units (u : Nat) (x : UnitState) (l : InFlight) (s : State) :
    ∃ y, (finish u x l s).units = s.units.set u y ∧ y.busy = false ∧ y.done = true ∧ y.inFlight = none ∧
      y.cmd = x.cmd ∧ y.src = x.src ∧ y.dst = x.dst ∧ y.pitch = x.pitch := by
  unfold finish
  split
  · exact ⟨x.completed, rfl, rfl, rfl, rfl, rfl, rfl, rfl, rfl⟩
  · exact ⟨(x.withResult _).completed, rfl, rfl, rfl, rfl, rfl, rfl, rfl, rfl⟩

end Sys2Proof.Machine
end

