-- ==== Sys2Proof/Laws/Decode.lean ====
section
/-! SUPPORT. The fields of a command word determine it, and the fields of an encoded command are its own. -/

namespace Sys2Proof

theorem nat_fields_ext {a b : Nat} (ha : a < 2 ^ 32) (hb : b < 2 ^ 32) (h0 : a % 4 = b % 4) (h2 : a / 4 % 2 = b / 4 % 2)
    (h3 : a / 8 % 2 = b / 8 % 2) (h4 : a / 16 % 8 = b / 16 % 8) (h7 : a / 128 % 2 = b / 128 % 2)
    (h8 : a / 256 % 4 = b / 256 % 4) (h10 : a / 1024 % 4 = b / 1024 % 4)
    (h12 : a / 4096 % 1048576 = b / 4096 % 1048576) : a = b := by omega

/-- Two words with the same fields are the same word (30_encoding.md R71: the fields cover all 32 bits). -/
theorem word_ext {w w' : Word} (hvar : cmdVar w = cmdVar w') (hop : cmdOp w = cmdOp w') (hiba : cmdIba w = cmdIba w')
    (hheight : cmdHeight w = cmdHeight w') (hbit7 : cmdBit7 w = cmdBit7 w') (hx : cmdX w = cmdX w')
    (hy : cmdY w = cmdY w') (hhigh : cmdHigh w = cmdHigh w') : w = w' := by
  have e : ∀ {n : Nat} {a b : BitVec n}, a = b → a.toNat = b.toNat := fun h => congrArg BitVec.toNat h
  have d : ∀ (v : Word) (i n : Nat), (v.extractLsb' i n).toNat = v.toNat >>> i % 2 ^ n :=
    fun v i n => BitVec.extractLsb'_toNat ..
  refine BitVec.eq_of_toNat_eq (nat_fields_ext w.isLt w'.isLt ?_ ?_ ?_ ?_ ?_ ?_ ?_ ?_)
  · simpa only [cmdVar, d, Nat.shiftRight_eq_div_pow, Nat.reducePow, Nat.div_one] using e hvar
  · simpa only [cmdOp, d, Nat.shiftRight_eq_div_pow, Nat.reducePow] using e hop
  · simpa only [cmdIba, d, Nat.shiftRight_eq_div_pow, Nat.reducePow] using e hiba
  · simpa only [cmdHeight, d, Nat.shiftRight_eq_div_pow, Nat.reducePow] using e hheight
  · simpa only [cmdBit7, d, Nat.shiftRight_eq_div_pow, Nat.reducePow] using e hbit7
  · simpa only [cmdX, d, Nat.shiftRight_eq_div_pow, Nat.reducePow] using e hx
  · simpa only [cmdY, d, Nat.shiftRight_eq_div_pow, Nat.reducePow] using e hy
  · simpa only [cmdHigh, d, Nat.shiftRight_eq_div_pow, Nat.reducePow] using e hhigh

/-- The fields of a `DBLK` word. -/
theorem encodeBlock_fields (var : BitVec 2) (iba : Bool) (h : BitVec 3) :
    cmdVar (encodeBlock var iba h) = var ∧ cmdOp (encodeBlock var iba h) = 0 ∧
    cmdIba (encodeBlock var iba h) = BitVec.ofBool iba ∧ cmdHeight (encodeBlock var iba h) = h ∧
    cmdBit7 (encodeBlock var iba h) = 0 ∧ cmdX (encodeBlock var iba h) = 0 ∧ cmdY (encodeBlock var iba h) = 0 ∧
    cmdHigh (encodeBlock var iba h) = 0 := by
  revert var iba h; decide

/-- The fields of a `DTXL` word. -/
theorem encodeTexel_fields (var x y : BitVec 2) :
    cmdVar (encodeTexel var x y) = var ∧ cmdOp (encodeTexel var x y) = 1 ∧ cmdIba (encodeTexel var x y) = 0 ∧
    cmdHeight (encodeTexel var x y) = 0 ∧ cmdBit7 (encodeTexel var x y) = 0 ∧ cmdX (encodeTexel var x y) = x ∧
    cmdY (encodeTexel var x y) = y ∧ cmdHigh (encodeTexel var x y) = 0 := by
  revert var x y; decide

/-- A word whose reserved bits are clear and whose OP is 0 is the `DBLK` word of its fields. -/
theorem eq_encodeBlock {w : Word} (hop : cmdOp w = 0) (hr : reservedBitsClear w = true) :
    w = encodeBlock (cmdVar w) (cmdIba w == 1) (cmdHeight w) := by
  have hb : ∀ b : BitVec 1, BitVec.ofBool (b == 1) = b := by decide
  obtain ⟨e0, e2, e3, e4, e7, e8, e10, e12⟩ := encodeBlock_fields (cmdVar w) (cmdIba w == 1) (cmdHeight w)
  simp only [reservedBitsClear, Bool.and_eq_true, beq_iff_eq] at hr
  obtain ⟨⟨h7, h12⟩, hxy⟩ := hr
  rw [if_pos hop, Bool.and_eq_true, beq_iff_eq, beq_iff_eq] at hxy
  exact word_ext e0.symm (hop.trans e2.symm) ((hb _).symm.trans e3.symm) e4.symm (h7.trans e7.symm)
    (hxy.1.trans e8.symm) (hxy.2.trans e10.symm) (h12.trans e12.symm)

/-- A word whose reserved bits are clear and whose OP is 1 is the `DTXL` word of its fields. -/
theorem eq_encodeTexel {w : Word} (hop : cmdOp w = 1) (hr : reservedBitsClear w = true) :
    w = encodeTexel (cmdVar w) (cmdX w) (cmdY w) := by
  obtain ⟨e0, e2, e3, e4, e7, e8, e10, e12⟩ := encodeTexel_fields (cmdVar w) (cmdX w) (cmdY w)
  simp only [reservedBitsClear, Bool.and_eq_true, beq_iff_eq] at hr
  obtain ⟨⟨h7, h12⟩, hih⟩ := hr
  rw [if_neg (by rw [hop]; decide), Bool.and_eq_true, beq_iff_eq, beq_iff_eq] at hih
  exact word_ext e0.symm (hop.trans e2.symm) (hih.1.trans e3.symm) (hih.2.trans e4.symm) (h7.trans e7.symm)
    e8.symm e10.symm (h12.trans e12.symm)

end Sys2Proof
end

