-- ==== Sys2Proof/Laws/Step.lean ====
section
/-! SUPPORT. What one step can do, said once: `step_move` is the inversion lemma that invariants and whole-machine claims
are derived from. -/

namespace Sys2Proof.Machine

/-- `q` is `s` but for whose turn it is and for the events that are left. -/
structure SameMachine (s q : State) : Prop where
  params : q.params = s.params
  units  : q.units = s.units
  mem    : q.mem = s.mem
  fault  : q.fault = s.fault
  reply  : q.reply = s.reply
  draws  : q.draws = s.draws
  events : q.events = s.events ∨ q.events = s.events.tail

/-- The moves of the machine. In each, `q` is the state before the move, with the event used up and the turn set. -/
inductive Move (s : State) : State → Prop where
  /-- Nothing happens. -/
  | stay {q : State} (h : SameMachine s q) : Move s q
  /-- A model fault is recorded (60_exceptions.md R142). -/
  | fault {q : State} (h : SameMachine s q) (he : q.events = s.events.tail) (code : FaultCode) (info : FaultInfo) :
      Move s (raise code info q)
  /-- A command issues (42_decode_ops.md R122). -/
  | issue {q : State} (h : SameMachine s q) {u : Nat} {x : UnitState} {l : InFlight} (hx : s.units[u]? = some x)
      (hb : x.busy = false) (hsrc : x.src = .value l.src)
      (hl : (∃ v iba h dst pitch, legalHeight h = true ∧ x.dst = .value dst ∧ x.pitch = .value pitch ∧
          l = blockRecord v iba h l.src dst pitch ∧ blockOperandFault q u v h l.src dst pitch = none) ∨
        (∃ v xx yy, l = texelRecord v xx yy l.src ∧ texelOperandFault q u v l.src = none)) :
      Move s (q.setUnit u (x.issued (encode l.command) l))
  /-- A command in flight finishes (42_decode_ops.md R129). -/
  | finish {q : State} (h : SameMachine s q) {u : Nat} {x : UnitState} {l : InFlight} (hx : s.units[u]? = some x)
      (hb : x.busy = true) (hl : x.inFlight = some l) : Move s (finish u x l q)
  /-- A host writes SRC, DST or PITCH of an idle unit (10_state.md R24 to R26). -/
  | operand {q : State} (h : SameMachine s q) {u : Nat} {x x' : UnitState} (hx : s.units[u]? = some x)
      (hb : x.busy = false) (w : Word)
      (hw : x' = { x with src := .value w } ∨ x' = { x with dst := .value w } ∨ x' = { x with pitch := .value w }) :
      Move s (q.setUnit u x')
  /-- A host writes memory, and races with no unit (20_memory.md R53). -/
  | memWrite {q : State} (h : SameMachine s q) (addr : Nat) (bytes : List Byte)
      (hr : s.units.any (unitBlocksWrite ⟨addr, bytes.length⟩) = false)
      (hs : ∀ i < bytes.length, addr + i < 2 ^ s.params.addrBits) :
      Move s (q.withMem (writeBytes s.mem addr bytes))
  /-- A host is answered. -/
  | answer {q : State} (h : SameMachine s q) (agent : Nat) (d : HostData) : Move s (q.answer agent d)
  /-- A unit is reset (70_reset_and_hazards.md R160, R161). -/
  | reset {q : State} (h : SameMachine s q) {u : Nat} {x : UnitState} (hx : s.units[u]? = some x) :
      Move s (((q.withMem (drawBytes s.mem s.draws (openBytes x))).addDraws (openBytes x).length).setUnit u
        UnitState.reset)
  /-- A `DecodeBlock` call (42_decode_ops.md R132). -/
  | call {q : State} (h : SameMachine s q) (agent : Nat) (v : Variant) {src dst pitch height : Int} (iba : Bool)
      (hf : callBlockFault q agent v src dst pitch height = none) :
      Move s (q.withMem (writeTexels s.mem dst.toNat pitch.toNat
        (decodeBlockFn s.params v (readBytes s.mem src.toNat (blockLen v)) iba height.toNat)))

/-! ### The state a move starts from -/

theorem sameMachine_refl (s : State) : SameMachine s s := ⟨rfl, rfl, rfl, rfl, rfl, rfl, .inl rfl⟩

theorem sameMachine_tail (s : State) : SameMachine s (s.withEvents s.events.tail) :=
  ⟨rfl, rfl, rfl, rfl, rfl, rfl, .inr rfl⟩

theorem sameMachine_turn {s q : State} (h : SameMachine s q) (t : Turn) : SameMachine s (q.withTurn t) :=
  ⟨h.params, h.units, h.mem, h.fault, h.reply, h.draws, h.events⟩

/-! ### Each operation of an event is a move -/

/-- The completion step of a unit. -/
theorem completeUnit_move {s q t : State} {u : Nat} (h : SameMachine s q) (hn : completeUnit u q = .next t) :
    Move s t := by
  unfold completeUnit at hn
  split at hn
  · simp at hn
  rename_i x hx
  split at hn
  · rename_i l hb hl
    rw [exec_completes (s := q.withTurn (.complete u)) rfl (by simpa using hx) hb hl] at hn
    rw [← Host.Outcome.next.inj hn]
    exact .finish (sameMachine_turn h _) (h.units ▸ hx) hb hl
  · rw [← Host.Outcome.next.inj hn]
    exact .stay h

/-- The issue that a CMD write makes. -/
theorem execIssue_move {s q t : State} {u : Nat} {i : Instr} (h : SameMachine s q) (he : q.events = s.events.tail)
    (hn : exec i (q.withTurn (.issue u)) = .next t) : Move s t := by
  have h' := sameMachine_turn h (.issue u)
  obtain ⟨code, info, rfl⟩ | ⟨u', x, l, ht, hx, hb, rfl, hsrc, hl, rfl⟩ | ⟨u', x, l, ht, _⟩ | rfl := exec_next hn
  · exact .fault h' he code info
  · exact .issue h' (h'.units ▸ hx) hb hsrc (by obtain rfl : u = u' := by simpa using ht
                                                exact hl)
  · simp at ht
  · exact .stay h'

theorem readCell_move {s q : State} (h : SameMachine s q) (he : q.events = s.events.tail) (agent : Nat) (r : Reg)
    (c : RegCell) : Move s (readCell agent r c q) := by
  unfold readCell
  split
  · exact .answer h _ _
  · exact .fault h he _ _

theorem readReg_move {s q : State} (h : SameMachine s q) (he : q.events = s.events.tail) (agent u : Nat) (r : Reg)
    (x : UnitState) : Move s (readReg agent u r x q) := by
  cases r with
  | result =>
    simp only [readReg]
    split
    · exact .fault h he _ _
    · exact readCell_move h he _ _ _
  | status => exact .answer h _ _
  | cmd => exact readCell_move h he _ _ _
  | src => exact readCell_move h he _ _ _
  | dst => exact readCell_move h he _ _ _
  | pitch => exact readCell_move h he _ _ _

theorem writeReg_move {s q t : State} {u addr : Nat} {r : Reg} {bytes : List Byte} {x : UnitState}
    (h : SameMachine s q) (he : q.events = s.events.tail) (hx : s.units[u]? = some x)
    (hn : writeReg u addr r bytes x q = .next t) : Move s t := by
  have operandCase : ∀ (r : Reg) (x' : UnitState) (w : Word),
      (x' = { x with src := .value w } ∨ x' = { x with dst := .value w } ∨ x' = { x with pitch := .value w }) →
      Move s (writeOperand u r x x' q) := by
    intro r x' w hw
    unfold writeOperand
    split
    · exact .fault h he _ _
    · exact .operand h hx (by simp_all) w hw
  cases r with
  | cmd =>
    simp only [writeReg, writeCmd] at hn
    split at hn
    · exact execIssue_move h he hn
    · split at hn <;> rw [← Host.Outcome.next.inj hn] <;> exact .fault h he _ _
  | src => rw [← Host.Outcome.next.inj hn]; exact operandCase _ _ _ (.inl rfl)
  | dst => rw [← Host.Outcome.next.inj hn]; exact operandCase _ _ _ (.inr (.inl rfl))
  | pitch => rw [← Host.Outcome.next.inj hn]; exact operandCase _ _ _ (.inr (.inr rfl))
  | result => rw [← Host.Outcome.next.inj hn]; exact .fault h he _ _
  | status => rw [← Host.Outcome.next.inj hn]; exact .fault h he _ _

/-- No address of a range fails a test. -/
theorem firstFailing_none {test : Nat → Bool} {q : ByteRange} :
    firstFailing test q = none ↔ ∀ i < q.len, test (q.base + i) = true := by
  simp [firstFailing, List.find?_eq_none]

/-- An access to usable memory is inside the address space and inside `MemAdmits`. -/
theorem onUsableMemory_next {q : ByteRange} {s s' t : State} (hn : onUsableMemory q s s' = .next t) :
    t = s' ∧ (∀ i < q.len, q.base + i < 2 ^ s.params.addrBits) ∧
      ∀ i < q.len, usableByte s.params (q.base + i) = true := by
  unfold onUsableMemory at hn
  split at hn
  · simp at hn
  rename_i h1
  split at hn
  · simp at hn
  rename_i h2
  refine ⟨(Host.Outcome.next.inj hn).symm, fun i hi => ?_, fun i hi => firstFailing_none.1 h2 i hi⟩
  simpa using firstFailing_none.1 h1 i hi

theorem hostRead_move {s q t : State} {agent addr width : Nat} (h : SameMachine s q) (he : q.events = s.events.tail)
    (hn : hostRead agent addr width q = .next t) : Move s t := by
  unfold hostRead at hn
  split at hn
  · unfold hostMemRead at hn
    split at hn
    · rw [← Host.Outcome.next.inj hn]; exact .fault h he _ _
    · obtain ⟨rfl, _⟩ := onUsableMemory_next hn
      exact .answer h _ _
  · split at hn
    · rw [← Host.Outcome.next.inj hn]; exact .fault h he _ _
    · split at hn
      · simp at hn
      · rw [← Host.Outcome.next.inj hn]; exact readReg_move h he _ _ _ _

theorem hostWrite_move {s q t : State} {agent addr : Nat} {bytes : List Byte} (h : SameMachine s q)
    (he : q.events = s.events.tail) (hn : hostWrite agent addr bytes q = .next t) : Move s t := by
  unfold hostWrite at hn
  split at hn
  · unfold hostMemWrite at hn
    split at hn
    · rw [← Host.Outcome.next.inj hn]; exact .fault h he _ _
    · rename_i hr
      obtain ⟨rfl, hs, _⟩ := onUsableMemory_next hn
      rw [h.mem]
      exact .memWrite h addr bytes (by rw [h.units] at hr; simpa using hr) (by rw [h.params] at hs; exact hs)
  · split at hn
    · rw [← Host.Outcome.next.inj hn]; exact .fault h he _ _
    · split at hn
      · simp at hn
      · exact writeReg_move h he (h.units ▸ ‹_›) hn

theorem callBlock_move {s q : State} (h : SameMachine s q) (he : q.events = s.events.tail) (agent : Nat)
    (variant src dst pitch height : Int) (iba : Bool) :
    Move s (callBlock agent variant src dst pitch height iba q) := by
  unfold callBlock
  split
  · exact .fault h he _ _
  · split
    · exact .fault h he _ _
    · rw [h.mem, h.params]
      exact .call h agent _ iba ‹_›

theorem callTexel_move {s q : State} (h : SameMachine s q) (he : q.events = s.events.tail) (agent : Nat)
    (variant src x y : Int) : Move s (callTexel agent variant src x y q) := by
  unfold callTexel
  split
  · exact .fault h he _ _
  · split
    · exact .fault h he _ _
    · exact .answer h _ _

theorem runEvent_move {s t : State} {e : Event} (hn : runEvent e s = .next t) : Move s t := by
  have h := sameMachine_tail s
  cases e with
  | hostRead agent addr width => exact hostRead_move h rfl hn
  | hostWrite agent addr bytes => exact hostWrite_move h rfl hn
  | wait agent u =>
    simp only [runEvent, waitUnit] at hn
    split at hn
    · simp at hn
    · split at hn
      · exact completeUnit_move (sameMachine_refl s) hn
      · rw [← Host.Outcome.next.inj hn]; exact .answer h _ _
  | complete u => exact completeUnit_move h hn
  | reset u =>
    simp only [runEvent, resetUnit] at hn
    split at hn
    · simp at hn
    · rw [← Host.Outcome.next.inj hn]; exact .reset h ‹_›
  | callBlock agent variant src dst pitch height iba =>
    rw [← Host.Outcome.next.inj hn]; exact callBlock_move h rfl _ _ _ _ _ _ _
  | callTexel agent variant src x y =>
    rw [← Host.Outcome.next.inj hn]; exact callTexel_move h rfl _ _ _ _ _

/-- WHAT ONE STEP CAN DO. -/
theorem step_move {s t : State} (hn : step s = .next t) : s.fault = none ∧ Move s t := by
  unfold step at hn
  split at hn
  · simp at hn
  rename_i hf
  refine ⟨hf, ?_⟩
  unfold nextMove at hn
  split at hn
  · unfold idleMove at hn
    split at hn
    · rw [← Host.Outcome.next.inj hn]; exact .stay (sameMachine_refl s)
    · exact completeUnit_move (sameMachine_refl s) hn
  · exact runEvent_move hn

/-- A step from a state whose fault record is `none` is the next move. -/
theorem step_eq {s : State} (h : s.fault = none) : step s = nextMove s := by simp [step, h]

/-- A step whose first event is `e` runs it. -/
theorem step_event {s : State} {e : Event} {es : List Event} (h : s.fault = none) (he : s.events = e :: es) :
    step s = runEvent e s := by simp [step, h, nextMove, he]

/-- No move changes the parameters (10_state.md R32). -/
theorem move_params {s t : State} (h : Move s t) : t.params = s.params := by
  cases h with
  | stay h => exact h.params
  | fault h => simpa using h.params
  | issue h => simpa using h.params
  | finish h => simpa using h.params
  | operand h => simpa using h.params
  | memWrite h => simpa using h.params
  | answer h => simpa using h.params
  | reset h => simpa using h.params
  | call h => simpa using h.params

end Sys2Proof.Machine
end

