-- ==== Sys2Proof/Laws/Events.lean ====
section
/-! SUPPORT. From the next event to the operation that the step runs. -/

namespace Sys2Proof.Machine

@[simp] theorem afterEvent_units (s : State) : s.afterEvent.units = s.units := rfl
@[simp] theorem afterEvent_params (s : State) : s.afterEvent.params = s.params := rfl
@[simp] theorem afterEvent_mem (s : State) : s.afterEvent.mem = s.mem := rfl
@[simp] theorem afterEvent_fault (s : State) : s.afterEvent.fault = s.fault := rfl
@[simp] theorem afterEvent_events (s : State) : s.afterEvent.events = s.events.tail := rfl

/-- A step whose next event is `e` runs it. -/
theorem step_of_next {s : State} {e : Event} (h : s.next e = true) : s.fault = none ∧ step s = runEvent e s := by
  simp only [State.next, Bool.and_eq_true, Option.isNone_iff_eq_none, beq_iff_eq] at h
  obtain ⟨es, he⟩ := List.head?_eq_some_iff.1 h.2
  exact ⟨h.1, step_event h.1 he⟩

/-- A step whose next event writes a register makes that register write. -/
theorem step_of_nextWrites {s : State} {u agent addr : Nat} {r : Reg} {bytes : List Byte} {x : UnitState}
    (h : s.nextWrites u r agent addr bytes = true) (hx : s.units[u]? = some x) :
    step s = writeReg u addr r bytes x s.afterEvent := by
  simp only [State.nextWrites, Bool.and_eq_true, beq_iff_eq] at h
  rw [(step_of_next h.1.1).2]
  simp [runEvent, hostWrite, h.1.2, h.2, hx, State.afterEvent]

/-- A step whose next event reads a register makes that register read. -/
theorem step_of_nextReads {s : State} {u agent addr : Nat} {r : Reg} {x : UnitState}
    (h : s.nextReads u r agent addr = true) (hx : s.units[u]? = some x) :
    step s = .next (readReg agent u r x s.afterEvent) := by
  simp only [State.nextReads, Bool.and_eq_true, beq_iff_eq] at h
  rw [(step_of_next h.1.1).2]
  simp [runEvent, hostRead, h.1.2, h.2, hx, State.afterEvent]

/-- An access names a register only if it is four bytes wide (10_state.md R22). -/
theorem width_of_regNamed {p : Params} {u addr width : Nat} {r : Reg} (h : regNamed p u addr width = some r) :
    width = 4 := by
  unfold regNamed at h
  split at h
  · simp at h
  · split at h
    · rename_i hw
      exact hw.1
    · simp at h

/-- An access of usable memory that passed its race check runs. -/
theorem onUsableMemory_ok {q : ByteRange} {s s' : State}
    (h : ∀ i < q.len, q.base + i < 2 ^ s.params.addrBits ∧ usableByte s.params (q.base + i) = true) :
    onUsableMemory q s s' = .next s' := by
  unfold onUsableMemory
  rw [firstFailing_none.2 fun i hi => by simpa using (h i hi).1]
  simp only
  rw [firstFailing_none.2 fun i hi => (h i hi).2]

end Sys2Proof.Machine
end

