-- ==== Sys2Proof/Laws/PerInstr.lean ====
section
/-! SUPPORT. Statements made per command. `TableRow`: the word that `encode` gives a command lies on the command's own row
of opcode_table.json (30_encoding.md R72), whatever its operands. -/

namespace Sys2Proof.Laws

/-- The command's word meets the match and the mask of its row (30_encoding.md R72). -/
def TableRow.Statement (i : Instr) : Prop := encode i &&& i.rowMask = i.rowMatch

theorem TableRow.dblkBc1 (iba : Bool) (height : BitVec 3) : TableRow.Statement (.dblkBc1 iba height) := by
  revert iba height; unfold TableRow.Statement; decide

theorem TableRow.dblkBc2 (iba : Bool) (height : BitVec 3) : TableRow.Statement (.dblkBc2 iba height) := by
  revert iba height; unfold TableRow.Statement; decide

theorem TableRow.dblkBc3 (iba : Bool) (height : BitVec 3) : TableRow.Statement (.dblkBc3 iba height) := by
  revert iba height; unfold TableRow.Statement; decide

theorem TableRow.dtxlBc1 (x y : BitVec 2) : TableRow.Statement (.dtxlBc1 x y) := by
  revert x y; unfold TableRow.Statement; decide

theorem TableRow.dtxlBc2 (x y : BitVec 2) : TableRow.Statement (.dtxlBc2 x y) := by
  revert x y; unfold TableRow.Statement; decide

theorem TableRow.dtxlBc3 (x y : BitVec 2) : TableRow.Statement (.dtxlBc3 x y) := by
  revert x y; unfold TableRow.Statement; decide

end Sys2Proof.Laws
end

