-- ==== Sys2Proof/Laws/Platform.lean ====
section
/-! SUPPORT. The platform: `memAdmits` can be any predicate on the ranges of the address space (00_scope.md R8), what it is
without exceptions, and which bytes are usable. -/

namespace Sys2Proof.Machine

/-- The ranges inside an address space of `size` bytes that a predicate picks, as a list. -/
def rangesWhere (size : Nat) (f : Nat → Nat → Bool) : List Region :=
  ((List.range (size + 1)).flatMap fun b => (List.range (size + 1)).map fun n => ⟨b, n⟩).filter fun g => f g.base g.size

theorem mem_rangesWhere {size : Nat} {f : Nat → Nat → Bool} {b n : Nat} (h : b + n ≤ size) :
    ⟨b, n⟩ ∈ rangesWhere size f ↔ f b n = true := by
  simp only [rangesWhere, List.mem_filter, List.mem_flatMap, List.mem_map, List.mem_range, Region.mk.injEq,
    and_iff_right_iff_imp]
  exact fun _ => ⟨b, by omega, n, by omega, rfl, rfl⟩

/-- MemAdmits IS OPEN (00_scope.md R8): for every predicate on byte ranges there is a platform, with the other parameters as
given, whose `memAdmits` is that predicate on every range of the address space. -/
theorem memAdmits_any (p : Params) (f : Nat → Nat → Bool) :
    ∃ es : List Region, ∀ r : ByteRange, r.base + r.len ≤ 2 ^ p.addrBits →
      memAdmits { p with regions := [], exceptions := es } r = f r.base r.len := by
  refine ⟨rangesWhere (2 ^ p.addrBits) f, fun r hr => ?_⟩
  have h := mem_rangesWhere (f := f) hr
  rw [← List.contains_iff_mem] at h
  simp only [memAdmits, inRegion, List.any_nil, Bool.false_bne]
  exact Bool.eq_iff_iff.2 h

/-- Without exceptions a range is admitted exactly when one region holds all of it. -/
theorem memAdmits_regions {p : Params} (h : p.exceptions = []) (r : ByteRange) : memAdmits p r = inRegion p r := by
  simp [memAdmits, h]

/-- The bytes of an admitted range that is one byte long, or as long as a command's ranges, are the usable bytes. -/
theorem usableByte_iff {p : Params} {a : Nat} :
    usableByte p a = true ↔
      ∃ r : ByteRange, (r.len = 1 ∨ r.len = 8 ∨ r.len = 16) ∧ r.has a = true ∧ admitted p r = true := by
  simp only [usableByte, List.any_eq_true, List.mem_range, List.mem_cons, List.not_mem_nil, or_false, Bool.and_eq_true,
    decide_eq_true_eq, ByteRange.has]
  constructor
  · rintro ⟨n, hn, k, hk, hka, h⟩
    exact ⟨⟨a - k, n⟩, hn, ⟨by simp only; omega, by simp only; omega⟩, h⟩
  · rintro ⟨⟨b, n⟩, hn, ⟨h1, h2⟩, h⟩
    simp only at hn h1 h2
    exact ⟨n, hn, a - b, by omega, by omega, by rwa [Nat.sub_sub_self h1]⟩

end Sys2Proof.Machine
end

