-- ==== Sys2Proof/Laws/Run.lean ====
section
/-! SUPPORT. The run of Sys2Proof/Machine/Run.lean, one equation for each way it goes on or is over. -/

namespace Sys2Proof.Machine

/-- The events that are no host's: a unit's completion and a reset. -/
theorem byHost_eq_false {e : Event} : e.byHost = false ↔ (∃ u, e = .complete u) ∨ (∃ u, e = .reset u) := by
  cases e <;> simp [Event.byHost]

/-- A run that is over takes no further step. -/
theorem runFrom_of_verdict {k : Nat} {s : State} {v : RunResult} (h : s.verdict = some v) : runFrom k s = v := by
  cases k <;> simp [runFrom, h]

/-- A run that is not over goes on with the next state. -/
theorem runFrom_of_next {k : Nat} {s t : State} (h : s.verdict = none) (hs : step s = .next t) :
    runFrom (k + 1) s = runFrom k t := by
  simp [runFrom, h, hs]

/-- A run is not over while no fault is recorded and it has not ended. -/
theorem verdict_eq_none {s : State} : s.verdict = none ↔ s.fault = none ∧ s.ended = false := by
  unfold State.verdict
  cases s.fault <;> simp

end Sys2Proof.Machine
end

