-- ==== Sys2Proof/Laws/Safety.lean ====
section
/-! SUPPORT. What the invariant and the notions of Sys2Proof/Safety.lean say, as propositions: later proofs cite these and do not
unfold the Boolean checks. -/

namespace Sys2Proof.Machine

/-! ### Ranges -/

theorem has_iff {r : ByteRange} {a : Nat} : r.has a = true ↔ r.base ≤ a ∧ a < r.base + r.len := by
  simp [ByteRange.has]

/-- Two ranges meet exactly when they share a byte (20_memory.md R45). -/
theorem meets_iff {r q : ByteRange} : r.meets q = true ↔ ∃ a, r.has a = true ∧ q.has a = true := by
  simp only [ByteRange.meets, decide_eq_true_eq, has_iff]
  constructor
  · intro h
    exact ⟨max r.base q.base, by omega, by omega⟩
  · rintro ⟨a, h1, h2⟩
    omega

theorem rangesHave_iff {rs : List ByteRange} {a : Nat} : rangesHave rs a = true ↔ ∃ r ∈ rs, r.has a = true := by
  simp [rangesHave]

theorem rangesMeet_iff {rs : List ByteRange} {q : ByteRange} :
    rangesMeet rs q = true ↔ ∃ a, rangesHave rs a = true ∧ q.has a = true := by
  simp only [rangesMeet, List.any_eq_true, meets_iff, rangesHave_iff]
  constructor
  · rintro ⟨r, hr, a, h1, h2⟩
    exact ⟨a, ⟨r, hr, h1⟩, h2⟩
  · rintro ⟨a, ⟨r, hr, h1⟩, h2⟩
    exact ⟨r, hr, a, h1, h2⟩

/-- A range touches a command's footprint exactly when it holds a byte that 20_memory.md R53 protects. -/
theorem touches_iff {l : InFlight} {q : ByteRange} : l.touches q = true ↔ ∃ a, l.protects a = true ∧ q.has a = true := by
  simp only [InFlight.touches, InFlight.protects, Bool.or_eq_true, meets_iff, rangesMeet_iff]
  constructor
  · rintro (⟨a, h1, h2⟩ | ⟨a, h1, h2⟩)
    · exact ⟨a, .inl h1, h2⟩
    · exact ⟨a, .inr h1, h2⟩
  · rintro ⟨a, h1 | h1, h2⟩
    · exact .inl ⟨a, h1, h2⟩
    · exact .inr ⟨a, h1, h2⟩

/-- The race condition byte by byte (20_memory.md R53). -/
theorem footprintsRace_iff {readSet : ByteRange} {writeSet : List ByteRange} {l : InFlight} :
    footprintsRace readSet writeSet l = true ↔
      ∃ a, (rangesHave writeSet a = true ∧ l.protects a = true) ∨
        (rangesHave l.writeSet a = true ∧ readSet.has a = true) := by
  simp only [footprintsRace, Bool.or_eq_true, List.any_eq_true, touches_iff, rangesMeet_iff, rangesHave_iff]
  constructor
  · rintro (⟨r, hr, a, h1, h2⟩ | ⟨a, h1, h2⟩)
    · exact ⟨a, .inl ⟨⟨r, hr, h2⟩, h1⟩⟩
    · exact ⟨a, .inr ⟨h1, h2⟩⟩
  · rintro ⟨a, ⟨⟨r, hr, h2⟩, h1⟩ | ⟨h1, h2⟩⟩
    · exact .inl ⟨r, hr, a, h1, h2⟩
    · exact .inr ⟨a, h1, h2⟩

/-- The race condition is symmetric. -/
theorem footprintsRace_comm (k l : InFlight) :
    footprintsRace k.readSet k.writeSet l = footprintsRace l.readSet l.writeSet k := by
  rw [Bool.eq_iff_iff, footprintsRace_iff, footprintsRace_iff]
  simp only [InFlight.protects, Bool.or_eq_true]
  constructor <;> rintro ⟨a, h⟩ <;> exact ⟨a, by tauto⟩

theorem unitRaces_iff {s : State} {readSet : ByteRange} {writeSet : List ByteRange} {v : Nat} :
    unitRaces s readSet writeSet v = true ↔
      ∃ x l, s.units[v]? = some x ∧ x.busy = true ∧ x.inFlight = some l ∧
        footprintsRace readSet writeSet l = true := by
  unfold unitRaces
  cases hx : s.units[v]? with
  | none => simp
  | some x => cases hl : x.inFlight <;> simp [hl]

/-! ### Footprints -/

theorem rangesHave_writeSetOf {dst pitch h a : Nat} :
    rangesHave (writeSetOf dst pitch h) a = true ↔
      ∃ y < h, dst + 4 * y * pitch ≤ a ∧ a < dst + 4 * y * pitch + 16 := by
  simp only [rangesHave_iff, writeSetOf, List.mem_map, List.mem_range, has_iff]
  constructor
  · rintro ⟨_, ⟨y, hy, rfl⟩, h⟩
    exact ⟨y, hy, h⟩
  · rintro ⟨y, hy, h⟩
    exact ⟨_, ⟨y, hy, rfl⟩, h⟩

/-- The write set is exactly the bytes of its texels (20_memory.md R45). -/
theorem rangesHave_writeSetOf_texel {dst pitch h a : Nat} :
    rangesHave (writeSetOf dst pitch h) a = true ↔
      ∃ y < h, ∃ x < 4, texelAddr dst pitch x y ≤ a ∧ a < texelAddr dst pitch x y + 4 := by
  rw [rangesHave_writeSetOf]
  simp only [texelAddr, Nat.mul_add, ← Nat.mul_assoc]
  constructor
  · rintro ⟨y, hy, h1, h2⟩
    exact ⟨y, hy, (a - (dst + 4 * y * pitch)) / 4, by omega, by omega, by omega⟩
  · rintro ⟨y, hy, x, hx, h1, h2⟩
    exact ⟨y, hy, by omega, by omega⟩

theorem admitted_space {p : Params} {r : ByteRange} (h : admitted p r = true) : r.base + r.len ≤ 2 ^ p.addrBits := by
  simp only [admitted, Bool.and_eq_true, decide_eq_true_eq] at h
  exact h.1

/-- A byte of a range that is admitted exists. -/
theorem lt_of_admitted {p : Params} {rs : List ByteRange} (h : ∀ r ∈ rs, admitted p r = true) {a : Nat}
    (ha : rangesHave rs a = true) : a < 2 ^ p.addrBits := by
  obtain ⟨r, hr, hra⟩ := rangesHave_iff.1 ha
  have := admitted_space (h r hr)
  have := (has_iff.1 hra).2
  omega

/-! ### The invariant -/

/-- The invariant as five propositions. -/
theorem inv_iff {s : State} :
    s.inv = true ↔
      Memory.wf s.mem = true ∧ memInSpace s.params s.mem = true ∧ s.units.length = s.params.unitBases.length ∧
      (∀ (u : Nat) (x : UnitState), s.units[u]? = some x → x.ok s.params = true) ∧ s.raceFree = true := by
  simp only [State.inv, Bool.and_eq_true, beq_iff_eq, List.all_eq_true, List.mem_iff_getElem?, and_assoc]
  constructor
  · rintro ⟨h1, h2, h3, h4, h5⟩
    exact ⟨h1, h2, h3, fun u x hx => h4 x ⟨u, hx⟩, h5⟩
  · rintro ⟨h1, h2, h3, h4, h5⟩
    exact ⟨h1, h2, h3, fun x ⟨u, hx⟩ => h4 u x hx, h5⟩

/-- No two units are in flight with conflicting footprints. -/
theorem raceFree_iff {s : State} :
    s.raceFree = true ↔
      ∀ (u : Nat) (x : UnitState) (l : InFlight), s.units[u]? = some x → x.inFlight = some l →
        ∀ v, u ≠ v → unitRaces s l.readSet l.writeSet v = false := by
  have outside : ∀ v R W, s.units.length ≤ v → unitRaces s R W v = false := by
    intro v R W h
    simp [unitRaces, List.getElem?_eq_none h]
  simp only [State.raceFree, List.all_eq_true, List.mem_range]
  constructor
  · intro h u x l hx hl v hv
    have := h u (List.getElem?_eq_some_iff.1 hx).1
    rw [hx] at this
    simp only [hl, List.all_eq_true, List.mem_range] at this
    by_cases hlt : v < s.units.length
    · simpa [hv] using this v hlt
    · exact outside v _ _ (by omega)
  · intro h u _
    cases hx : s.units[u]? with
    | none => rfl
    | some x =>
      cases hl : x.inFlight with
      | none => simp [hl]
      | some l =>
        simp only [hl, List.all_eq_true, List.mem_range]
        intro v _
        by_cases huv : u = v
        · simp [huv]
        · simp [h u x l hx hl v huv]

/-- An idle unit that is in an allowed state. -/
theorem ok_idle {p : Params} {x : UnitState} (hb : x.busy = false) : x.ok p = true ↔ x.inFlight = none := by
  cases hl : x.inFlight <;> simp [UnitState.ok, UnitState.phaseOk, hb, hl]

/-- A busy unit that is in an allowed state. -/
theorem ok_busy {p : Params} {x : UnitState} (hb : x.busy = true) :
    x.ok p = true ↔ x.done = false ∧ ∃ l, x.inFlight = some l ∧ l.legal p = true ∧ x.sourcesKept l = true := by
  cases hl : x.inFlight <;> simp [UnitState.ok, UnitState.phaseOk, hb, hl]

/-- A record that passed the checks of its issue: every byte of its footprint exists. -/
theorem legal_space {p : Params} {l : InFlight} (h : l.legal p = true) :
    ∀ r ∈ l.readSet :: l.writeSet, admitted p r = true := by
  simp only [InFlight.legal, Bool.and_eq_true] at h
  obtain ⟨⟨_, hr⟩, hop⟩ := h
  intro r hm
  rcases List.mem_cons.1 hm with rfl | hm
  · exact hr
  · cases hk : l.op with
    | block iba h dst pitch =>
      simp only [hk, Bool.and_eq_true, List.all_eq_true] at hop
      exact hop.1.2 r hm
    | texel x y =>
      simp only [hk, beq_iff_eq] at hop
      simp [hop] at hm

/-- The write set of a `DBLK` that passed the checks of its issue. -/
theorem legal_block {p : Params} {l : InFlight} {iba : Bool} {h : BitVec 3} {dst pitch : Word}
    (hl : l.legal p = true) (hop : l.op = .block iba h dst pitch) :
    l.writeSet = writeSetOf dst.toNat pitch.toNat h.toNat ∧ pitchBad h.toNat pitch.toNat = false ∧
      legalHeight h = true ∧ dst.toNat % 4 = 0 ∧ rangesMeet l.writeSet l.readSet = false := by
  simp only [InFlight.legal, hop, Bool.and_eq_true, beq_iff_eq, Bool.not_eq_true'] at hl
  tauto

/-! ### What finishing a command does to memory -/

/-- Finishing a command leaves every byte outside its write set alone (20_memory.md R44). -/
theorem readByte_finish_other {u : Nat} {x : UnitState} {l : InFlight} {s : State} {p : Params}
    (hl : l.legal p = true) {a : Nat} (ha : rangesHave l.writeSet a = false) :
    readByte (finish u x l s).mem a = readByte s.mem a := by
  unfold finish
  split
  · rename_i iba h dst pitch hop
    rw [(legal_block hl hop).1] at ha
    exact readByte_writeBlock_other s.mem _ ha
  · rfl

end Sys2Proof.Machine
end

