-- ==== Sys2Proof/Laws/Texel.lean ====
section
/-! SUPPORT. The derivations and the texel functions: the range of a bit field, the two modes of a palette and of a ramp, and
the bytes of an RGBA32 word. -/

namespace Sys2Proof.Machine

theorem bits_lt (v hi lo : Nat) : bits v hi lo < 2 ^ (hi - lo + 1) := Nat.mod_lt _ (by positivity)

theorem palette_fourColor {p : Params} {c1 c2 : Nat} {iba : Bool} (h : c1 > c2) :
    palette p c1 c2 iba = fourColorPalette (expandColor p c1) (expandColor p c2) := by
  simp [palette, fourColor, h]

theorem palette_threeColor {p : Params} {c1 c2 : Nat} {iba : Bool} (h : c1 ≤ c2) :
    palette p c1 c2 iba = threeColorPalette (expandColor p c1) (expandColor p c2) iba := by
  simp [palette, fourColor, h]

theorem alphaRamp_eight {p : Params} {a1 a2 : Nat} (h : a1 > a2) :
    (alphaRamp p a1 a2).toList = [a1, a2, lerp p a1 a2 1 7, lerp p a1 a2 2 7, lerp p a1 a2 3 7, lerp p a1 a2 4 7,
      lerp p a1 a2 5 7, lerp p a1 a2 6 7] := by
  rw [alphaRamp, alpha8, if_pos (by simpa using h)]; rfl

theorem alphaRamp_six {p : Params} {a1 a2 : Nat} (h : a1 ≤ a2) :
    (alphaRamp p a1 a2).toList = [a1, a2, lerp p a1 a2 1 5, lerp p a1 a2 2 5, lerp p a1 a2 3 5, lerp p a1 a2 4 5, 0, 255] := by
  rw [alphaRamp, alpha8, if_neg (by simpa using h)]; rfl

/-- The bytes of four bytes put together. -/
theorem bytesOfWord_append (a b g r : Byte) : bytesOfWord (a ++ b ++ g ++ r) = [r, g, b, a] := by
  simp only [bytesOfWord, List.cons.injEq, and_true]
  refine ⟨?_, ?_, ?_, ?_⟩ <;> apply BitVec.eq_of_getLsbD_eq <;> intro i hi <;>
    simp only [BitVec.getLsbD_extractLsb', BitVec.getLsbD_append, hi]
  · simp [hi]
  · simp [hi]
  · rw [if_neg (by omega), if_neg (by omega), if_pos (by omega), show 16 + i - 8 - 8 = i by omega]
    simp
  · rw [if_neg (by omega), if_neg (by omega), if_neg (by omega), show 24 + i - 8 - 8 - 8 = i by omega]
    simp

/-- An RGBA32 word of four 8-bit channels is those four bytes put together (30_encoding.md R70). -/
theorem rgba_eq_append {r g b a : Nat} (hr : r ≤ 255) (hg : g ≤ 255) (hb : b ≤ 255) :
    rgba r g b a = BitVec.ofNat 8 a ++ BitVec.ofNat 8 b ++ BitVec.ofNat 8 g ++ BitVec.ofNat 8 r := by
  apply BitVec.eq_of_toNat_eq
  simp only [rgba, BitVec.toNat_append, BitVec.toNat_ofNat]
  rw [← Nat.shiftLeft_add_eq_or_of_lt (by omega), ← Nat.shiftLeft_add_eq_or_of_lt (by omega),
    ← Nat.shiftLeft_add_eq_or_of_lt (by omega)]
  simp only [Nat.shiftLeft_eq]
  omega

end Sys2Proof.Machine
end

