-- ==== Sys2Proof/Tests/Slice0.lean ====
section
/-! SUPPORT. The model's own tests. Expected values come from spec/95_test_vectors.md, or by hand from the rule named; a test
named `test_wit_…` shows that the hypotheses of an obligation can all hold. -/

namespace Sys2Proof.Tests

open Sys2Proof Sys2Proof.Machine

/-! ### Helpers -/

def bytesOf (ns : List Nat) : List Byte := ns.map (BitVec.ofNat 8)

/-- The blocks of 95_test_vectors.md sections 2.5 to 2.7. -/
def blockA2 : List Byte := bytesOf [0xE4, 0x1B, 0x00, 0xFF, 0x00, 0xF8, 0x1F, 0x00]
def blockA3 : List Byte := bytesOf [0xE4, 0xE4, 0xE4, 0xE4, 0x1F, 0x00, 0x00, 0xF8]
def blockA5 : List Byte := bytesOf [0x00, 0xF8, 0x1F, 0x00, 0xE4, 0x1B, 0x00, 0xFF]
def blockB1 : List Byte := blockA2 ++ bytesOf [0x10, 0x32, 0x54, 0x76, 0x98, 0xBA, 0xDC, 0xFE]
def blockB2 : List Byte := blockA3 ++ bytesOf [0xFF, 0xFF, 0xFF, 0xFF, 0xFF, 0xFF, 0xFF, 0xFF]
def blockC2 : List Byte := blockA2 ++ bytesOf [0x88, 0xC6, 0xFA, 0x88, 0xC6, 0xFA, 0xC8, 0x64]
def blockC3 : List Byte := blockA3 ++ bytesOf [0x88, 0xC6, 0xFA, 0x88, 0xC6, 0xFA, 0x00, 0xFF]
def blockC4 : List Byte := bytesOf [0, 0, 0, 0, 0xFF, 0xFF, 0xFF, 0xFF, 0, 0, 0, 0x40, 0x01, 0, 0xFF, 0]

/-- The sample platform, and the same under the other value of each parameter. -/
def psp : Params := Config.samplePlatform
def pcLayout : Params := { psp with blockLayout := .pc }
def replicateForm : Params := { psp with bc2AlphaExpand := .replicate }
def weightForm : Params := { psp with alphaLerpForm := .weightThenMultiply }
def twoUnits : Params := Params.decided [⟨0, 0x10000⟩] [0xF0000000, 0xF0000020]

def idle (src dst pitch : Word) : UnitState :=
  { UnitState.reset with src := .value src, dst := .value dst, pitch := .value pitch }

/-- A unit in flight with `l`, as its issue left it. -/
def inFlight (src dst pitch : Word) (l : InFlight) : UnitState := (idle src dst pitch).issued (encode l.command) l

/-- A machine of one unit, and one of two. -/
def one (x : UnitState) (m : Memory) (t : Turn) (es : List Event) : State :=
  { State.reset with units := [x], mem := m, turn := t, events := es }
def two (x y : UnitState) (m : Memory) (t : Turn) (es : List Event) : State :=
  { State.reset with params := twoUnits, units := [x, y], mem := m, turn := t, events := es }

/-- The records of `DBLK.BCn 4` from 0x800 to 0x1000 with PITCH 4, and of `DTXL.BCn 3, 1` at 0x800. -/
def recB (v : Variant) : InFlight := blockRecord v false 4 0x800 0x1000 4
def recT (v : Variant) : InFlight := texelRecord v 3 1 0x800

/-- A machine in which unit 0 is in flight, with a block at 0x800, and it is that unit's turn. -/
def flyB (v : Variant) (blk : List Byte) (es : List Event) : State :=
  one (inFlight 0x800 0x1000 4 (recB v)) (writeBytes [] 0x800 blk) (.complete 0) es
def flyT (v : Variant) (blk : List Byte) (es : List Event) : State :=
  one (inFlight 0x800 0x1000 4 (recT v)) (writeBytes [] 0x800 blk) (.complete 0) es

def nextOf : Host.Outcome State Fault Refusal → Option State
  | .next s => some s
  | .fault _ => none
  | .refused _ => none

/-- The row of texels that a block decodes to. -/
def rowOf (p : Params) (v : Variant) (blk : List Byte) (iba : Bool) (y : Nat) : List Word :=
  (List.range 4).map fun x => texel p v blk x y iba

/-- The words at an address. -/
def wordsAt (m : Memory) (a n : Nat) : List Word := (List.range n).map fun k => readWord m (a + 4 * k)

/-- With one unit there is no other unit. -/
theorem no_other_unit {x x' : UnitState} {u : Nat} (hu : u ≠ 0) : [x][u]? ≠ some x' := by
  cases u with
  | zero => exact absurd rfl hu
  | succ u => simp

/-! ### Well-formedness: an ill-formed term for each check (30_encoding.md R73) -/

theorem test_illFormed_dblkBc1 : ∀ iba, ∀ h ∈ [0#3, 5#3, 6#3, 7#3], (Instr.dblkBc1 iba h).wellFormed = false := by decide
theorem test_illFormed_dblkBc2 : ∀ iba, ∀ h ∈ [0#3, 5#3, 6#3, 7#3], (Instr.dblkBc2 iba h).wellFormed = false := by decide
theorem test_illFormed_dblkBc3 : ∀ iba, ∀ h ∈ [0#3, 5#3, 6#3, 7#3], (Instr.dblkBc3 iba h).wellFormed = false := by decide
theorem test_wellFormed_heights : ∀ h ∈ [1#3, 2#3, 3#3, 4#3], (Instr.dblkBc1 true h).wellFormed = true := by decide

/-! ### Decoding: a word for each constructor, field by field as 30_encoding.md R71 places them
{reserved 31:12, Y 11:10, X 9:8, bit 7, HEIGHT 6:4, IBA 3, OP 2, VAR 1:0} -/

theorem test_decode_dblkBc1 :
    decode (0#20 ++ 0b00#2 ++ 0b00#2 ++ 0b0#1 ++ 0b011#3 ++ 0b1#1 ++ 0b0#1 ++ 0b00#2) = .ok (.dblkBc1 true 3) := by decide
theorem test_decode_dblkBc2 :
    decode (0#20 ++ 0b00#2 ++ 0b00#2 ++ 0b0#1 ++ 0b010#3 ++ 0b0#1 ++ 0b0#1 ++ 0b01#2) = .ok (.dblkBc2 false 2) := by decide
theorem test_decode_dblkBc3 :
    decode (0#20 ++ 0b00#2 ++ 0b00#2 ++ 0b0#1 ++ 0b100#3 ++ 0b1#1 ++ 0b0#1 ++ 0b10#2) = .ok (.dblkBc3 true 4) := by decide
theorem test_decode_dtxlBc1 :
    decode (0#20 ++ 0b01#2 ++ 0b10#2 ++ 0b0#1 ++ 0b000#3 ++ 0b0#1 ++ 0b1#1 ++ 0b00#2) = .ok (.dtxlBc1 2 1) := by decide
theorem test_decode_dtxlBc2 :
    decode (0#20 ++ 0b11#2 ++ 0b00#2 ++ 0b0#1 ++ 0b000#3 ++ 0b0#1 ++ 0b1#1 ++ 0b01#2) = .ok (.dtxlBc2 0 3) := by decide
theorem test_decode_dtxlBc3 :
    decode (0#20 ++ 0b10#2 ++ 0b11#2 ++ 0b0#1 ++ 0b000#3 ++ 0b0#1 ++ 0b1#1 ++ 0b10#2) = .ok (.dtxlBc3 3 2) := by decide

/-- 95_test_vectors.md section 2.9: the words that are commands. HEIGHT is checked only when the command issues. -/
theorem test_words_decode :
    decode 0x00000010 = .ok (.dblkBc1 false 1) ∧ decode 0x00000041 = .ok (.dblkBc2 false 4) ∧
    decode 0x00000F06 = .ok (.dtxlBc3 3 3) ∧ decode 0x00000070 = .ok (.dblkBc1 false 7) := by decide

/-- 95_test_vectors.md section 2.9: the words that are none. -/
theorem test_words_rejected :
    decode 0x00000003 = .error .illegalVariant ∧ decode 0x00000007 = .error .illegalVariant ∧
    decode 0x00000080 = .error .reserved ∧ decode 0x00000140 = .error .reserved ∧
    decode 0x00000014 = .error .reserved := by decide

/-- 30_encoding.md R76: the examples of the assembler syntax. -/
theorem test_encode_examples :
    encode (.dblkBc1 true 4) = 0x48 ∧ encode (.dblkBc2 false 2) = 0x21 ∧ encode (.dblkBc3 false 4) = 0x42 ∧
    encode (.dtxlBc1 3 0) = 0x304 ∧ encode (.dtxlBc2 3 1) = 0x705 ∧ encode (.dtxlBc3 2 2) = 0xA06 := by decide

/-- The first byte of an opcode-table word is its low byte. -/
theorem test_tableWord : tableWordBytes 32 0x00000A06 = [0x06#8, 0x0A#8, 0x00#8, 0x00#8] ∧
    decodeTableWord 32 0x00000A06 = some (.dtxlBc3 2 2) ∧ decodeTableWord 32 3 = none := by decide

/-! ### Derivations (95_test_vectors.md sections 2.1 to 2.4) -/

theorem test_expand : [0, 1, 15, 16, 30, 31].map expand5 = [0, 8, 123, 132, 247, 255] ∧
    [0, 1, 31, 32, 62, 63].map expand6 = [0, 4, 125, 130, 251, 255] := by decide

theorem test_palette_fourColor : (palette psp 0xF800 0x001F false).toList =
    [0xFFFF0000#32, 0xFF0000FF#32, 0xFFAA0055#32, 0xFF5500AA#32] := by decide
theorem test_palette_threeColor : (palette psp 0x001F 0xF800 false).toList =
      [0xFF0000FF#32, 0xFFFF0000#32, 0xFF7F007F#32, 0x00000000#32] ∧
    (palette psp 0x001F 0xF800 true).toList.getD 3 0 = 0xFF000000#32 := by decide
theorem test_palette_green : (palette psp 0x07E0 0x0000 true).toList =
    [0xFF00FF00#32, 0xFF000000#32, 0xFF00AA00#32, 0xFF005500#32] := by decide
theorem test_palette_pc : (palette pcLayout 0xF800 0x001F false).toList =
    [0xFF0000FF#32, 0xFFFF0000#32, 0xFF5500AA#32, 0xFFAA0055#32] := by decide

theorem test_ramp_eight : (alphaRamp psp 255 0).toList = [255, 0, 218, 182, 145, 109, 72, 36] := by decide
theorem test_ramp_six : (alphaRamp psp 100 200).toList = [100, 200, 120, 140, 160, 180, 0, 255] := by decide
theorem test_ramp_weight : (alphaRamp weightForm 255 0).toList = [255, 0, 218, 181, 145, 108, 72, 35] ∧
    (alphaRamp weightForm 255 255).toList = [255, 255, 254, 254, 254, 254, 0, 255] := by decide

theorem test_index_straddle : alphaIndex psp blockC4 2 2 = 5 ∧ alphaIndex psp blockC4 1 2 = 0 ∧
    alphaIndex psp blockC4 3 2 = 0 := by decide

/-! ### Whole rows of the vectors' blocks (95_test_vectors.md sections 2.5 to 2.7) -/

theorem test_block_a2 : rowOf psp .a blockA2 false 1 = [0xFF5500AA#32, 0xFFAA0055#32, 0xFF0000FF#32, 0xFFFF0000#32] := by decide
theorem test_block_a3 : rowOf psp .a blockA3 true 2 = [0xFF0000FF#32, 0xFFFF0000#32, 0xFF7F007F#32, 0xFF000000#32] := by decide
theorem test_block_a5 : rowOf pcLayout .a blockA5 false 0 = [0xFF0000FF#32, 0xFFFF0000#32, 0xFF5500AA#32, 0xFFAA0055#32] := by
  decide
theorem test_block_b1 : rowOf psp .b blockB1 true 1 = [0x405500AA#32, 0x50AA0055#32, 0x600000FF#32, 0x70FF0000#32] ∧
    rowOf replicateForm .b blockB1 false 1 = [0x445500AA#32, 0x55AA0055#32, 0x660000FF#32, 0x77FF0000#32] := by decide
theorem test_block_b2 : rowOf psp .b blockB2 false 3 = [0xF00000FF#32, 0xF0FF0000#32, 0xF07F007F#32, 0xF0000000#32] := by decide
theorem test_block_c2 : rowOf psp .c blockC2 false 1 = [0x9D5500AA#32, 0x8EAA0055#32, 0x800000FF#32, 0x72FF0000#32] ∧
    rowOf weightForm .c blockC2 false 3 = [0x9C5500AA#32, 0x8E5500AA#32, 0x805500AA#32, 0x715500AA#32] := by decide
theorem test_block_c3 : rowOf psp .c blockC3 false 1 = [0x990000FF#32, 0xCCFF0000#32, 0x007F007F#32, 0xFF000000#32] := by decide
theorem test_block_c4 : rowOf psp .c blockC4 false 2 = [0xFFFFFFFF#32, 0xFFFFFFFF#32, 0x6DFFFFFF#32, 0xFFFFFFFF#32] := by decide

/-! ### One step: issue (95_test_vectors.md section 2.10; the word and the operands of a row, and what the step records) -/

/-- The fault code that a CMD write raises in an idle unit with these operands, or none when the command issues. -/
def issueCode (x : UnitState) (w : Word) : Option (Option FaultCode) :=
  (nextOf (step (one x [] (.issue 0) [wr 0 0xF0000000 .cmd w]))).map fun t => t.fault.map (·.code)

theorem test_issue_ok : issueCode (idle 0x0800 0x1000 4) 0x40 = some none ∧ issueCode (idle 0x0808 0x1000 4) 0x40 = some none ∧
    issueCode (idle 0x0800 0x1000 0) 0x10 = some none ∧ issueCode (idle 0x0800 0xFFF0 4) 0x10 = some none ∧
    issueCode (idle 0xFFF8 0x1000 4) 0x40 = some none ∧ issueCode (idle 0x0800 0x07C8 4) 0x20 = some none := by decide
theorem test_issue_align : issueCode (idle 0x0808 0x1000 4) 0x41 = some (some .align) ∧
    issueCode (idle 0x0800 0x1002 4) 0x40 = some (some .align) ∧
    issueCode { UnitState.reset with src := .value 0x080C } 0x304 = some (some .align) := by decide
theorem test_issue_pitch : issueCode (idle 0x0800 0x1000 2) 0x40 = some (some .pitch) ∧
    issueCode (idle 0x0800 0x1000 2) 0x10 = some none := by decide
theorem test_issue_access : issueCode (idle 0x0800 0xFFF0 4) 0x40 = some (some .access) := by decide
theorem test_issue_overlap : issueCode (idle 0x0800 0x07F8 4) 0x40 = some (some .overlap) ∧
    issueCode (idle 0x0800 0x07F0 4) 0x40 = some (some .overlap) ∧
    issueCode (idle 0x0800 0x0808 4) 0x40 = some none := by decide
theorem test_issue_words : issueCode (idle 0x0800 0x1000 4) 0x00 = some (some .height) ∧
    issueCode (idle 0x0800 0x1000 4) 0x03 = some (some .illegalVariant) ∧
    issueCode (idle 0x0800 0x1000 4) 0x80 = some (some .reserved) ∧
    issueCode (idle 0x0800 0x1000 4) 0x304 = some none := by decide

/-! ### One step: registers (95_test_vectors.md section 2.11, from reset) -/

/-- What one event does from reset: the fault it raises, and what it answers. -/
def fromReset (e : Event) : Option (Option FaultCode × Option HostData) :=
  (nextOf (step (State.reset.withEvents [e]))).map fun t => (t.fault.map (·.code), t.reply.map (·.data))

theorem test_reset_reads : fromReset (rd 0 0xF0000000 .status) = some (none, some (.word 0)) ∧
    fromReset (rd 0 0xF0000000 .result) = some (some .unwritten, none) ∧
    fromReset (rd 0 0xF0000000 .cmd) = some (some .unwritten, none) := by decide
theorem test_reset_badAccesses : fromReset (wr 0 0xF0000000 .status 0) = some (some .regAccess, none) ∧
    fromReset (wr 0 0xF0000000 .result 0) = some (some .regAccess, none) ∧
    fromReset (.hostWrite 0 0xF0000000 [0]) = some (some .regAccess, none) ∧
    fromReset (.hostRead 0 0xF0000002 4) = some (some .regAccess, none) ∧
    fromReset (.hostRead 0 0xF0000018 4) = some (some .regAccess, none) := by decide
theorem test_write_src : ((nextOf (step (State.reset.withEvents [wr 0 0xF0000000 .src 0x801]))).bind
    fun t => t.units[0]?.map (·.src)) = some (.value 0x801) := by decide
theorem test_pitch_busy : ((nextOf (step (flyB .a blockA2 [wr 0 0xF0000000 .pitch 8]))).map (·.fault)) =
    some (some ⟨.busy, .busy 0 .pitch⟩) := by decide
theorem test_status_done : ((nextOf (step (flyB .a blockA2 []))).bind fun t => t.units[0]?.map statusWord) = some 2#32 := by
  decide
theorem test_reset_unit : ((nextOf (step (one (idle 0x800 0x1000 4).completed [] (.issue 0) [.reset 0]))).bind
    fun t => t.units[0]?) = some UnitState.reset := by decide

/-! ### One step: each command issued, and completed (42_decode_ops.md R122 to R129) -/

/-- The word at an address after a completion step, and the byte after the block's rows. -/
def wordAfter (s : State) (i : Instr) (a : Nat) : Option Word := (nextOf (exec i s)).map fun t => readWord t.mem a

/-- RESULT after a completion step. -/
def resultAfter (s : State) (i : Instr) : Option RegCell :=
  (nextOf (exec i s)).bind fun t => t.units[0]?.map (·.result)

/-- The record in unit 0 after an issue. -/
def recordAfter (i : Instr) : Option (Option InFlight) :=
  (nextOf (exec i (one (idle 0x800 0x1000 4) [] (.issue 0) []))).bind fun t => t.units[0]?.map (·.inFlight)

theorem test_dblkBc1_issues : recordAfter (.dblkBc1 true 2) = some (some
    ⟨.a, .block true 2 0x1000 4, 0x800, ⟨0x800, 8⟩, [⟨0x1000, 16⟩, ⟨0x1010, 16⟩]⟩) := by decide
/-- T-A2, texel (3, 1) at 0x1000 + 4 * (1 * 4 + 3). -/
theorem test_dblkBc1_completes :
    wordAfter (flyB .a blockA2 []) (.dblkBc1 false 4) 0x101C = some 0xFFFF0000#32 ∧
    wordAfter (flyB .a blockA2 []) (.dblkBc1 false 4) 0x1040 = some 0#32 := by decide
theorem test_dblkBc2_issues : (recordAfter (.dblkBc2 false 1)).map (·.map (·.readSet)) = some (some ⟨0x800, 16⟩) := by decide
/-- T-B1, texel (2, 1). -/
theorem test_dblkBc2_completes : wordAfter (flyB .b blockB1 []) (.dblkBc2 false 4) 0x1018 = some 0x600000FF#32 := by decide
theorem test_dblkBc3_issues : (recordAfter (.dblkBc3 false 4)).map (·.map (·.writeSet)) =
    some (some [⟨0x1000, 16⟩, ⟨0x1010, 16⟩, ⟨0x1020, 16⟩, ⟨0x1030, 16⟩]) := by decide
/-- T-C2, texel (0, 3). -/
theorem test_dblkBc3_completes : wordAfter (flyB .c blockC2 []) (.dblkBc3 false 4) 0x1030 = some 0x9D5500AA#32 := by decide
theorem test_dtxlBc1_issues : recordAfter (.dtxlBc1 3 1) = some (some
    ⟨.a, .texel 3 1, 0x800, ⟨0x800, 8⟩, []⟩) := by decide
/-- T-A3 at (3, 1): a `DTXL` uses iba = 0. -/
theorem test_dtxlBc1_completes : resultAfter (flyT .a blockA3 []) (.dtxlBc1 3 1) = some (.value 0) := by decide
/-- T-B1 at (3, 1). -/
theorem test_dtxlBc2_completes : resultAfter (flyT .b blockB1 []) (.dtxlBc2 3 1) = some (.value 0x70FF0000) := by decide
/-- T-C3 at (3, 1). -/
theorem test_dtxlBc3_completes : resultAfter (flyT .c blockC3 []) (.dtxlBc3 3 1) = some (.value 0xFF000000) := by decide

/-! ### One step: calls, hosts and the end of a run -/

/-- 42_decode_ops.md R132: a call decodes at once. T-A3 at (3, 0) with iba = 1. -/
theorem test_callBlock : ((nextOf (step (one UnitState.reset (writeBytes [] 0x800 blockA3) (.issue 0)
    [.callBlock 0 0 0x800 0x1000 4 4 true]))).map fun t => wordsAt t.mem 0x1000 4) =
    some [0xFF0000FF#32, 0xFFFF0000#32, 0xFF7F007F#32, 0xFF000000#32] := by decide
/-- 42_decode_ops.md R132: the faults that the command level has no place for. -/
theorem test_call_faults : (fromReset (.callTexel 0 0 0x800 4 0)).map (·.1) = some (some .coord) ∧
    (fromReset (.callTexel 0 7 0x800 0 0)).map (·.1) = some (some .illegalVariant) ∧
    (fromReset (.callBlock 0 0 0x800 (2 ^ 32) 4 4 false)).map (·.1) = some (some .access) := by decide
theorem test_host_memory : (fromReset (.hostRead 0 0x10 2)) = some (none, some (.bytes [0, 0])) ∧
    ((nextOf (step (State.reset.withEvents [.hostWrite 0 0x800 [1, 2]]))).map (·.mem)) = some [(0x800, 1), (0x801, 2)] := by
  decide
/-- 20_memory.md R53: a write to the block and a read of the output race, and a read of the block does not. -/
theorem test_races : (nextOf (step (flyB .a blockA2 [.hostWrite 3 0x807 [0]]))).map (·.fault) =
      some (some ⟨.race, .agentAddress 3 0x807⟩) ∧
    (nextOf (step (flyB .a blockA2 [.hostRead 3 0x103F 1]))).map (·.fault) = some (some ⟨.race, .agentAddress 3 0x103F⟩) ∧
    (nextOf (step (flyB .a blockA2 [.hostRead 3 0x800 1]))).map (·.fault) = some none := by decide
/-- From reset a placed command raises F_UNWRITTEN, since no host has written its operands (log 5). -/
theorem test_placed_at_reset : (nextOf (step (State.reset.withFetchWord 32 0x304))).map (·.fault) =
    some (some ⟨.unwritten, .register .src⟩) := by decide

/-! ### The platform, and the end of a run -/

/-- A platform that admits the range (0x800, 16) and not (0x800, 8), which no list of regions gives. -/
def odd : Params := { psp with exceptions := [⟨0x800, 8⟩] }

/-- 00_scope.md R8: `MemAdmits` may depend on the length of a range. -/
theorem test_memAdmits_exceptions : admitted odd ⟨0x800, 16⟩ = true ∧ admitted odd ⟨0x800, 8⟩ = false ∧
    admitted odd ⟨0x808, 8⟩ = true ∧ usableByte odd 0x807 = true ∧ platformOk odd = true ∧
    platformOk { psp with exceptions := [⟨0xEFFFFFF8, 16⟩] } = false := by decide
/-- On it DTXL.BC1 at 0x800 raises F_ACCESS, and DTXL.BC2 issues. -/
theorem test_issue_exceptions : [0x304#32, 0x305#32].map (fun w =>
    (nextOf (step { one (idle 0x800 0 0) [] (.issue 0) [wr 0 0xF0000000 .cmd w] with params := odd })).map (·.fault)) =
    [some (some ⟨.access, .range ⟨0x800, 8⟩⟩), some none] := by decide
/-- 70_reset_and_hazards.md R165: the run has ended with its registers as they are, although a reset of the unit is left. -/
theorem test_run_ends : runFrom 2 (one (idle 0x800 0x1000 4).completed [(0x800, 1)] (.issue 0) [.reset 0]) =
    .ended ⟨[(0x800, 1)], [⟨.unwritten, .value 0x800, .value 0x1000, .value 4, .unwritten, 2⟩], none⟩ := by decide
/-- While a unit is busy it has not ended: the reset is made, and then it ends with the registers of 10_state.md R39. -/
theorem test_run_resets : (runFrom 0 (flyT .a blockA3 [.reset 0]), runFrom 1 (flyT .a blockA3 [.reset 0])) =
    (.going, .ended ⟨writeBytes [] 0x800 blockA3, [⟨.unwritten, .unwritten, .unwritten, .unwritten, .unwritten, 0⟩],
      none⟩) := by decide

/-! ### Witnesses: the hypotheses of each obligation hold together somewhere, at the boundaries of each clause -/

/-- An idle machine whose next event writes `w` to CMD. -/
def cmdWrite (w : Word) : State := one (idle 0x800 0x1000 4) [] (.issue 0) [wr 0 0xF0000000 .cmd w]

/-- The hypotheses that every clause shares. -/
theorem test_wit_ReservedWordsFault (w : Word) : (cmdWrite w).nextWrites 0 .cmd 0 0xF0000000 (bytesOfWord w) = true ∧
    (cmdWrite w).units[0]? = some (idle 0x800 0x1000 4) ∧ (idle 0x800 0x1000 4).busy = false ∧
    w = wordOfBytes (bytesOfWord w) := by
  have h : windowOf psp 0xF0000000 4 = some 0 ∧ regNamed psp 0 0xF0000000 4 = some .cmd := by decide
  have hp : (cmdWrite w).params = psp := by rw [cmdWrite, one]; rfl
  refine ⟨?_, by simp [cmdWrite, one], by decide, (wordOfBytes_bytesOfWord w).symm⟩
  simp only [State.nextWrites, length_bytesOfWord, hp, h.1, h.2]
  simp [State.next, cmdWrite, one, State.reset, wr, Reg.offset]

theorem test_wit_ReservedWordsFault_variant : [0xFFFFFFFF#32, 0x03#32].all (fun w => w.extractLsb' 0 2 == 3#2) = true := by
  decide

theorem test_wit_ReservedWordsFault_reserved :
    [0x80#32, 0x1000#32, 0x80000000#32, 0x100#32, 0x800#32, 0x0C#32, 0x14#32].all (fun w => decide (
      w.extractLsb' 0 2 ≠ 3#2 ∧ (w.extractLsb' 7 1 ≠ 0#1 ∨ w.extractLsb' 12 20 ≠ 0#20 ∨
      (w.extractLsb' 2 1 = 0#1 ∧ (w.extractLsb' 8 2 ≠ 0#2 ∨ w.extractLsb' 10 2 ≠ 0#2)) ∨
      (w.extractLsb' 2 1 = 1#1 ∧ (w.extractLsb' 3 1 ≠ 0#1 ∨ w.extractLsb' 4 3 ≠ 0#3))))) = true := by decide

theorem test_wit_ReservedWordsFault_height : [0x00#32, 0x50#32, 0x61#32, 0x7A#32].all (fun w => decide (
    w.extractLsb' 0 2 ≠ 3#2 ∧ w.extractLsb' 2 1 = 0#1 ∧ w.extractLsb' 7 5 = 0#5 ∧ w.extractLsb' 12 20 = 0#20 ∧
    (w.extractLsb' 4 3 = 0#3 ∨ w.extractLsb' 4 3 = 5#3 ∨ w.extractLsb' 4 3 = 6#3 ∨ w.extractLsb' 4 3 = 7#3))) = true := by
  decide

/-- A busy unit, and words that decode, that have VAR = 3 and that have a reserved bit. -/
theorem test_wit_BusyCmdWriteFaults : (inFlight 0x800 0x1000 4 (recB .a)).busy = true ∧
    (flyB .a blockA2 []).units[0]? = some (inFlight 0x800 0x1000 4 (recB .a)) ∧
    [0x40#32, 0x03#32, 0x80#32].all (fun w =>
      (flyB .a blockA2 [wr 0 0xF0000000 .cmd w]).nextWrites 0 .cmd 0 0xF0000000 (bytesOfWord w)) = true ∧
    decode (wordOfBytes (bytesOfWord 0x40)) = .ok (.dblkBc1 false 4) ∧
    decode (wordOfBytes (bytesOfWord 0x03)) = .error .illegalVariant ∧
    decode (wordOfBytes (bytesOfWord 0x80)) = .error .reserved := by decide

theorem test_wit_BlockFields :
    (∀ i, (fun i => (blockC2.getD i 0).toNat) i = (blockC2.getD i 0).toNat) ∧ psp.blockLayout = .psp ∧
    pcLayout.blockLayout = .pc ∧ ((Variant.a = .a ∧ (0 : Nat) = 0) ∨ (Variant.a = .b ∧ 0 = 8) ∨ (Variant.a = .c ∧ 0 = 8)) ∧
    ((Variant.c = .a ∧ 8 = 0) ∨ (Variant.c = .b ∧ 8 = 8) ∨ (Variant.c = .c ∧ (8 : Nat) = 8)) :=
  ⟨fun _ => rfl, by decide⟩

theorem test_wit_IndexBits : psp.blockLayout = .psp ∧ (∀ j ∈ [0, 30, 32, 47], j < 48) := by decide

theorem test_wit_ChannelExpansion : (∀ c ∈ [0, 0xFFFF], c < 2 ^ 16) ∧ psp.blockLayout = .psp ∧ pcLayout.blockLayout = .pc ∧
    psp.bc2AlphaExpand = .shift4 ∧ replicateForm.bc2AlphaExpand = .replicate ∧ 15 < 16 ∧ 31 < 32 ∧ 63 < 64 := by decide

theorem test_wit_PaletteEntries : expandColor psp 0xF800 = ⟨0, 0, 255⟩ ∧ expandColor psp 0x001F = ⟨255, 0, 0⟩ ∧
    0xF800 > 0x001F ∧ 0x001F ≤ 0xF800 ∧ 0xF800 ≤ 0xF800 := by decide

theorem test_wit_RampEntries : 1 > 0 ∧ 255 ≤ 255 ∧ (∀ i ∈ [2, 7], 2 ≤ i ∧ i ≤ 7) ∧ (∀ i ∈ [2, 5], 2 ≤ i ∧ i ≤ 5) ∧
    psp.alphaLerpForm = .productThenDivide ∧ weightForm.alphaLerpForm = .weightThenMultiply := by decide

theorem test_wit_TexelChannels : 0xFFFF0000#32 =
    (palette psp (color1 psp .c blockC2) (color2 psp .c blockC2) false).toList.getD (colorIndex psp .c blockC2 0 0) 0 := by
  decide

theorem test_wit_PaletteLaws : expandColor psp 1 = ⟨8, 0, 0⟩ ∧ expandColor psp 0 = ⟨0, 0, 0⟩ ∧ 1 > 0 ∧ 1 ≤ 1 ∧
    (∀ i, (fun i => (palette psp 1 0 false).toList.getD i 0) i = (palette psp 1 0 false).toList.getD i 0) :=
  ⟨by decide, by decide, by decide, by decide, fun _ => rfl⟩

theorem test_wit_PaletteChannelsInRange : 31 < 32 ∧ 63 < 64 ∧ 255 ≤ 255 ∧ 3 < 4 := by decide

theorem test_wit_RampInRange : 255 ≤ 255 ∧ 7 < 8 ∧ (∀ d ∈ [5, 7], (d = 5 ∨ d = 7) ∧ 1 ≤ 1 ∧ 1 < d ∧ 1 ≤ d - 1 ∧ d - 1 < d) ∧
    psp.alphaLerpForm = .productThenDivide ∧ weightForm.alphaLerpForm = .weightThenMultiply := by decide

theorem test_wit_RampLaws : psp.alphaLerpForm = .productThenDivide ∧ 255 ≤ 255 ∧
    (∀ i ∈ [2, 5], 2 ≤ i ∧ (i ≤ 5 ∨ (0 > 255 ∧ i ≤ 7))) ∧ 2 ≤ 7 ∧ ((7 : Nat) ≤ 5 ∨ (255 > 0 ∧ 7 ≤ 7)) := by decide

theorem test_wit_AlphaStreamWords : psp.blockLayout = .psp := by decide

theorem test_wit_IbaReachesOnlyVariantA : color1 psp .a blockA3 ≤ color2 psp .a blockA3 ∧ colorIndex psp .a blockA3 3 0 = 3 ∧
    3 < 4 := by decide

theorem test_wit_BulkTexelConsistency : 3 < 4 ∧ 0 < 4 ∧ Variant.c ≠ .a ∧ Variant.a = .a := by decide

/-! Issue: the other unit, when there is one, is in flight on another part of memory. -/

/-- Unit 0 idle with the operands, unit 1 in flight from 0x800 to 0x1000, and unit 0's turn to issue. -/
def issuePair (src dst pitch : Word) : State :=
  two (idle src dst pitch) (inFlight 0x800 0x1000 4 (recB .a)) [] (.issue 0) []

theorem issuePair_other {src dst pitch : Word} {u : Nat} {x : UnitState} {l : InFlight} (hu : u ≠ 0)
    (hx : (issuePair src dst pitch).units[u]? = some x) (hl : x.inFlight = some l) : l = recB .a := by
  match u with
  | 0 => exact absurd rfl hu
  | 1 =>
    obtain rfl : inFlight 0x800 0x1000 4 (recB .a) = x := by simpa [issuePair, two] using hx
    simpa [inFlight, UnitState.issued] using hl.symm
  | u + 2 => simp [issuePair, two] at hx

theorem test_wit_BlockCommandIssues : (∀ v ∈ [Variant.a, .b, .c],
    (issuePair 0x810 0x0FC0 4).turn = .issue 0 ∧ (issuePair 0x810 0x0FC0 4).units[0]? = some (idle 0x810 0x0FC0 4) ∧
    (idle 0x810 0x0FC0 4).busy = false ∧ 1 ≤ (4#3).toNat ∧ (4#3).toNat ≤ 4 ∧ (1 < (4#3).toNat → 4 ≤ (4#32).toNat) ∧
    (0x810#32).toNat % blockLen v = 0 ∧ (0x0FC0#32).toNat % 4 = 0 ∧
    admitted twoUnits ⟨(0x810#32).toNat, blockLen v⟩ = true ∧
    ∀ y < 4, admitted twoUnits ⟨0x0FC0 + 4 * y * 4, 16⟩ = true ∧
      (ByteRange.mk (0x0FC0 + 4 * y * 4) 16).meets ⟨(0x810#32).toNat, blockLen v⟩ = false) ∧
    ∀ (u : Nat) (x : UnitState) (l : InFlight), u ≠ 0 → (issuePair 0x810 0x0FC0 4).units[u]? = some x → x.busy = true →
      x.inFlight = some l → rangesMeet l.writeSet ⟨0x810, 16⟩ = false ∧ ∀ y < 4, l.touches ⟨0x0FC0 + 4 * y * 4, 16⟩ = false :=
  ⟨by decide, fun _ _ _ hu hx _ hl => by rw [issuePair_other hu hx hl]; decide⟩

/-- One row, with PITCH 0, ending where the memory ends (95_test_vectors.md section 2.10). -/
theorem test_wit_BlockCommandIssues_oneRow : 1 ≤ (1#3).toNat ∧ (1#3).toNat ≤ 4 ∧ (1 < (1#3).toNat → 4 ≤ (0#32).toNat) ∧
    (0xFFF0#32).toNat % 4 = 0 ∧ (∀ y < (1#3).toNat, admitted psp ⟨0xFFF0 + 4 * y * 0, 16⟩ = true ∧
      (ByteRange.mk (0xFFF0 + 4 * y * 0) 16).meets ⟨0x800, 16⟩ = false) := by decide

theorem test_wit_TexelCommandIssues : (∀ v ∈ [Variant.a, .b, .c], (issuePair 0x810 0 0).turn = .issue 0 ∧
    (issuePair 0x810 0 0).units[0]? = some (idle 0x810 0 0) ∧ (idle 0x810 0 0).busy = false ∧
    (0x810#32).toNat % blockLen v = 0 ∧ admitted twoUnits ⟨(0x810#32).toNat, blockLen v⟩ = true) ∧
    ∀ (u : Nat) (x : UnitState) (l : InFlight), u ≠ 0 → (issuePair 0x810 0 0).units[u]? = some x → x.busy = true →
      x.inFlight = some l → rangesMeet l.writeSet ⟨0x810, 16⟩ = false :=
  ⟨by decide, fun _ _ _ hu hx _ hl => by rw [issuePair_other hu hx hl]; decide⟩

/-- Each clause: a busy unit; heights 0, 5 and 1, 4; each register unwritten; PITCH 3 and 4; a misaligned SRC and DST. -/
theorem test_wit_BlockOperandFaults : (inFlight 0x800 0x1000 4 (recB .a)).busy = true ∧
    (idle 0x800 0x1000 4).busy = false ∧ ((0#3).toNat < 1 ∨ 4 < (0#3).toNat) ∧ ((5#3).toNat < 1 ∨ 4 < (5#3).toNat) ∧
    1 ≤ (1#3).toNat ∧ (4#3).toNat ≤ 4 ∧ UnitState.reset.src = .unwritten ∧ (idle 0x800 0x1000 4).src = .value 0x800 ∧
    ({ idle 0x800 0x1000 4 with dst := .unwritten } : UnitState).dst = .unwritten ∧
    ({ idle 0x800 0x1000 4 with pitch := .unwritten } : UnitState).pitch = .unwritten ∧
    (1 < (2#3).toNat ∧ (3#32).toNat < 4) ∧ ¬(1 < (2#3).toNat ∧ (4#32).toNat < 4) ∧ ¬(1 < (1#3).toNat ∧ (0#32).toNat < 4) ∧
    (0x808#32).toNat % blockLen .b ≠ 0 ∧ (0x808#32).toNat % blockLen .a = 0 ∧ (0x1002#32).toNat % 4 ≠ 0 := by decide

/-- The third range of a footprint the first that is not admitted; a row that meets the block; a unit that races. -/
theorem test_wit_BlockFootprintFaults :
    (⟨0x800, 8⟩ : ByteRange) :: (List.range (4#3).toNat).map (fun y => ⟨0xFFE0 + 4 * y * 4, 16⟩) =
      [⟨0x800, 8⟩, ⟨0xFFE0, 16⟩, ⟨0xFFF0, 16⟩] ++ (⟨0x10000, 16⟩ : ByteRange) :: [⟨0x10010, 16⟩] ∧
    (∀ q ∈ [(⟨0x800, 8⟩ : ByteRange), ⟨0xFFE0, 16⟩, ⟨0xFFF0, 16⟩], admitted psp q = true) ∧
    admitted psp ⟨0x10000, 16⟩ = false ∧
    (∃ r ∈ [(⟨0x7F0, 16⟩ : ByteRange), ⟨0x800, 16⟩], r.meets ⟨0x800, 8⟩ = true) ∧
    (∀ r ∈ [(⟨0xFF4, 16⟩ : ByteRange)], admitted twoUnits r = true ∧ r.meets ⟨0x810, 8⟩ = false) ∧
    unitRaces (issuePair 0x810 0xFF4 0) ⟨0x810, 8⟩ [⟨0xFF4, 16⟩] 1 = true ∧
    (∀ u < 1, u ≠ 0 → unitRaces (issuePair 0x810 0xFF4 0) ⟨0x810, 8⟩ [⟨0xFF4, 16⟩] u = false) := by decide

theorem test_wit_TexelIssueFaults : (0x80C#32).toNat % blockLen .a ≠ 0 ∧ (0xFFF8#32).toNat % blockLen .a = 0 ∧
    (0x10000#32).toNat % blockLen .a = 0 ∧ admitted psp ⟨(0x10000#32).toNat, 8⟩ = false ∧
    admitted twoUnits ⟨(0x1030#32).toNat, 8⟩ = true ∧ unitRaces (issuePair 0x1030 0 0) ⟨0x1030, 8⟩ [] 1 = true ∧
    (∀ u < 1, u ≠ 0 → unitRaces (issuePair 0x1030 0 0) ⟨0x1030, 8⟩ [] u = false) := by decide

/-! Completion. -/

theorem test_wit_DblkCompletes : ∀ v ∈ [Variant.a, .b, .c], (flyB v blockC2 []).turn = .complete 0 ∧
    (flyB v blockC2 []).units[0]? = some (inFlight 0x800 0x1000 4 (recB v)) ∧
    (inFlight 0x800 0x1000 4 (recB v)).busy = true ∧ (inFlight 0x800 0x1000 4 (recB v)).inFlight = some (recB v) ∧
    (recB v).variant = v ∧ (recB v).op = .block false 4 0x1000 4 ∧ (1 < (4#3).toNat → 4 ≤ (4#32).toNat) ∧
    Memory.wf (flyB v blockC2 []).mem = true := by decide

theorem test_wit_DtxlCompletes : ∀ v ∈ [Variant.a, .b, .c], (flyT v blockC2 []).turn = .complete 0 ∧
    (flyT v blockC2 []).units[0]? = some (inFlight 0x800 0x1000 4 (recT v)) ∧
    (inFlight 0x800 0x1000 4 (recT v)).busy = true ∧ (inFlight 0x800 0x1000 4 (recT v)).inFlight = some (recT v) ∧
    (recT v).variant = v ∧ (recT v).op = .texel 3 1 := by decide

/-- A command that issues, a `DBLK` that completes and a `DTXL` that completes. -/
theorem test_wit_CommandFrame : (nextOf (exec (.dblkBc1 false 4) (issuePair 0x810 0x2000 4))).isSome = true ∧
    (nextOf (exec (recB .b).command (flyB .b blockB1 []))).isSome = true ∧
    (nextOf (exec (recT .c).command (flyT .c blockC2 []))).isSome = true ∧
    (issuePair 0x810 0x2000 4).turn ≠ .issue 1 ∧ (issuePair 0x810 0x2000 4).turn ≠ .complete 1 := by decide

theorem test_wit_TexelByteOrder : Memory.wf [(5, 1#8)] = true ∧ 255 ≤ 255 ∧ 0 ≤ 255 := by decide

/-! Steps. -/

theorem test_wit_StepRunsTheDecodedCommand : (cmdWrite 0x40).nextWrites 0 .cmd 0 0xF0000000 (bytesOfWord 0x40) = true ∧
    (cmdWrite 0x40).units[0]? = some (idle 0x800 0x1000 4) ∧ decodeBytes (bytesOfWord 0x40) = .ok (.dblkBc1 false 4) ∧
    (flyB .a blockA2 [.complete 0]).next (.complete 0) = true ∧
    (flyB .a blockA2 [.complete 0]).units[0]? = some (inFlight 0x800 0x1000 4 (recB .a)) := by decide

theorem test_wit_PlacedCommandRuns : State.reset.fault = none ∧ State.reset.params.unitBases = [0xF0000000] ∧
    State.reset.units[0]? = some UnitState.reset ∧ decodeTableWord 32 0x40 = some (.dblkBc1 false 4) := by decide

theorem test_wit_CompletionRaisesNoFault : (flyB .a blockA2 [.complete 0]).next (.complete 0) = true ∧
    (flyB .a blockA2 [.complete 0]).inv = true ∧ (inFlight 0x800 0x1000 4 (recB .a)).busy = true ∧
    (one (idle 0x800 0x1000 4) [] (.issue 0) [.complete 0]).next (.complete 0) = true ∧
    (one (idle 0x800 0x1000 4) [] (.issue 0) [.complete 0]).inv = true := by decide

theorem test_wit_FaultsArePrecise : ∃ t : State, step (cmdWrite 0x03) = .next t ∧
    t.fault = some ⟨.illegalVariant, .word 0x03⟩ := ⟨_, rfl, by decide⟩

theorem test_wit_FirstFaultIsKept : State.reset.fault = none ∧
    (raise .height (.word 0) State.reset).fault = some ⟨.height, .word 0⟩ := by decide

/-! Registers. -/

theorem test_wit_RegisterAddresses : platformOk twoUnits = true ∧ twoUnits.unitBases[0]? = some 0xF0000000 ∧
    twoUnits.unitBases[1]? = some 0xF0000020 := by decide

theorem test_wit_OperandRegisterWrites : ∀ r ∈ [Reg.src, .dst, .pitch],
    (one (idle 0x800 0x1000 4) [] (.issue 0) [wr 0 0xF0000000 r 0x801]).nextWrites 0 r 0 (0xF0000000 + r.offset)
      (bytesOfWord 0x801) = true ∧
    (flyB .a blockA2 [wr 0 0xF0000000 r 0x801]).nextWrites 0 r 0 (0xF0000000 + r.offset) (bytesOfWord 0x801) = true ∧
    (idle 0x800 0x1000 4).busy = false ∧ (inFlight 0x800 0x1000 4 (recB .a)).busy = true := by decide

theorem test_wit_RegisterReads : (∀ r ∈ [Reg.cmd, .src, .dst, .pitch, .result, .status],
      (one (idle 0x800 0x1000 4) [] (.issue 0) [rd 0 0xF0000000 r]).nextReads 0 r 0 (0xF0000000 + r.offset) = true) ∧
    (idle 0x800 0x1000 4).src = .value 0x800 ∧ (idle 0x800 0x1000 4).cmd = .unwritten ∧
    (idle 0x800 0x1000 4).busy = false ∧
    (flyB .a blockA2 [rd 0 0xF0000000 .result]).nextReads 0 .result 0 0xF0000010 = true ∧
    (inFlight 0x800 0x1000 4 (recB .a)).busy = true := by decide

/-- Each bad access: too narrow, too wide, across the window's end, misaligned, and the two reserved offsets. -/
theorem test_wit_RegisterAccessFaults :
    (∀ q ∈ [(0xF0000000, 1), (0xF0000000, 8), (0xF000001E, 4), (0xF0000002, 4), (0xF0000018, 4), (0xF000001C, 4)],
      (one UnitState.reset [] (.issue 0) [.hostRead 0 q.1 q.2]).next (.hostRead 0 q.1 q.2) = true ∧
      windowOf psp q.1 q.2 = some 0 ∧ psp.unitBases[0]? = some 0xF0000000 ∧
      0xF0000000 ≤ q.1 ∧ (q.2 ≠ 4 ∨ (q.1 - 0xF0000000) % 4 ≠ 0 ∨ q.1 - 0xF0000000 = 0x18 ∨ q.1 - 0xF0000000 = 0x1C)) ∧
    (∀ r ∈ [Reg.result, .status], (one UnitState.reset [] (.issue 0) [wr 0 0xF0000000 r 0]).nextWrites 0 r 0
      (0xF0000000 + r.offset) (bytesOfWord 0) = true) ∧
    windowOf psp 0xF0000020 4 = none ∧ windowOf psp 0xEFFFFFFC 4 = none := by decide

theorem test_wit_StraddlingAccessFaults :
    (one UnitState.reset [] (.issue 0) [.hostRead 0 0xEFFFFFFD 4]).next (.hostRead 0 0xEFFFFFFD 4) = true ∧
    (one UnitState.reset [] (.issue 0) [.hostWrite 0 0xEFFFFFFF [1, 2]]).next (.hostWrite 0 0xEFFFFFFF [1, 2]) = true ∧
    windowOf psp 0xEFFFFFFD 4 = some 0 ∧ windowOf psp 0xEFFFFFFF 2 = some 0 ∧ psp.unitBases[0]? = some 0xF0000000 ∧
    0xEFFFFFFF < 0xF0000000 := by decide

/-! Memory. -/

/-- The last two bytes of usable memory, and bytes just outside a busy unit's block and rows. -/
theorem test_wit_HostMemoryAccesses :
    (State.reset.withEvents [.hostRead 0 0xFFFE 2]).next (.hostRead 0 0xFFFE 2) = true ∧
    (State.reset.withEvents [.hostWrite 0 0xFFFE [1, 2]]).next (.hostWrite 0 0xFFFE [1, 2]) = true ∧
    State.reset.fault = none ∧ Memory.wf State.reset.mem = true ∧ windowOf psp 0xFFFE 2 = none ∧
    (∀ i < 2, 0xFFFE + i < 2 ^ psp.addrBits ∧ (ByteRange.mk (0xFFFE + i) 1).has (0xFFFE + i) = true ∧
      admitted psp ⟨0xFFFE + i, 1⟩ = true) ∧
    rangesMeet (recB .a).writeSet ⟨0x1040, 4⟩ = false ∧ rangesMeet (recB .a).writeSet ⟨0x800, 8⟩ = false ∧
    (recB .a).touches ⟨0x808, 4⟩ = false ∧ (recB .a).touches ⟨0x0FFC, 4⟩ = false ∧
    ∀ (u : Nat) (x : UnitState) (l : InFlight), State.reset.units[u]? = some x → x.busy = true → x.inFlight = some l →
      rangesMeet l.writeSet ⟨0xFFFE, 2⟩ = false ∧ l.touches ⟨0xFFFE, 2⟩ = false := by
  refine ⟨by decide, by decide, by decide, by decide, by decide, by decide, by decide, by decide, by decide, by decide, ?_⟩
  intro u x l hx hb _
  match u with
  | 0 => exact absurd hb (by rw [← Option.some.inj hx]; decide)
  | u + 1 => simp [State.reset] at hx

/-- A write to the last byte of R and to the last of W, a read of the first of W, an issue that writes a byte of W, and a
read that only meets R. -/
theorem test_wit_RacesFault :
    (∀ a ∈ [0x807, 0x103F], (flyB .a blockA2 [.hostWrite 3 a [0]]).next (.hostWrite 3 a [0]) = true ∧
      windowOf psp a 1 = none ∧ ((recB .a).readSet.has a = true ∨ rangesHave (recB .a).writeSet a = true)) ∧
    (flyB .a blockA2 [.hostRead 3 0x0FFD 4]).next (.hostRead 3 0x0FFD 4) = true ∧ windowOf psp 0x0FFD 4 = none ∧
    0x0FFD ≤ 0x1000 ∧ 0x1000 < 0x0FFD + 4 ∧ rangesHave (recB .a).writeSet 0x1000 = true ∧
    (blockRecord .a false 1 0x810 0xFF4 0).legal twoUnits = true ∧
    (issuePair 0x810 0xFF4 0).units[0]? = some (idle 0x810 0xFF4 0) ∧
    (issuePair 0x810 0xFF4 0).units[1]? = some (inFlight 0x800 0x1000 4 (recB .a)) ∧
    rangesHave (blockRecord .a false 1 0x810 0xFF4 0).writeSet 0x1000 = true ∧
    (texelRecord .a 0 0 0x1038).legal twoUnits = true ∧ (texelRecord .a 0 0 0x1038).readSet.has 0x103F = true ∧
    (flyB .a blockA2 [.hostRead 3 0x800 8]).next (.hostRead 3 0x800 8) = true ∧ windowOf psp 0x800 8 = none ∧
    (nextOf (step (flyB .a blockA2 [.hostRead 3 0x800 8]))).isSome = true ∧
    rangesMeet (recB .a).writeSet ⟨0x800, 8⟩ = false := by decide

/-! Reset, and the whole machine. -/

theorem test_wit_UnitReset : (one (idle 0x800 0x1000 4) [] (.issue 0) [.reset 0]).next (.reset 0) = true ∧
    (idle 0x800 0x1000 4).busy = false ∧ (flyB .a blockA2 [.reset 0]).next (.reset 0) = true ∧
    (flyB .a blockA2 [.reset 0]).units[0]? = some (inFlight 0x800 0x1000 4 (recB .a)) ∧
    rangesHave (recB .a).writeSet 0x1040 = false ∧ rangesHave (recB .a).writeSet 0x0FFF = false := by decide

/-- The invariant holds of a machine with a command in flight in either unit, and such a machine steps. -/
theorem test_wit_StepKeepsTheInvariant : (issuePair 0x810 0x2000 4).inv = true ∧
    (nextOf (step (issuePair 0x810 0x2000 4))).isSome = true ∧ (flyT .c blockC2 []).inv = true ∧
    (nextOf (step (flyT .c blockC2 []))).isSome = true := by decide

/-- A host writes next to the footprint of unit 1, which stays busy. -/
theorem test_wit_InFlightIsUndisturbed :
    ((issuePair 0x810 0x2000 4).withEvents [.hostWrite 0 0x808 [7]]).inv = true ∧
    ((issuePair 0x810 0x2000 4).withEvents [.hostWrite 0 0x808 [7]]).flying 1 (recB .a) = true ∧
    ((nextOf (step ((issuePair 0x810 0x2000 4).withEvents [.hostWrite 0 0x808 [7]]))).bind
      fun t => t.units[1]?.map (·.busy)) = some true ∧ (recB .a).protects 0x807 = true := by decide

theorem test_wit_OutputDepends : (flyB .a blockA2 []).params = (flyB .a (blockA2 ++ [9]) []).params ∧
    (flyB .a blockA2 []).inv = true ∧ (flyB .a (blockA2 ++ [9]) []).inv = true ∧
    (flyB .a blockA2 []).turn = .complete 0 ∧ (flyB .a (blockA2 ++ [9]) []).turn = .complete 0 ∧
    (flyB .a blockA2 []).flying 0 (recB .a) = true ∧ (flyB .a (blockA2 ++ [9]) []).flying 0 (recB .a) = true ∧
    (∀ i < 8, readByte (flyB .a blockA2 []).mem (0x800 + i) = readByte (flyB .a (blockA2 ++ [9]) []).mem (0x800 + i)) ∧
    (nextOf (exec (recB .a).command (flyB .a blockA2 []))).isSome = true ∧
    (flyT .c blockC2 []).flying 0 (recT .c) = true ∧ (recT .c).op = .texel 3 1 ∧
    (nextOf (exec (recT .c).command (flyT .c blockC2 []))).isSome = true := by decide

theorem test_wit_HostReadsHaveNoSideEffect : (State.reset.withEvents [rd 0 0xF0000000 .status]).next
      (.hostRead 0 0xF0000014 4) = true ∧
    (nextOf (step (State.reset.withEvents [rd 0 0xF0000000 .status]))).isSome = true ∧
    (nextOf (step (State.reset.withEvents [.hostRead 0 0 4]))).isSome = true := by decide

theorem test_wit_WaitEnds : (flyB .a blockA2 [.wait 0 0]).inv = true ∧ (flyB .a blockA2 [.wait 0 0]).next (.wait 0 0) = true ∧
    (State.reset.withEvents [.wait 0 0]).inv = true ∧ (State.reset.withEvents [.wait 0 0]).next (.wait 0 0) = true := by decide

theorem test_wit_QuietRunEnds : (issuePair 0x810 0x2000 4).inv = true ∧ (issuePair 0x810 0x2000 4).fault = none ∧
    (issuePair 0x810 0x2000 4).events = [] ∧ (issuePair 0x810 0x2000 4).busyCount = 1 := by decide

/-- An ended run with a completion and a reset left; a recorded fault; and a busy machine with both left. -/
theorem test_wit_RunEnds : (one (idle 0x800 0x1000 4) [] (.issue 0) [.complete 0, .reset 0]).ended = true ∧
    (raise .height (.word 0) State.reset).fault = some ⟨.height, .word 0⟩ ∧
    (flyB .a blockA2 [.complete 0, .reset 0]).inv = true ∧ (flyB .a blockA2 [.complete 0, .reset 0]).fault = none ∧
    (∀ e ∈ (flyB .a blockA2 [.complete 0, .reset 0]).events, e = .complete 0 ∨ e = .reset 0) ∧
    0 < (flyB .a blockA2 [.complete 0, .reset 0]).units.length := by decide

/-! The call level. -/

theorem test_wit_DecodeBlockCallWrites :
    (State.reset.withEvents [.callBlock 0 2 0x10 0xFFC0 4 4 true]).next (.callBlock 0 2 0x10 0xFFC0 4 4 true) = true ∧
    Memory.wf State.reset.mem = true ∧ (1 < 4 → 4 ≤ 4) ∧ 0x10 % blockLen .c = 0 ∧ 0xFFC0 % 4 = 0 ∧
    0x10 < 2 ^ psp.addrBits ∧ 0xFFC0 < 2 ^ psp.addrBits ∧ 4 < 2 ^ psp.addrBits ∧ admitted psp ⟨0x10, blockLen .c⟩ = true ∧
    (∀ y < 4, admitted psp ⟨0xFFC0 + 4 * y * 4, 16⟩ = true ∧
      (ByteRange.mk (0xFFC0 + 4 * y * 4) 16).meets ⟨0x10, blockLen .c⟩ = false) ∧
    (∀ x ∈ State.reset.units, x.busy = false) ∧
    rangesMeet (recB .a).writeSet ⟨0x10, 16⟩ = false ∧ (∀ y < 4, (recB .a).touches ⟨0xFFC0 + 4 * y * 4, 16⟩ = false) := by
  decide

theorem test_wit_DecodeTexelCallReturns :
    (State.reset.withEvents [.callTexel 0 1 0xFFF0 3 0]).next (.callTexel 0 1 0xFFF0 3 0) = true ∧ 3 < 4 ∧ 0 < 4 ∧
    0xFFF0 % blockLen .b = 0 ∧ 0xFFF0 < 2 ^ psp.addrBits ∧ admitted psp ⟨0xFFF0, blockLen .b⟩ = true ∧
    (∀ x ∈ State.reset.units, x.busy = false) := by decide

/-- Operands outside the address space that are aligned: for Variant A also an `src` that is 8 modulo 16. -/
theorem test_wit_CallOperandFaults :
    (State.reset.withEvents [.callBlock 0 3 0 0 0 0 false]).next (.callBlock 0 3 0 0 0 0 false) = true ∧
    ((3 : Int) < 0 ∨ 2 < (3 : Int)) ∧ ((5 : Int) < 1 ∨ 4 < (5 : Int)) ∧ (1 < (4 : Int) → 4 ≤ (4 : Int)) ∧
    (State.reset.withEvents [.callBlock 0 0 (2 ^ 32 + 8) 0 4 4 false]).next (.callBlock 0 0 (2 ^ 32 + 8) 0 4 4 false) = true ∧
    ((2 ^ 32 + 8 : Int) % (blockLen .a : Int) = 0 ∧ (2 ^ psp.addrBits : Nat) ≤ (2 ^ 32 + 8 : Int)) ∧
    ((-8 : Int) % (blockLen .a : Int) = 0 ∧ (-8 : Int) < 0) ∧
    ((2 ^ 32 : Int) % (blockLen .c : Int) = 0 ∧ (2 ^ psp.addrBits : Nat) ≤ (2 ^ 32 : Int)) ∧ (-4 : Int) % 4 = 0 ∧
    ((4 : Int) < 0 ∨ 3 < (4 : Int)) ∧
    (State.reset.withEvents [.callTexel 0 0 (-8) 3 3]).next (.callTexel 0 0 (-8) 3 3) = true := by decide

/-- Each clause: PITCH 3 with two rows; `src` and `dst` misaligned; the third range of a footprint the first that is not
admitted; a row on the block; a unit that races, the first one. -/
theorem test_wit_BlockCallFaults :
    (State.reset.withEvents [.callBlock 0 0 0x800 0x1000 3 2 false]).next (.callBlock 0 0 0x800 0x1000 3 2 false) = true ∧
    1 ≤ 2 ∧ 2 ≤ 4 ∧ (1 < 2 ∧ (3 : Int) < 4) ∧ (1 < 1 → (4 : Int) ≤ 0) ∧ (1 < 4 → (4 : Int) ≤ 4) ∧
    (0x808 : Int) % (blockLen .b : Int) ≠ 0 ∧ (0x808 : Int) % (blockLen .a : Int) = 0 ∧ (0x1002 : Int) % 4 ≠ 0 ∧
    (0xFFE0 : Int) % 4 = 0 ∧ 0xFFE0 < 2 ^ psp.addrBits ∧
    (⟨0x800, 8⟩ : ByteRange) :: (List.range 4).map (fun y => ⟨0xFFE0 + 4 * y * 4, 16⟩) =
      [⟨0x800, 8⟩, ⟨0xFFE0, 16⟩, ⟨0xFFF0, 16⟩] ++ (⟨0x10000, 16⟩ : ByteRange) :: [⟨0x10010, 16⟩] ∧
    (∀ q ∈ [(⟨0x800, 8⟩ : ByteRange), ⟨0xFFE0, 16⟩, ⟨0xFFF0, 16⟩], admitted psp q = true) ∧
    admitted psp ⟨0x10000, 16⟩ = false ∧
    (∃ r ∈ [(⟨0x7F0, 16⟩ : ByteRange), ⟨0x800, 16⟩], r.meets ⟨0x800, 8⟩ = true) ∧
    (∀ r ∈ [(⟨0x810, 8⟩ : ByteRange), ⟨0xFF4, 16⟩], admitted twoUnits r = true) ∧
    (ByteRange.mk 0xFF4 16).meets ⟨0x810, 8⟩ = false ∧
    unitRaces (issuePair 0x810 0xFF4 0) ⟨0x810, 8⟩ [⟨0xFF4, 16⟩] 1 = true ∧
    (∀ u < 1, unitRaces (issuePair 0x810 0xFF4 0) ⟨0x810, 8⟩ [⟨0xFF4, 16⟩] u = false) := by decide

/-- Each clause: `src` misaligned; a block that is not admitted; a block that a busy unit writes. -/
theorem test_wit_TexelCallFaults :
    (State.reset.withEvents [.callTexel 0 1 0x808 3 0]).next (.callTexel 0 1 0x808 3 0) = true ∧
    (0x808 : Int) % (blockLen .b : Int) ≠ 0 ∧ (0x10000 : Int) % (blockLen .a : Int) = 0 ∧ 0x10000 < 2 ^ psp.addrBits ∧
    admitted psp ⟨0x10000, blockLen .a⟩ = false ∧ admitted twoUnits ⟨0x1030, blockLen .a⟩ = true ∧
    unitRaces (issuePair 0x1030 0 0) ⟨0x1030, blockLen .a⟩ [] 1 = true ∧
    (∀ u < 1, unitRaces (issuePair 0x1030 0 0) ⟨0x1030, blockLen .a⟩ [] u = false) := by decide

end Sys2Proof.Tests
end

section
/-! SUPPORT. A command in flight is undisturbed (10_state.md R36, 20_memory.md R52): a step touches neither the unit that stays
busy nor a byte that 20_memory.md R53 protects for it. -/

namespace Sys2Proof.Machine

/-! ### Commands in flight -/

theorem flying_iff {s : State} {u : Nat} {l : InFlight} :
    s.flying u l = true ↔ ∃ x, s.units[u]? = some x ∧ x.busy = true ∧ x.inFlight = some l := by
  unfold State.flying
  cases s.units[u]? with
  | none => simp
  | some x => simp

/-- Whether a command is in flight depends only on the unit's own state. -/
theorem flying_congr {s t : State} {u : Nat} (h : t.units[u]? = s.units[u]?) (l : InFlight) :
    t.flying u l = s.flying u l := by
  simp only [State.flying, h]

/-- The record that a unit holds passed the checks of its issue. -/
theorem legal_of_inv {s : State} (hi : s.inv = true) {u : Nat} {x : UnitState} {l : InFlight}
    (hx : s.units[u]? = some x) (hb : x.busy = true) (hl : x.inFlight = some l) : l.legal s.params = true := by
  obtain ⟨_, _, _, hok, _⟩ := inv_iff.1 hi
  obtain ⟨_, k, hk, hlegal, _⟩ := (ok_busy hb).1 (hok u x hx)
  obtain rfl : l = k := Option.some.inj (hl.symm.trans hk)
  exact hlegal

/-- An idle unit is none that has a command in flight. -/
theorem ne_of_idle {s : State} {u v : Nat} {l : InFlight} {x : UnitState} (hf : s.flying u l = true)
    (hx : s.units[v]? = some x) (hb : x.busy = false) : v ≠ u := by
  rintro rfl
  obtain ⟨x', hx', hb', _⟩ := flying_iff.1 hf
  obtain rfl : x = x' := Option.some.inj (hx.symm.trans hx')
  simp [hb] at hb'

/-- A unit that is busy after another state was put into unit `v` is not `v`, when that state is idle. -/
theorem ne_of_set_idle {us : List UnitState} {u v : Nat} {y z : UnitState} (hy : (us.set v z)[u]? = some y)
    (hb : y.busy = true) (hz : z.busy = false) : v ≠ u := by
  rintro rfl
  obtain rfl : z = y := by
    rw [List.getElem?_set_self'] at hy
    obtain ⟨_, _, rfl⟩ := Option.map_eq_some_iff.1 hy
    rfl
  simp [hz] at hb

/-- A MOVE LEAVES A BUSY UNIT AS IT IS, if it leaves it busy: every write of its registers needs BUSY = 0, and its own completion
and its reset end with BUSY = 0 (10_state.md R36). -/
theorem move_keeps_busy_unit {s t : State} {u : Nat} {l : InFlight} {y : UnitState} (hm : Move s t)
    (hf : s.flying u l = true) (hy : t.units[u]? = some y) (hb : y.busy = true) : t.units[u]? = s.units[u]? := by
  cases hm with
  | stay h => rw [h.units]
  | fault h => rw [raise_units, h.units]
  | issue h hx hidle =>
    rw [setUnit_units, h.units, List.getElem?_set_ne (ne_of_idle hf hx hidle)]
  | @finish q h v x k =>
    obtain ⟨z, hz, hzb, _⟩ := finish_units v x k q
    rw [hz, h.units] at hy ⊢
    exact List.getElem?_set_ne (ne_of_set_idle hy hb hzb)
  | operand h hx hidle =>
    rw [setUnit_units, h.units, List.getElem?_set_ne (ne_of_idle hf hx hidle)]
  | memWrite h => rw [withMem_units, h.units]
  | answer h => rw [answer_units, h.units]
  | reset h =>
    rw [setUnit_units, addDraws_units, withMem_units, h.units] at hy ⊢
    exact List.getElem?_set_ne (ne_of_set_idle hy hb rfl)
  | call h => rw [withMem_units, h.units]

/-! ### Protected bytes -/

/-- A footprint that does not race with a unit in flight writes no byte that the unit protects (20_memory.md R53). -/
theorem rangesHave_eq_false_of_not_unitRaces {s : State} {u : Nat} {l : InFlight} {readSet : ByteRange}
    {writeSet : List ByteRange} (hf : s.flying u l = true) (hr : unitRaces s readSet writeSet u = false) {a : Nat}
    (ha : l.protects a = true) : rangesHave writeSet a = false := by
  by_contra hw
  rw [Bool.not_eq_false] at hw
  obtain ⟨x, hx, hb, hl⟩ := flying_iff.1 hf
  have hrace : unitRaces s readSet writeSet u = true :=
    unitRaces_iff.2 ⟨x, l, hx, hb, hl, footprintsRace_iff.2 ⟨a, .inl ⟨hw, ha⟩⟩⟩
  simp [hr] at hrace

/-- No byte that a unit protects is in the write set of another unit in flight. -/
theorem rangesHave_other_eq_false {s : State} {u v : Nat} {l k : InFlight} {x : UnitState} (hi : s.inv = true)
    (hf : s.flying u l = true) (hx : s.units[v]? = some x) (hk : x.inFlight = some k) (hne : v ≠ u) {a : Nat}
    (ha : l.protects a = true) : rangesHave k.writeSet a = false := by
  obtain ⟨_, _, _, _, hfree⟩ := inv_iff.1 hi
  exact rangesHave_eq_false_of_not_unitRaces hf (raceFree_iff.1 hfree v x k hx hk u hne) ha

/-- A host write that no unit blocks stays off the protected bytes. -/
theorem outside_of_not_blocked {s : State} {u : Nat} {l : InFlight} {addr n : Nat} (hf : s.flying u l = true)
    (hr : s.units.any (unitBlocksWrite ⟨addr, n⟩) = false) {a : Nat} (ha : l.protects a = true) :
    a < addr ∨ addr + n ≤ a := by
  obtain ⟨x, hx, hb, hl⟩ := flying_iff.1 hf
  have hx' := List.any_eq_false.1 hr x (List.mem_of_getElem? hx)
  simp only [unitBlocksWrite, hb, hl, Bool.true_and, touches_iff, not_exists, not_and, has_iff] at hx'
  have := hx' a ha
  omega

/-- What a reset leaves open is the write set of the command it abandons (70_reset_and_hazards.md R161). -/
theorem mem_openBytes {x : UnitState} {a : Nat} (h : a ∈ openBytes x) :
    ∃ k, x.inFlight = some k ∧ rangesHave k.writeSet a = true := by
  unfold openBytes at h
  split at h
  · split at h
    · simp at h
    · exact ⟨_, ‹_›, mem_addressesOf.1 h⟩
  · simp at h

/-- What the operands of a `DecodeBlock` call that raises nothing are (42_decode_ops.md R132). -/
theorem callBlockFault_none {s : State} {agent : Nat} {v : Variant} {src dst pitch height : Int} :
    callBlockFault s agent v src dst pitch height = none ↔
      (1 ≤ height ∧ height ≤ 4) ∧ (1 < height → 4 ≤ pitch) ∧ src % (blockLen v : Int) = 0 ∧ dst % 4 = 0 ∧
      operandMisfit s.params [src, dst, pitch] = none ∧
      footprintFault s none (.agentUnit agent) (readSetOf v src.toNat)
        (writeSetOf dst.toNat pitch.toNat height.toNat) src.toNat dst.toNat = none := by
  unfold callBlockFault
  by_cases hheight : height < 1 ∨ 4 < height
  · rw [if_pos hheight]
    exact iff_of_false (by simp) fun ⟨hrange, _⟩ => by omega
  rw [if_neg hheight]
  by_cases hpitch : 1 < height ∧ pitch < 4
  · rw [if_pos hpitch]
    exact iff_of_false (by simp) fun ⟨_, hrows, _⟩ => by omega
  rw [if_neg hpitch, and_iff_right (by omega), and_iff_right (by omega)]
  by_cases hsrc : src % (blockLen v : Int) = 0
  · by_cases hdst : dst % 4 = 0
    · cases operandMisfit s.params [src, dst, pitch] <;> simp [hsrc, hdst]
    · simp [hsrc, hdst]
  · simp [hsrc]

/-- A `DecodeBlock` call that raises no fault races with no busy unit (42_decode_ops.md R132). -/
theorem not_unitRaces_of_callBlockFault {s : State} {agent : Nat} {v : Variant} {src dst pitch height : Int}
    (h : callBlockFault s agent v src dst pitch height = none) {u : Nat} (hu : u < s.units.length) :
    unitRaces s (readSetOf v src.toNat) (writeSetOf dst.toNat pitch.toNat height.toNat) u = false := by
  obtain ⟨_, _, _, _, _, hfoot⟩ := callBlockFault_none.1 h
  obtain ⟨_, _, _, hrace⟩ := footprintFault_none.1 hfoot
  exact hrace u hu (by simp)

/-- The bytes that a unit in flight protects are kept by every move that leaves the unit busy (20_memory.md R52). -/
theorem move_keeps_protected {s t : State} {u : Nat} {l : InFlight} {y : UnitState} (hi : s.inv = true) (hm : Move s t)
    (hf : s.flying u l = true) (hy : t.units[u]? = some y) (hb : y.busy = true) {a : Nat} (ha : l.protects a = true) :
    readByte t.mem a = readByte s.mem a := by
  cases hm with
  | stay h => rw [h.mem]
  | fault h => rw [raise_mem, h.mem]
  | issue h => rw [setUnit_mem, h.mem]
  | @finish q h v x k hx hxb hk =>
    obtain ⟨z, hz, hzb, _⟩ := finish_units v x k q
    rw [hz] at hy
    rw [readByte_finish_other (legal_of_inv hi hx hxb hk)
      (rangesHave_other_eq_false hi hf hx hk (ne_of_set_idle hy hb hzb) ha), h.mem]
  | operand h => rw [setUnit_mem, h.mem]
  | memWrite h addr bytes hr =>
    rw [withMem_mem, readByte_writeBytes_other _ _ (outside_of_not_blocked hf hr ha)]
  | answer h => rw [answer_mem, h.mem]
  | @reset q h v x hx =>
    have hne : v ≠ u := ne_of_set_idle (by simpa using hy) hb rfl
    have hout : a ∉ openBytes x := by
      intro hopen
      obtain ⟨k, hk, hw⟩ := mem_openBytes hopen
      simp [rangesHave_other_eq_false hi hf hx hk hne ha] at hw
    rw [setUnit_mem, addDraws_mem, withMem_mem, readByte_drawBytes_other _ _ _ _ hout]
  | @call q h agent v src dst pitch height iba hfault =>
    have hfq : q.flying u l = true := (flying_congr (by rw [h.units]) l).trans hf
    obtain ⟨x, hx, _⟩ := flying_iff.1 hfq
    have hrace := not_unitRaces_of_callBlockFault hfault (List.getElem?_eq_some_iff.1 hx).1
    exact readByte_writeBlock_other s.mem _ (rangesHave_eq_false_of_not_unitRaces hfq hrace ha)

/-- Settles O49: a step is a move, which keeps the unit that stays busy and the bytes it protects. -/
theorem inFlightIsUndisturbed : Obligations.InFlightIsUndisturbed := by
  intro s t u l y hi hf hn hy hb
  obtain ⟨_, hm⟩ := step_move hn
  refine ⟨?_, fun a ha => move_keeps_protected hi hm hf hy hb ha⟩
  rw [flying_congr (move_keeps_busy_unit hm hf hy hb) l, hf]

end Sys2Proof.Machine
end

section
/-! SUPPORT. The register port and the step that a register access or a unit's own step makes (10_state.md R22 to R29). -/

namespace Sys2Proof.Machine

/-! ### Register addresses -/

@[simp] theorem regAtOffset_offset (r : Reg) : regAtOffset r.offset = some r := by cases r <;> rfl

/-- Every register lies in the 0x20 bytes of its window. -/
theorem offset_add_four_le (r : Reg) : r.offset + 4 ≤ 0x20 := by cases r <;> decide

/-- A word access at a register's offset names the register. -/
theorem regNamed_offset {p : Params} {u base : Nat} (h : p.unitBases[u]? = some base) (r : Reg) :
    regNamed p u (base + r.offset) 4 = some r := by
  simp [regNamed, h]

/-- A byte of a register is a byte of its window. -/
theorem windowRange_has_of_register {base a : Nat} {r : Reg} (h : (ByteRange.mk (base + r.offset) 4).has a = true) :
    (windowRange base).has a = true := by
  have := offset_add_four_le r
  simp only [has_iff, windowRange] at h ⊢
  omega

theorem register_meets_window (base : Nat) (r : Reg) :
    (ByteRange.mk (base + r.offset) 4).meets (windowRange base) = true := by
  have hfirst : (ByteRange.mk (base + r.offset) 4).has (base + r.offset) = true := by simp [has_iff]
  exact meets_iff.2 ⟨_, hfirst, windowRange_has_of_register hfirst⟩

/-- On a platform the spec allows, the windows of two units do not overlap (20_memory.md R50). -/
theorem platformOk_windows_apart {p : Params} (h : platformOk p = true) {u v base other : Nat} (hvu : v < u)
    (hu : p.unitBases[u]? = some base) (hv : p.unitBases[v]? = some other) :
    (windowRange base).meets (windowRange other) = false := by
  simp only [platformOk, Bool.and_eq_true, List.all_eq_true, List.mem_range, Bool.not_eq_true'] at h
  obtain ⟨⟨_, hapart⟩, _⟩ := h
  simpa [List.getD_eq_getElem?_getD, hu, hv] using hapart u (List.getElem?_eq_some_iff.1 hu).1 v hvu

/-- An access touches the window of unit `u` first when it meets that window and none of a lower unit. -/
theorem windowOf_eq_some {p : Params} {addr width u base : Nat} (hu : p.unitBases[u]? = some base)
    (hmeets : (ByteRange.mk addr width).meets (windowRange base) = true)
    (hlower : ∀ v other, v < u → p.unitBases[v]? = some other →
      (ByteRange.mk addr width).meets (windowRange other) = false) :
    windowOf p addr width = some u := by
  obtain ⟨hlt, rfl⟩ := List.getElem?_eq_some_iff.1 hu
  refine List.findIdx?_eq_some_iff_getElem.2 ⟨hlt, hmeets, fun v hv => ?_⟩
  rw [hlower v _ hv (List.getElem?_eq_getElem _)]
  simp

/-- Settles O38: the register's bytes lie in the unit's window, which no lower unit's window meets. -/
theorem registerAddresses : Obligations.RegisterAddresses := by
  intro p u base r hp hu
  refine ⟨windowOf_eq_some hu (register_meets_window base r) fun v other hvu hv => ?_, regNamed_offset hu r⟩
  by_contra hmeets
  rw [Bool.not_eq_false] at hmeets
  obtain ⟨a, ha, ha'⟩ := meets_iff.1 hmeets
  have hoverlap : (windowRange base).meets (windowRange other) = true :=
    meets_iff.2 ⟨a, windowRange_has_of_register ha, ha'⟩
  simp [platformOk_windows_apart hp hvu hu hv] at hoverlap

/-! ### Register writes -/

/-- A CMD write whose bytes decode issues the command (42_decode_ops.md R122). -/
theorem writeReg_cmd_of_decode {u addr : Nat} {bytes : List Byte} {x : UnitState} {s : State} {i : Instr}
    (h : decodeBytes bytes = .ok i) : writeReg u addr .cmd bytes x s = exec i (s.withTurn (.issue u)) := by
  simp [writeReg, writeCmd, h]

/-- While BUSY = 1 no operand register can be written (10_state.md R24 to R26). -/
theorem writeReg_operand_of_busy {u addr : Nat} {r : Reg} {bytes : List Byte} {x : UnitState} {s : State}
    (hr : r = .src ∨ r = .dst ∨ r = .pitch) (hb : x.busy = true) :
    writeReg u addr r bytes x s = .next (raise .busy (.busy u r) s) := by
  rcases hr with rfl | rfl | rfl <;> simp [writeReg, writeOperand, hb]

/-- While BUSY = 0 the operand register is replaced in its unit (10_state.md R24 to R26). -/
theorem writeOperand_of_idle {u : Nat} {r : Reg} {x x' : UnitState} {s : State} (hb : x.busy = false) :
    writeOperand u r x x' s = s.setUnit u x' := by
  simp [writeOperand, hb]

/-- Settles O39: the step makes the register write, and the unit's BUSY says which of its two outcomes it has. -/
theorem operandRegisterWrites : Obligations.OperandRegisterWrites := by
  intro s u agent addr bytes x r hn hx hr
  rw [step_of_nextWrites hn hx]
  refine ⟨writeReg_operand_of_busy hr, fun hb => ⟨?_, ?_, ?_⟩⟩ <;> rintro rfl <;>
    simp [writeReg, writeOperand_of_idle hb, State.setUnit]

/-! ### Register reads -/

/-- The bits of STATUS (10_state.md R28). -/
theorem statusWord_bits (x : UnitState) :
    (statusWord x).getLsbD 0 = x.busy ∧ (statusWord x).getLsbD 1 = x.done ∧
      (statusWord x).extractLsb' 2 30 = 0#30 := by
  unfold statusWord
  cases x.busy <;> cases x.done <;> decide

theorem readCell_value (agent : Nat) (r : Reg) (w : Word) (s : State) :
    readCell agent r (.value w) s = s.answer agent (.word w) := rfl

theorem readCell_unwritten (agent : Nat) (r : Reg) (s : State) :
    readCell agent r .unwritten s = raise .unwritten (.register r) s := rfl

/-- Every register but STATUS is read as its cell, RESULT only while BUSY = 0 (10_state.md R23 to R27). -/
theorem readReg_eq_readCell {agent u : Nat} {r : Reg} {x : UnitState} {c : RegCell} (s : State)
    (h : (r = .cmd ∧ c = x.cmd) ∨ (r = .src ∧ c = x.src) ∨ (r = .dst ∧ c = x.dst) ∨ (r = .pitch ∧ c = x.pitch) ∨
      (r = .result ∧ x.busy = false ∧ c = x.result)) :
    readReg agent u r x s = readCell agent r c s := by
  obtain ⟨rfl, rfl⟩ | ⟨rfl, rfl⟩ | ⟨rfl, rfl⟩ | ⟨rfl, rfl⟩ | ⟨rfl, hb, rfl⟩ := h
  · rfl
  · rfl
  · rfl
  · rfl
  · simp [readReg, hb]

/-- Settles O40: STATUS answers its word, RESULT of a busy unit faults, and every other read is that of a cell. -/
theorem registerReads : Obligations.RegisterReads := by
  intro s u agent addr x r hn hx
  rw [step_of_nextReads hn hx]
  refine ⟨?_, ?_, fun c hc => ?_⟩
  · rintro rfl
    exact ⟨statusWord x, rfl, statusWord_bits x⟩
  · rintro rfl hb
    simp [readReg, hb]
  · rw [readReg_eq_readCell _ hc]
    refine ⟨?_, ?_⟩
    · rintro w rfl
      rw [readCell_value]
      rfl
    · rintro rfl
      rw [readCell_unwritten]

/-! ### The command a step runs -/

/-- A busy unit's own step runs the command that L names (42_decode_ops.md R129). -/
theorem completeUnit_of_busy {u : Nat} {s : State} {x : UnitState} {l : InFlight} (hx : s.units[u]? = some x)
    (hb : x.busy = true) (hl : x.inFlight = some l) :
    completeUnit u s = exec l.command (s.withTurn (.complete u)) := by
  simp [completeUnit, hx, hb, hl]

/-- The step at a CMD write whose bytes decode issues the command (42_decode_ops.md R122). -/
theorem step_of_decoded_write {s : State} {u agent addr : Nat} {bytes : List Byte} {x : UnitState} {i : Instr}
    (hn : s.nextWrites u .cmd agent addr bytes = true) (hx : s.units[u]? = some x) (hd : decodeBytes bytes = .ok i) :
    step s = exec i (s.afterEvent.withTurn (.issue u)) := by
  rw [step_of_nextWrites hn hx, writeReg_cmd_of_decode hd]

/-- Settles O33: the event runs the CMD write, or the unit's completion step. -/
theorem stepRunsTheDecodedCommand : Obligations.StepRunsTheDecodedCommand := by
  refine ⟨fun s u agent addr bytes x i hn hx hd => step_of_decoded_write hn hx hd, fun s u x l hn hx hb hl => ?_⟩
  rw [(step_of_next hn).2]
  exact completeUnit_of_busy hx hb hl

/-- An opcode-table word that decodes is decoded from its four bytes. -/
theorem decodeTableWord_eq_some {nbits w : Nat} {i : Instr} :
    decodeTableWord nbits w = some i ↔ decodeBytes (tableWordBytes nbits w) = .ok i := by
  unfold decodeTableWord
  cases decodeBytes (tableWordBytes nbits w) <;> simp

/-- A placed word is a host's write to CMD of unit 0, before the other events (log 5). -/
theorem withFetchWord_eq {s : State} {base : Nat} {bases : List Nat} (h : s.params.unitBases = base :: bases)
    (nbits w : Nat) :
    s.withFetchWord nbits w =
      s.withEvents (.hostWrite 0 (base + Reg.cmd.offset) (tableWordBytes nbits w) :: s.events) := by
  simp [State.withFetchWord, placeCommand, h]

/-- The next event after placing a word is the CMD write of unit 0. -/
theorem withFetchWord_nextWrites {s : State} {base : Nat} {bases : List Nat} (hf : s.fault = none)
    (h : s.params.unitBases = base :: bases) (nbits w : Nat) :
    (s.withFetchWord nbits w).nextWrites 0 .cmd 0 (base + Reg.cmd.offset) (tableWordBytes nbits w) = true := by
  have hbase : s.params.unitBases[0]? = some base := by simp [h]
  have hwindow : windowOf s.params (base + Reg.cmd.offset) 4 = some 0 :=
    windowOf_eq_some hbase (register_meets_window base .cmd) (by simp)
  have hlen : (tableWordBytes nbits w).length = 4 := length_bytesOfWord _
  rw [withFetchWord_eq h]
  simp [State.nextWrites, State.next, hf, hlen, hwindow, regNamed_offset hbase]

/-- Settles O34: the placed word is the next CMD write of unit 0, and using that event up gives the state before placing. -/
theorem placedCommandRuns : Obligations.PlacedCommandRuns := by
  intro s w base bases x i hf hbases hx hd
  have hx' : (s.withFetchWord 32 w).units[0]? = some x := by simpa [withFetchWord_eq hbases] using hx
  rw [step_of_decoded_write (withFetchWord_nextWrites hf hbases 32 w) hx' (decodeTableWord_eq_some.1 hd),
    withFetchWord_eq hbases]
  rfl

end Sys2Proof.Machine
end

section
/-! SUPPORT. The fault record and the state after reset (10_state.md R38, R39). -/

namespace Sys2Proof.Machine

/-- Settles O37, by the two cases of `raise` and the guard of `step`. -/
theorem firstFaultIsKept : Obligations.FirstFaultIsKept := by
  refine ⟨rfl, fun s code info => ⟨fun h => ?_, fun h => ?_⟩, fun s r h => ?_⟩
  · simp [raise_eq, h]
  · obtain ⟨r, hr⟩ := Option.ne_none_iff_exists'.1 h
    simp [raise, hr]
  · simp [step, h]

/-- Settles O45: the one unit at reset is `UnitState.reset`. -/
theorem resetLeavesTheUnitIdle : Obligations.ResetLeavesTheUnitIdle := by
  refine ⟨rfl, fun x hx => ?_⟩
  obtain rfl : x = UnitState.reset := List.mem_singleton.1 hx
  exact ⟨rfl, rfl, rfl, rfl, rfl, by decide, rfl⟩

/-- Settles O47: memory is empty, and the one unit is idle and holds no record. -/
theorem resetMeetsTheInvariant : Obligations.ResetMeetsTheInvariant := by
  refine inv_iff.2 ⟨rfl, rfl, rfl, fun u x hx => ?_, ?_⟩
  · obtain rfl : x = UnitState.reset := List.mem_singleton.1 (List.mem_of_getElem? hx)
    exact (ok_idle rfl).2 rfl
  · refine raceFree_iff.2 fun u x l hx hl => ?_
    obtain rfl : x = UnitState.reset := List.mem_singleton.1 (List.mem_of_getElem? hx)
    simp [UnitState.reset] at hl

end Sys2Proof.Machine
end

section
/-! SUPPORT. The bytes of a stored texel, host memory accesses and races (20_memory.md R41, R49, R53). -/

namespace Sys2Proof.Machine

/-! ### The bytes of a stored word -/

/-- The bytes of four 8-bit channels, red at the lowest address (20_memory.md R41). -/
theorem bytesOfWord_rgba {r g b a : Nat} (hr : r ≤ 255) (hg : g ≤ 255) (hb : b ≤ 255) :
    bytesOfWord (rgba r g b a) = [BitVec.ofNat 8 r, BitVec.ofNat 8 g, BitVec.ofNat 8 b, BitVec.ofNat 8 a] := by
  rw [rgba_eq_append hr hg hb, bytesOfWord_append]

theorem readByte_writeWord_same {m : Memory} (hm : Memory.wf m = true) (addr : Nat) (w : Word) {i : Nat}
    (hi : i < (bytesOfWord w).length) : readByte (writeWord m addr w) (addr + i) = (bytesOfWord w)[i] :=
  readByte_writeBytes_same hm addr _ hi

/-- Settles O32: each byte of the stored word reads back, and the bytes of the word are its channels. -/
theorem texelByteOrder : Obligations.TexelByteOrder := by
  intro m addr r g b a hm hr hg hb ha
  have hbyte := fun i hi => readByte_writeWord_same hm addr (rgba r g b a) (i := i) hi
  simp only [bytesOfWord_rgba hr hg hb] at hbyte
  have hchannel : ∀ c ≤ 255, (BitVec.ofNat 8 c).toNat = c := fun c hc => Nat.mod_eq_of_lt (by omega)
  exact ⟨(congrArg BitVec.toNat (hbyte 0 (by simp))).trans (hchannel r hr),
    (congrArg BitVec.toNat (hbyte 1 (by simp))).trans (hchannel g hg),
    (congrArg BitVec.toNat (hbyte 2 (by simp))).trans (hchannel b hb),
    (congrArg BitVec.toNat (hbyte 3 (by simp))).trans (hchannel a ha)⟩

/-! ### What a host read can do -/

/-- A read of a cell raises a fault or answers the host. -/
theorem readCell_raise_or_answer (agent : Nat) (r : Reg) (c : RegCell) (s : State) :
    (∃ code info, readCell agent r c s = raise code info s) ∨ ∃ d, readCell agent r c s = s.answer agent d := by
  cases c with
  | unwritten => exact .inl ⟨_, _, readCell_unwritten agent r s⟩
  | value w => exact .inr ⟨_, readCell_value agent r w s⟩

/-- A read of a register raises a fault or answers the host. -/
theorem readReg_raise_or_answer (agent u : Nat) (r : Reg) (x : UnitState) (s : State) :
    (∃ code info, readReg agent u r x s = raise code info s) ∨ ∃ d, readReg agent u r x s = s.answer agent d := by
  cases r with
  | status => exact .inr ⟨_, rfl⟩
  | result =>
    cases hb : x.busy with
    | true => exact .inl ⟨.busy, .busy u .result, by simp [readReg, hb]⟩
    | false => simpa [readReg, hb] using readCell_raise_or_answer agent .result x.result s
  | cmd => exact readCell_raise_or_answer ..
  | src => exact readCell_raise_or_answer ..
  | dst => exact readCell_raise_or_answer ..
  | pitch => exact readCell_raise_or_answer ..

/-- WHAT A HOST READ CAN DO, of a register or of memory: raise a fault or answer the host (20_memory.md R49). -/
theorem hostRead_next {agent addr width : Nat} {s t : State} (hn : hostRead agent addr width s = .next t) :
    (∃ code info, t = raise code info s) ∨ ∃ d, t = s.answer agent d := by
  unfold hostRead at hn
  split at hn
  · unfold hostMemRead at hn
    split at hn
    · exact .inl ⟨_, _, (Host.Outcome.next.inj hn).symm⟩
    · exact .inr ⟨_, (onUsableMemory_next hn).1⟩
  · split at hn
    · exact .inl ⟨_, _, (Host.Outcome.next.inj hn).symm⟩
    · split at hn
      · simp at hn
      · rw [← Host.Outcome.next.inj hn]
        exact readReg_raise_or_answer ..

/-- Settles O51: a fault changes the fault record alone, and an answer the reply alone. -/
theorem hostReadsHaveNoSideEffect : Obligations.HostReadsHaveNoSideEffect := by
  intro s t agent addr width hn hstep
  rw [(step_of_next hn).2] at hstep
  obtain ⟨code, info, rfl⟩ | ⟨d, rfl⟩ := hostRead_next hstep
  · simp
  · simp

/-! ### Races of a host memory access -/

theorem unitBlocksWrite_iff {q : ByteRange} {x : UnitState} :
    unitBlocksWrite q x = true ↔ x.busy = true ∧ ∃ l, x.inFlight = some l ∧ l.touches q = true := by
  cases hl : x.inFlight <;> simp [unitBlocksWrite, hl]

theorem unitBlocksRead_iff {q : ByteRange} {x : UnitState} :
    unitBlocksRead q x = true ↔ x.busy = true ∧ ∃ l, x.inFlight = some l ∧ rangesMeet l.writeSet q = true := by
  cases hl : x.inFlight <;> simp [unitBlocksRead, hl]

/-- A step whose next event writes outside every window makes that memory write. -/
theorem step_of_memWrite {s : State} {agent addr : Nat} {bytes : List Byte}
    (hn : s.next (.hostWrite agent addr bytes) = true) (hw : windowOf s.params addr bytes.length = none) :
    step s = hostMemWrite agent addr bytes s.afterEvent := by
  rw [(step_of_next hn).2]
  simp [runEvent, hostWrite, hw, State.afterEvent]

/-- A step whose next event reads outside every window makes that memory read. -/
theorem step_of_memRead {s : State} {agent addr width : Nat} (hn : s.next (.hostRead agent addr width) = true)
    (hw : windowOf s.params addr width = none) : step s = hostMemRead agent addr width s.afterEvent := by
  rw [(step_of_next hn).2]
  simp [runEvent, hostRead, hw, State.afterEvent]

/-- A memory write that a unit blocks raises F_RACE. -/
theorem hostMemWrite_of_blocked {agent addr u : Nat} {bytes : List Byte} {s : State} {x : UnitState}
    (hx : s.units[u]? = some x) (hb : unitBlocksWrite ⟨addr, bytes.length⟩ x = true) :
    hostMemWrite agent addr bytes s = .next (raise .race (.agentAddress agent addr) s) :=
  if_pos (List.any_eq_true.2 ⟨x, List.mem_of_getElem? hx, hb⟩)

/-- A memory read that a unit blocks raises F_RACE. -/
theorem hostMemRead_of_blocked {agent addr width u : Nat} {s : State} {x : UnitState}
    (hx : s.units[u]? = some x) (hb : unitBlocksRead ⟨addr, width⟩ x = true) :
    hostMemRead agent addr width s = .next (raise .race (.agentAddress agent addr) s) :=
  if_pos (List.any_eq_true.2 ⟨x, List.mem_of_getElem? hx, hb⟩)

/-- A memory read that no unit blocks keeps the fault record. -/
theorem fault_of_hostMemRead {agent addr width : Nat} {s t : State}
    (hfree : ∀ x ∈ s.units, unitBlocksRead ⟨addr, width⟩ x = false) (hn : hostMemRead agent addr width s = .next t) :
    t.fault = s.fault := by
  have hany : s.units.any (unitBlocksRead ⟨addr, width⟩) = false := by simpa [List.any_eq_false] using hfree
  rw [hostMemRead, hany] at hn
  obtain ⟨rfl, _⟩ := onUsableMemory_next hn
  rfl

/-! ### Races of an issue -/

/-- A footprint that passes the checks before the race check raises F_RACE or nothing. -/
theorem footprintFault_of_admitted {s : State} {self : Option Nat} {raceInfo : Nat → FaultInfo} {readSet : ByteRange}
    {writeSet : List ByteRange} {src dst : Nat} (ha : ∀ r ∈ readSet :: writeSet, admitted s.params r = true)
    (hm : rangesMeet writeSet readSet = false) :
    footprintFault s self raceInfo readSet writeSet src dst =
      (racingUnit s self readSet writeSet).map fun v => ⟨.race, raceInfo v⟩ := by
  have hfind : (readSet :: writeSet).find? (fun r => !admitted s.params r) = none :=
    List.find?_eq_none.2 fun r hr => by simp [ha r hr]
  rw [footprintFault, hfind, hm]
  cases racingUnit s self readSet writeSet <;> rfl

/-- The source of a record that passed the checks of its issue. -/
theorem legal_source {p : Params} {l : InFlight} (h : l.legal p = true) :
    l.src.toNat % blockLen l.variant = 0 ∧ l.readSet = readSetOf l.variant l.src.toNat := by
  simp only [InFlight.legal, Bool.and_eq_true, beq_iff_eq] at h
  exact h.1.1

/-- A `DTXL` that passed the checks of its issue writes nothing. -/
theorem legal_texel {p : Params} {l : InFlight} {xx yy : BitVec 2} (h : l.legal p = true)
    (hop : l.op = .texel xx yy) : l.writeSet = [] := by
  simp only [InFlight.legal, hop, Bool.and_eq_true, beq_iff_eq] at h
  exact h.2

/-- All that a legal `DBLK` can still raise is F_RACE. -/
theorem blockOperandFault_of_legal {s : State} {u : Nat} {k : InFlight} {iba : Bool} {h : BitVec 3} {dst pitch : Word}
    (hk : k.legal s.params = true) (hop : k.op = .block iba h dst pitch) :
    blockOperandFault s u k.variant h k.src dst pitch =
      (racingUnit s (some u) k.readSet k.writeSet).map fun v => ⟨.race, .units u v⟩ := by
  obtain ⟨halign, hread⟩ := legal_source hk
  obtain ⟨hwrite, hpitch, _, hdst, hmeet⟩ := legal_block hk hop
  rw [← footprintFault_of_admitted (src := k.src.toNat) (dst := dst.toNat) (legal_space hk) hmeet, hread, hwrite]
  simp [blockOperandFault, hpitch, halign, hdst]

/-- All that a legal `DTXL` can still raise is F_RACE. -/
theorem texelOperandFault_of_legal {s : State} {u : Nat} {k : InFlight} {xx yy : BitVec 2}
    (hk : k.legal s.params = true) (hop : k.op = .texel xx yy) :
    texelOperandFault s u k.variant k.src =
      (racingUnit s (some u) k.readSet k.writeSet).map fun v => ⟨.race, .units u v⟩ := by
  obtain ⟨halign, hread⟩ := legal_source hk
  have hwrite := legal_texel hk hop
  have hmeet : rangesMeet k.writeSet k.readSet = false := by rw [hwrite]; rfl
  rw [← footprintFault_of_admitted (src := k.src.toNat) (dst := 0) (legal_space hk) hmeet, hread, hwrite]
  simp [texelOperandFault, halign]

/-- A `DBLK` whose operands are read raises what the checks on them report. -/
theorem issueBlock_of_operandFault {u : Nat} {v : Variant} {iba : Bool} {h : BitVec 3} {w : Word} {s : State}
    {x : UnitState} {src dst pitch : Word} {r : FaultRecord} (hx : s.units[u]? = some x) (hb : x.busy = false)
    (hl : legalHeight h = true) (hsrc : x.src = .value src) (hdst : x.dst = .value dst)
    (hpitch : x.pitch = .value pitch) (hf : blockOperandFault s u v h src dst pitch = some r) :
    issueBlock u v iba h w s = .next (raise r.code r.info s) := by
  simp [issueBlock, hx, hb, hl, hsrc, hdst, hpitch, readOperand, hf]

/-- A `DTXL` whose operand is read raises what the checks on it report. -/
theorem issueTexel_of_operandFault {u : Nat} {v : Variant} {xx yy : BitVec 2} {w : Word} {s : State} {x : UnitState}
    {src : Word} {r : FaultRecord} (hx : s.units[u]? = some x) (hb : x.busy = false) (hsrc : x.src = .value src)
    (hf : texelOperandFault s u v src = some r) :
    issueTexel u v xx yy w s = .next (raise r.code r.info s) := by
  simp [issueTexel, hx, hb, hsrc, readOperand, hf]

/-- A racing unit other than the issuing one makes the race check report a unit. -/
theorem exists_racingUnit {s : State} {u v : Nat} {readSet : ByteRange} {writeSet : List ByteRange} (hne : u ≠ v)
    (hr : unitRaces s readSet writeSet u = true) : ∃ first, racingUnit s (some v) readSet writeSet = some first := by
  obtain ⟨x, _, hx, _⟩ := unitRaces_iff.1 hr
  refine Option.ne_none_iff_exists'.1 fun hnone => ?_
  simp [racingUnit_none.1 hnone u (List.getElem?_eq_some_iff.1 hx).1 (by simpa using hne.symm)] at hr

/-- THE ISSUE OF A COMMAND THAT RACES raises F_RACE, when its record passes every other check of R122. -/
theorem exec_of_race {s : State} {v u : Nat} {y : UnitState} {k : InFlight} (ht : s.turn = .issue v)
    (hy : s.units[v]? = some y) (hb : y.busy = false) (hsrc : y.src = .value k.src) (hk : k.legal s.params = true)
    (hops : ∀ iba h dst pitch, k.op = .block iba h dst pitch → y.dst = .value dst ∧ y.pitch = .value pitch)
    (hne : u ≠ v) (hr : unitRaces s k.readSet k.writeSet u = true) :
    ∃ first, exec k.command s = .next (raise .race (.units v first) s) := by
  obtain ⟨first, hfirst⟩ := exists_racingUnit hne hr
  refine ⟨first, ?_⟩
  cases hop : k.op with
  | block iba h dst pitch =>
    obtain ⟨hdst, hpitch⟩ := hops iba h dst pitch hop
    obtain ⟨_, _, hheight, _⟩ := legal_block hk hop
    rw [command_eq_block.2 ⟨rfl, dst, pitch, hop⟩, exec_blockCommand, ht]
    exact issueBlock_of_operandFault hy hb hheight hsrc hdst hpitch
      ((blockOperandFault_of_legal hk hop).trans (by rw [hfirst]; rfl))
  | texel xx yy =>
    rw [command_eq_texel.2 ⟨rfl, hop⟩, exec_texelCommand, ht]
    exact issueTexel_of_operandFault hy hb hsrc ((texelOperandFault_of_legal hk hop).trans (by rw [hfirst]; rfl))

/-- Settles O44: the shared byte makes the two ranges, or the two footprints, meet; a read that shares none with a write set
is blocked by no unit. -/
theorem racesFault : Obligations.RacesFault := by
  refine ⟨?write, ?read, ?issue, ?allowed⟩
  case write =>
    intro s agent addr u a bytes x l hn hw hx hb hl hlo hhi hshared
    have htouch : l.touches ⟨addr, bytes.length⟩ = true :=
      touches_iff.2 ⟨a, Bool.or_eq_true_iff.2 hshared, has_iff.2 ⟨hlo, hhi⟩⟩
    rw [step_of_memWrite hn hw]
    exact ⟨_, hostMemWrite_of_blocked hx (unitBlocksWrite_iff.2 ⟨hb, l, hl, htouch⟩)⟩
  case read =>
    intro s agent addr width u a x l hn hw hx hb hl hlo hhi hshared
    have hmeet : rangesMeet l.writeSet ⟨addr, width⟩ = true :=
      rangesMeet_iff.2 ⟨a, hshared, has_iff.2 ⟨hlo, hhi⟩⟩
    rw [step_of_memRead hn hw]
    exact ⟨_, hostMemRead_of_blocked hx (unitBlocksRead_iff.2 ⟨hb, l, hl, hmeet⟩)⟩
  case issue =>
    intro s v u a y x k l i ht hy hx hne hb hl hi hidle hsrc hk hops hshared
    have hfoot : footprintsRace k.readSet k.writeSet l = true :=
      footprintsRace_iff.2 ⟨a, by simpa [InFlight.protects] using hshared⟩
    obtain ⟨first, hexec⟩ :=
      exec_of_race ht hy hidle hsrc hk hops hne (unitRaces_iff.2 ⟨x, l, hx, hb, hl, hfoot⟩)
    exact ⟨_, hi ▸ hexec⟩
  case allowed =>
    intro s t agent addr width hn hw hfree hstep
    rw [step_of_memRead hn hw] at hstep
    refine (fault_of_hostMemRead (fun x hx => ?_) hstep).trans (step_of_next hn).1
    obtain ⟨u, hu⟩ := List.mem_iff_getElem?.1 hx
    by_contra hblocked
    rw [Bool.not_eq_false] at hblocked
    obtain ⟨hb, l, hl, hmeet⟩ := unitBlocksRead_iff.1 hblocked
    obtain ⟨a, ha, hq⟩ := rangesMeet_iff.1 hmeet
    obtain ⟨hlo, hhi⟩ := has_iff.1 hq
    simp [hfree u x l hu hb hl a hlo hhi] at ha

end Sys2Proof.Machine
end

section
/-! SUPPORT. The command word (30_encoding.md R71 to R76): one equation of the decoder for each way a word is read or rejected,
the round trip of decoding and encoding, and the rows of the opcode table. -/

namespace Sys2Proof.Machine

/-! ### The variant's number and the words of its two commands -/

/-- CMD.VAR of a variant (30_encoding.md R71). -/
def Variant.code : Variant → BitVec 2
  | .a => 0
  | .b => 1
  | .c => 2

theorem encode_blockCommand (v : Variant) (iba : Bool) (h : BitVec 3) :
    encode (blockCommand v iba h) = encodeBlock v.code iba h := by cases v <;> rfl

theorem encode_texelCommand (v : Variant) (x y : BitVec 2) :
    encode (texelCommand v x y) = encodeTexel v.code x y := by cases v <;> rfl

/-- Every value of VAR but 3 names a variant. -/
theorem exists_code {var : BitVec 2} (h : var ≠ 3) : ∃ v : Variant, v.code = var := by
  have hcover : ∀ var : BitVec 2, var ≠ 3 → var = 0 ∨ var = 1 ∨ var = 2 := by decide
  obtain rfl | rfl | rfl := hcover var h
  · exact ⟨.a, rfl⟩
  · exact ⟨.b, rfl⟩
  · exact ⟨.c, rfl⟩

theorem cmdOp_zero_or_one (w : Word) : cmdOp w = 0 ∨ cmdOp w = 1 := by
  have hcover : ∀ op : BitVec 1, op = 0 ∨ op = 1 := by decide
  exact hcover (cmdOp w)

/-! ### The reserved bits -/

theorem reservedBitsClear_of_block {w : Word} (hop : cmdOp w = 0) :
    reservedBitsClear w = true ↔ cmdBit7 w = 0 ∧ cmdHigh w = 0 ∧ cmdX w = 0 ∧ cmdY w = 0 := by
  simp [reservedBitsClear, hop, and_assoc]

theorem reservedBitsClear_of_texel {w : Word} (hop : cmdOp w = 1) :
    reservedBitsClear w = true ↔ cmdBit7 w = 0 ∧ cmdHigh w = 0 ∧ cmdIba w = 0 ∧ cmdHeight w = 0 := by
  simp [reservedBitsClear, hop, and_assoc]

/-- What R73 calls a reserved word, when VAR is not 3. -/
theorem reservedBitsClear_eq_false {w : Word} :
    reservedBitsClear w = false ↔
      cmdBit7 w ≠ 0 ∨ cmdHigh w ≠ 0 ∨ (cmdOp w = 0 ∧ (cmdX w ≠ 0 ∨ cmdY w ≠ 0)) ∨
        (cmdOp w = 1 ∧ (cmdIba w ≠ 0 ∨ cmdHeight w ≠ 0)) := by
  rw [← Bool.not_eq_true]
  obtain hop | hop := cmdOp_zero_or_one w
  · have hne : cmdOp w ≠ 1 := by simp [hop]
    rw [reservedBitsClear_of_block hop]
    tauto
  · have hne : cmdOp w ≠ 0 := by simp [hop]
    rw [reservedBitsClear_of_texel hop]
    tauto

/-! ### The decoder -/

theorem decode_of_illegalVariant {w : Word} (h : cmdVar w = 3) : decode w = .error .illegalVariant := by
  rw [decode, if_pos h]

theorem decode_of_reserved {w : Word} (h : cmdVar w ≠ 3) (hr : reservedBitsClear w = false) :
    decode w = .error .reserved := by
  rw [decode, if_neg h, if_pos hr]

theorem decode_of_block {w : Word} {v : Variant} (hvar : cmdVar w = v.code) (hop : cmdOp w = 0)
    (hr : reservedBitsClear w = true) : decode w = .ok (blockCommand v (cmdIba w == 1) (cmdHeight w)) := by
  cases v <;> simp [decode, hvar, hop, hr, Variant.code, blockCommand]

theorem decode_of_texel {w : Word} {v : Variant} (hvar : cmdVar w = v.code) (hop : cmdOp w = 1)
    (hr : reservedBitsClear w = true) : decode w = .ok (texelCommand v (cmdX w) (cmdY w)) := by
  cases v <;> simp [decode, hvar, hop, hr, Variant.code, texelCommand]

/-- WHAT THE DECODER CAN ANSWER, and for which words. -/
theorem decode_cases (w : Word) :
    (cmdVar w = 3 ∧ decode w = .error .illegalVariant) ∨
    (cmdVar w ≠ 3 ∧ reservedBitsClear w = false ∧ decode w = .error .reserved) ∨
    (∃ v : Variant, cmdVar w = v.code ∧ cmdOp w = 0 ∧ reservedBitsClear w = true ∧
      decode w = .ok (blockCommand v (cmdIba w == 1) (cmdHeight w))) ∨
    (∃ v : Variant, cmdVar w = v.code ∧ cmdOp w = 1 ∧ reservedBitsClear w = true ∧
      decode w = .ok (texelCommand v (cmdX w) (cmdY w))) := by
  by_cases hthree : cmdVar w = 3
  · exact .inl ⟨hthree, decode_of_illegalVariant hthree⟩
  obtain ⟨v, hv⟩ := exists_code hthree
  cases hr : reservedBitsClear w with
  | false => exact .inr (.inl ⟨hthree, rfl, decode_of_reserved hthree hr⟩)
  | true =>
    obtain hop | hop := cmdOp_zero_or_one w
    · exact .inr (.inr (.inl ⟨v, hv.symm, hop, rfl, decode_of_block hv.symm hop hr⟩))
    · exact .inr (.inr (.inr ⟨v, hv.symm, hop, rfl, decode_of_texel hv.symm hop hr⟩))

theorem decode_eq_illegalVariant {w : Word} : decode w = .error .illegalVariant ↔ cmdVar w = 3 := by
  refine ⟨fun hd => ?_, decode_of_illegalVariant⟩
  obtain ⟨h, _⟩ | ⟨_, _, h⟩ | ⟨v, _, _, _, h⟩ | ⟨v, _, _, _, h⟩ := decode_cases w
  · exact h
  · simp [h] at hd
  · simp [h] at hd
  · simp [h] at hd

/-! ### The round trip -/

/-- The word of a `DBLK` decodes to it, whatever its operands. -/
theorem decode_encodeBlock (v : Variant) (iba : Bool) (h : BitVec 3) :
    decode (encodeBlock v.code iba h) = .ok (blockCommand v iba h) := by
  obtain ⟨hvar, hop, hiba, hheight, hbit7, hx, hy, hhigh⟩ := encodeBlock_fields v.code iba h
  rw [decode_of_block hvar hop ((reservedBitsClear_of_block hop).2 ⟨hbit7, hhigh, hx, hy⟩), hiba, hheight]
  cases iba <;> rfl

/-- The word of a `DTXL` decodes to it, whatever its operands. -/
theorem decode_encodeTexel (v : Variant) (x y : BitVec 2) :
    decode (encodeTexel v.code x y) = .ok (texelCommand v x y) := by
  obtain ⟨hvar, hop, hiba, hheight, hbit7, hx, hy, hhigh⟩ := encodeTexel_fields v.code x y
  rw [decode_of_texel hvar hop ((reservedBitsClear_of_texel hop).2 ⟨hbit7, hhigh, hiba, hheight⟩), hx, hy]

theorem decode_encode (i : Instr) : decode (encode i) = .ok i := by
  obtain ⟨v, iba, h, rfl⟩ | ⟨v, x, y, rfl⟩ := instr_cases i
  · rw [encode_blockCommand, decode_encodeBlock]
  · rw [encode_texelCommand, decode_encodeTexel]

/-- A word that decodes is the word of the command it decodes to: its fields and the clear bits are all of it. -/
theorem eq_encode_of_decode {w : Word} {i : Instr} (hd : decode w = .ok i) : w = encode i := by
  obtain ⟨_, h⟩ | ⟨_, _, h⟩ | ⟨v, hvar, hop, hr, h⟩ | ⟨v, hvar, hop, hr, h⟩ := decode_cases w
  · simp [h] at hd
  · simp [h] at hd
  · obtain rfl := Except.ok.inj (h.symm.trans hd)
    rw [encode_blockCommand, ← hvar, ← eq_encodeBlock hop hr]
  · obtain rfl := Except.ok.inj (h.symm.trans hd)
    rw [encode_texelCommand, ← hvar, ← eq_encodeTexel hop hr]

/-- THE ROUND TRIP, in both directions (30_encoding.md R71, R72). -/
theorem decode_eq_ok {w : Word} {i : Instr} : decode w = .ok i ↔ w = encode i := by
  refine ⟨eq_encode_of_decode, ?_⟩
  rintro rfl
  exact decode_encode i

/-- Settles O1, by the round trip of decoding and encoding. -/
theorem decodeEncodeAgree : Obligations.DecodeEncodeAgree := fun _ _ => decode_eq_ok

/-- Settles O4: seven of the words are those of their commands, and three are rejected. A sanity statement. -/
theorem sampleWordsDecode : Obligations.SampleWordsDecode := by
  refine ⟨decode_eq_ok.2 ?_, decode_eq_ok.2 ?_, decode_eq_ok.2 ?_, decode_eq_ok.2 ?_, decode_eq_ok.2 ?_,
    decode_eq_ok.2 ?_, decode_eq_ok.2 ?_, decode_of_illegalVariant ?_, decode_of_reserved ?_ ?_,
    decode_of_reserved ?_ ?_⟩ <;> decide

/-! ### The words as the assembler gives them -/

theorem toNat_encodeBlock (var : BitVec 2) (iba : Bool) (h : BitVec 3) :
    (encodeBlock var iba h).toNat = (h.toNat <<< 4) ||| (iba.toNat <<< 3) ||| var.toNat := by
  revert var iba h; decide

theorem toNat_encodeTexel (var x y : BitVec 2) :
    (encodeTexel var x y).toNat = (y.toNat <<< 10) ||| (x.toNat <<< 8) ||| 4 ||| var.toNat := by
  revert var x y; decide

/-- Settles O5, from the two formulas for every value of VAR. -/
theorem assemblerWords : Obligations.AssemblerWords :=
  ⟨fun iba h => ⟨toNat_encodeBlock 0 iba h, toNat_encodeBlock 1 iba h, toNat_encodeBlock 2 iba h⟩,
    fun x y => ⟨toNat_encodeTexel 0 x y, toNat_encodeTexel 1 x y, toNat_encodeTexel 2 x y⟩⟩

/-! ### The opcode table (30_encoding.md R72) -/

/-- A mask keeps a field whose bits it has. -/
theorem extractLsb'_and_of_allOnes {m : Word} {start len : Nat} (w : Word)
    (h : m.extractLsb' start len = BitVec.allOnes len) : (w &&& m).extractLsb' start len = w.extractLsb' start len := by
  rw [BitVec.extractLsb'_and, h, BitVec.and_allOnes]

/-- The mask of a `DBLK` row keeps every field but IBA and HEIGHT. -/
theorem and_blockMask_fields (w : Word) :
    cmdVar (w &&& 0xFFFFFF87#32) = cmdVar w ∧ cmdOp (w &&& 0xFFFFFF87#32) = cmdOp w ∧
    cmdBit7 (w &&& 0xFFFFFF87#32) = cmdBit7 w ∧ cmdX (w &&& 0xFFFFFF87#32) = cmdX w ∧
    cmdY (w &&& 0xFFFFFF87#32) = cmdY w ∧ cmdHigh (w &&& 0xFFFFFF87#32) = cmdHigh w := by
  refine ⟨?_, ?_, ?_, ?_, ?_, ?_⟩ <;> exact extractLsb'_and_of_allOnes w (by decide)

/-- The mask of a `DTXL` row keeps every field but X and Y. -/
theorem and_texelMask_fields (w : Word) :
    cmdVar (w &&& 0xFFFFF0FF#32) = cmdVar w ∧ cmdOp (w &&& 0xFFFFF0FF#32) = cmdOp w ∧
    cmdBit7 (w &&& 0xFFFFF0FF#32) = cmdBit7 w ∧ cmdIba (w &&& 0xFFFFF0FF#32) = cmdIba w ∧
    cmdHeight (w &&& 0xFFFFF0FF#32) = cmdHeight w ∧ cmdHigh (w &&& 0xFFFFF0FF#32) = cmdHigh w := by
  refine ⟨?_, ?_, ?_, ?_, ?_, ?_⟩ <;> exact extractLsb'_and_of_allOnes w (by decide)

/-- The match value of a command's row is the command's word with its operands cleared. -/
theorem row_of_blockCommand (v : Variant) (iba : Bool) (h : BitVec 3) :
    encode (blockCommand v iba h) &&& 0xFFFFFF87#32 = encodeBlock v.code false 0 := by
  cases v with
  | a => exact Laws.TableRow.dblkBc1 iba h
  | b => exact Laws.TableRow.dblkBc2 iba h
  | c => exact Laws.TableRow.dblkBc3 iba h

theorem row_of_texelCommand (v : Variant) (x y : BitVec 2) :
    encode (texelCommand v x y) &&& 0xFFFFF0FF#32 = encodeTexel v.code 0 0 := by
  cases v with
  | a => exact Laws.TableRow.dtxlBc1 x y
  | b => exact Laws.TableRow.dtxlBc2 x y
  | c => exact Laws.TableRow.dtxlBc3 x y

/-- A word lies on the row of a `DBLK` exactly when it decodes to that `DBLK` (30_encoding.md R72). -/
theorem blockRow_iff_decode (w : Word) (v : Variant) :
    w &&& 0xFFFFFF87#32 = encodeBlock v.code false 0 ↔ ∃ iba h, decode w = .ok (blockCommand v iba h) := by
  constructor
  · intro hrow
    obtain ⟨hvar, hop, hbit7, hx, hy, hhigh⟩ := and_blockMask_fields w
    obtain ⟨evar, eop, _, _, ebit7, ex, ey, ehigh⟩ := encodeBlock_fields v.code false 0
    rw [hrow] at hvar hop hbit7 hx hy hhigh
    have hop' : cmdOp w = 0 := hop.symm.trans eop
    have hclear : reservedBitsClear w = true := (reservedBitsClear_of_block hop').2
      ⟨hbit7.symm.trans ebit7, hhigh.symm.trans ehigh, hx.symm.trans ex, hy.symm.trans ey⟩
    exact ⟨_, _, decode_of_block (hvar.symm.trans evar) hop' hclear⟩
  · rintro ⟨iba, h, hd⟩
    rw [decode_eq_ok.1 hd, row_of_blockCommand]

/-- A word lies on the row of a `DTXL` exactly when it decodes to that `DTXL` (30_encoding.md R72). -/
theorem texelRow_iff_decode (w : Word) (v : Variant) :
    w &&& 0xFFFFF0FF#32 = encodeTexel v.code 0 0 ↔ ∃ x y, decode w = .ok (texelCommand v x y) := by
  constructor
  · intro hrow
    obtain ⟨hvar, hop, hbit7, hiba, hheight, hhigh⟩ := and_texelMask_fields w
    obtain ⟨evar, eop, eiba, eheight, ebit7, _, _, ehigh⟩ := encodeTexel_fields v.code 0 0
    rw [hrow] at hvar hop hbit7 hiba hheight hhigh
    have hop' : cmdOp w = 1 := hop.symm.trans eop
    have hclear : reservedBitsClear w = true := (reservedBitsClear_of_texel hop').2
      ⟨hbit7.symm.trans ebit7, hhigh.symm.trans ehigh, hiba.symm.trans eiba, hheight.symm.trans eheight⟩
    exact ⟨_, _, decode_of_texel (hvar.symm.trans evar) hop' hclear⟩
  · rintro ⟨x, y, hd⟩
    rw [decode_eq_ok.1 hd, row_of_texelCommand]

/-- A word is rejected exactly when it decodes to no `DBLK` and no `DTXL` of any variant. -/
theorem decode_eq_error (w : Word) :
    (∃ e, decode w = .error e) ↔
      ∀ v, (¬ ∃ iba h, decode w = .ok (blockCommand v iba h)) ∧ ¬ ∃ x y, decode w = .ok (texelCommand v x y) := by
  constructor
  · rintro ⟨e, he⟩ v
    simp [he]
  · intro hnone
    cases hd : decode w with
    | error e => exact ⟨e, rfl⟩
    | ok i =>
      obtain ⟨v, iba, h, rfl⟩ | ⟨v, x, y, rfl⟩ := instr_cases i
      · exact absurd ⟨iba, h, hd⟩ (hnone v).1
      · exact absurd ⟨x, y, hd⟩ (hnone v).2

/-- Settles O2: each row is its command's by `blockRow_iff_decode` and `texelRow_iff_decode`, so a word that is rejected lies on
none of the six. -/
theorem opcodeRowsDecode : Obligations.OpcodeRowsDecode := by
  intro w
  refine ⟨blockRow_iff_decode w .a, blockRow_iff_decode w .b, blockRow_iff_decode w .c, texelRow_iff_decode w .a,
    texelRow_iff_decode w .b, texelRow_iff_decode w .c, decode_eq_illegalVariant.symm, ?_⟩
  simp only [decode_eq_error, ← blockRow_iff_decode, ← texelRow_iff_decode]
  constructor
  · intro hnone
    exact ⟨(hnone .a).1, (hnone .b).1, (hnone .c).1, (hnone .a).2, (hnone .b).2, (hnone .c).2⟩
  · rintro ⟨hb1, hb2, hb3, ht1, ht2, ht3⟩ v
    cases v with
    | a => exact ⟨hb1, ht1⟩
    | b => exact ⟨hb2, ht2⟩
    | c => exact ⟨hb3, ht3⟩

end Sys2Proof.Machine
end

section
/-! SUPPORT. What the host's accesses and `WAIT` do (30_encoding.md R73, R77): a CMD write of a word that issues no command, a
memory access that races with no unit, and the wait for a unit to be idle. -/

namespace Sys2Proof.Machine

/-! ### A CMD write of a word that is no legal command (30_encoding.md R73) -/

/-- A register write is four bytes wide (10_state.md R22). -/
theorem length_of_nextWrites {s : State} {u agent addr : Nat} {r : Reg} {bytes : List Byte}
    (hn : s.nextWrites u r agent addr bytes = true) : bytes.length = 4 := by
  simp only [State.nextWrites, Bool.and_eq_true, beq_iff_eq] at hn
  obtain ⟨_, hreg⟩ := hn
  exact width_of_regNamed hreg

theorem decodeBytes_of_nextWrites {s : State} {u agent addr : Nat} {r : Reg} {bytes : List Byte}
    (hn : s.nextWrites u r agent addr bytes = true) : decodeBytes bytes = decode (wordOfBytes bytes) :=
  if_pos (length_of_nextWrites hn)

/-- A CMD write of a word that does not decode raises its fault on an idle unit. -/
theorem step_of_undecoded_write {s : State} {u agent addr : Nat} {bytes : List Byte} {x : UnitState} {e : DecodeError}
    (hn : s.nextWrites u .cmd agent addr bytes = true) (hx : s.units[u]? = some x) (hb : x.busy = false)
    (hd : decode (wordOfBytes bytes) = .error e) :
    step s = .next (raise (decodeFault e) (.word (wordOfBytes bytes)) s.afterEvent) := by
  rw [step_of_nextWrites hn hx]
  simp [writeReg, writeCmd, decodeBytes_of_nextWrites hn, hd, hb]

/-- The issue of a `DBLK` with an illegal HEIGHT on an idle unit raises F_HEIGHT (42_decode_ops.md R122). -/
theorem issueBlock_of_illegalHeight {u : Nat} {v : Variant} {iba : Bool} {h : BitVec 3} {w : Word} {s : State}
    {x : UnitState} (hx : s.units[u]? = some x) (hb : x.busy = false) (hh : legalHeight h = false) :
    issueBlock u v iba h w s = .next (raise .height (.word w) s) := by
  simp [issueBlock, hx, hb, hh]

/-- A CMD write of a `DBLK` word with an illegal HEIGHT raises F_HEIGHT on an idle unit. -/
theorem step_of_illegalHeight_write {s : State} {u agent addr : Nat} {bytes : List Byte} {x : UnitState} {v : Variant}
    {iba : Bool} {h : BitVec 3} (hn : s.nextWrites u .cmd agent addr bytes = true) (hx : s.units[u]? = some x)
    (hb : x.busy = false) (hd : decode (wordOfBytes bytes) = .ok (blockCommand v iba h)) (hh : legalHeight h = false) :
    step s = .next (raise .height (.word (wordOfBytes bytes)) (s.afterEvent.withTurn (.issue u))) := by
  rw [step_of_decoded_write hn hx ((decodeBytes_of_nextWrites hn).trans hd), exec_blockCommand, withTurn_turn,
    decode_eq_ok.1 hd]
  exact issueBlock_of_illegalHeight hx hb hh

/-- Bits 11 to 7 are Y, X and bit 7 (30_encoding.md R71). -/
theorem fields_of_bits_11_7 {w : Word} (h : w.extractLsb' 7 5 = 0#5) : cmdBit7 w = 0 ∧ cmdX w = 0 ∧ cmdY w = 0 := by
  have hlow : cmdX w ++ cmdBit7 w = w.extractLsb' 7 3 := BitVec.extractLsb'_append_extractLsb'_eq_extractLsb' rfl
  have hfields : cmdY w ++ w.extractLsb' 7 3 = w.extractLsb' 7 5 :=
    BitVec.extractLsb'_append_extractLsb'_eq_extractLsb' rfl
  have hzero : ∀ (y x : BitVec 2) (b : BitVec 1), y ++ (x ++ b) = 0#5 → b = 0 ∧ x = 0 ∧ y = 0 := by decide
  exact hzero _ _ _ (by rw [hlow, hfields, h])

theorem legalHeight_eq_false {h : BitVec 3} : legalHeight h = false ↔ h = 0#3 ∨ h = 5#3 ∨ h = 6#3 ∨ h = 7#3 := by
  revert h; decide

/-- Settles O3: the first two words do not decode, and the third decodes to a `DBLK` whose issue raises F_HEIGHT. -/
theorem reservedWordsFault : Obligations.ReservedWordsFault := by
  rintro s u agent addr bytes x w hn hx hb rfl
  refine ⟨fun hvar => ?_, fun hvar hreserved => ?_, fun hvar hop hmid hhigh hheight => ?_⟩
  · exact step_of_undecoded_write hn hx hb (decode_of_illegalVariant hvar)
  · exact step_of_undecoded_write hn hx hb (decode_of_reserved hvar (reservedBitsClear_eq_false.2 hreserved))
  · obtain ⟨v, hv⟩ := exists_code hvar
    obtain ⟨hbit7, hX, hY⟩ := fields_of_bits_11_7 hmid
    have hclear := (reservedBitsClear_of_block hop).2 ⟨hbit7, hhigh, hX, hY⟩
    exact step_of_illegalHeight_write hn hx hb (decode_of_block hv.symm hop hclear) (legalHeight_eq_false.2 hheight)

/-! ### Host memory accesses that race with no unit (20_memory.md R49, R53) -/

/-- A memory read of usable bytes that no unit blocks answers them. -/
theorem hostMemRead_of_free {agent addr width : Nat} {s : State}
    (hfree : ∀ x ∈ s.units, unitBlocksRead ⟨addr, width⟩ x = false)
    (husable : ∀ i < width, addr + i < 2 ^ s.params.addrBits ∧ usableByte s.params (addr + i) = true) :
    hostMemRead agent addr width s = .next (s.answer agent (.bytes (readBytes s.mem addr width))) := by
  have hany : s.units.any (unitBlocksRead ⟨addr, width⟩) = false := by simpa [List.any_eq_false] using hfree
  rw [hostMemRead, hany]
  exact onUsableMemory_ok husable

/-- A memory write of usable bytes that no unit blocks stores them. -/
theorem hostMemWrite_of_free {agent addr : Nat} {bytes : List Byte} {s : State}
    (hfree : ∀ x ∈ s.units, unitBlocksWrite ⟨addr, bytes.length⟩ x = false)
    (husable : ∀ i < bytes.length, addr + i < 2 ^ s.params.addrBits ∧ usableByte s.params (addr + i) = true) :
    hostMemWrite agent addr bytes s = .next (s.withMem (writeBytes s.mem addr bytes)) := by
  have hany : s.units.any (unitBlocksWrite ⟨addr, bytes.length⟩) = false := by simpa [List.any_eq_false] using hfree
  rw [hostMemWrite, hany]
  exact onUsableMemory_ok husable

/-- No unit blocks a read that meets the write set of no command in flight. -/
theorem unitBlocksRead_eq_false {s : State} {q : ByteRange}
    (h : ∀ (u : Nat) (x : UnitState) (l : InFlight), s.units[u]? = some x → x.busy = true → x.inFlight = some l →
      rangesMeet l.writeSet q = false) : ∀ x ∈ s.units, unitBlocksRead q x = false := by
  intro x hx
  obtain ⟨u, hu⟩ := List.mem_iff_getElem?.1 hx
  by_contra hblocked
  rw [Bool.not_eq_false] at hblocked
  obtain ⟨hb, l, hl, hmeet⟩ := unitBlocksRead_iff.1 hblocked
  simp [h u x l hu hb hl] at hmeet

/-- No unit blocks a write that touches the footprint of no command in flight. -/
theorem unitBlocksWrite_eq_false {s : State} {q : ByteRange}
    (h : ∀ (u : Nat) (x : UnitState) (l : InFlight), s.units[u]? = some x → x.busy = true → x.inFlight = some l →
      l.touches q = false) : ∀ x ∈ s.units, unitBlocksWrite q x = false := by
  intro x hx
  obtain ⟨u, hu⟩ := List.mem_iff_getElem?.1 hx
  by_contra hblocked
  rw [Bool.not_eq_false] at hblocked
  obtain ⟨hb, l, hl, htouch⟩ := unitBlocksWrite_iff.1 hblocked
  simp [h u x l hu hb hl] at htouch

/-- Settles O43: the access passes its race check and finds only usable bytes, so the read answers the bytes of memory and the
write is `writeBytes`. -/
theorem hostMemoryAccesses : Obligations.HostMemoryAccesses := by
  intro s agent addr _ hwf
  refine ⟨fun width hn hw husable hfree => ?_, fun bytes hn hw husable hfree => ?_⟩
  · refine ⟨readBytes s.mem addr width, ?_, length_readBytes .., fun i hi => ?_⟩
    · rw [step_of_memRead hn hw]
      exact hostMemRead_of_free (unitBlocksRead_eq_false hfree) fun i hi => (husable i hi).imp_right usableByte_iff.2
    · rw [List.getElem?_eq_getElem (by simpa using hi), getElem_readBytes]
  · refine ⟨writeBytes s.mem addr bytes, ?_, wf_writeBytes hwf addr bytes, fun i hi => ?_,
      fun a ha => readByte_writeBytes_other s.mem bytes ha⟩
    · rw [step_of_memWrite hn hw]
      exact hostMemWrite_of_free (unitBlocksWrite_eq_false hfree) fun i hi => (husable i hi).imp_right usableByte_iff.2
    · rw [readByte_writeBytes_same hwf addr bytes hi, List.getElem?_eq_getElem hi]

/-! ### `WAIT` (30_encoding.md R77) -/

/-- A `WAIT` on an idle unit reads its STATUS and is past it. -/
theorem step_of_wait_idle {s : State} {agent u : Nat} {x : UnitState} (hn : s.next (.wait agent u) = true)
    (hx : s.units[u]? = some x) (hb : x.busy = false) :
    step s = .next (s.afterEvent.answer agent (.word (statusWord x))) := by
  rw [(step_of_next hn).2]
  simp [runEvent, waitUnit, hx, hb, State.afterEvent]

/-- A `WAIT` on a busy unit finishes the unit's command, and stays the next event (log 12). -/
theorem step_of_wait_busy {s : State} {agent u : Nat} {x : UnitState} {l : InFlight}
    (hn : s.next (.wait agent u) = true) (hx : s.units[u]? = some x) (hb : x.busy = true) (hl : x.inFlight = some l) :
    step s = .next (finish u x l (s.withTurn (.complete u))) := by
  have hx' : (s.withTurn (.complete u)).units[u]? = some x := hx
  rw [(step_of_next hn).2, ← exec_completes rfl hx' hb hl, ← completeUnit_of_busy hx hb hl]
  simp [runEvent, waitUnit, hx, hb]

/-- Whether an event is next depends on the fault record and the events alone. -/
theorem next_congr {s t : State} (hf : t.fault = s.fault) (he : t.events = s.events) (e : Event) :
    t.next e = s.next e := by
  simp only [State.next, hf, he]

/-- A run whose first step has a next state goes on from there. -/
theorem run_succ_of_step {k : Nat} {s t : State} (h : step s = .next t) :
    Host.Core.run core (k + 1) s = Host.Core.run core k t := by
  have hstep : core.step s = .next t := h
  simp only [Host.Core.run, hstep]

/-- Settles O52: an idle unit is waited for in one step; a busy one holds a command by the invariant, which the first step
finishes, and the second step finds it idle. -/
theorem waitEnds : Obligations.WaitEnds := by
  intro s agent u x hi hn hx
  obtain ⟨hf, _⟩ := step_of_next hn
  cases hb : x.busy with
  | false =>
    refine ⟨1, by omega, _, x, run_succ_of_step (step_of_wait_idle hn hx hb), rfl, ?_, hx, hb, rfl⟩
    simpa using hf
  | true =>
    obtain ⟨_, _, _, hok, _⟩ := inv_iff.1 hi
    obtain ⟨_, l, hl, _⟩ := (ok_busy hb).1 (hok u x hx)
    obtain ⟨y, hunits, hidle, _⟩ := finish_units u x l (s.withTurn (.complete u))
    have hy : (finish u x l (s.withTurn (.complete u))).units[u]? = some y := by
      rw [hunits, withTurn_units, List.getElem?_set_self (List.getElem?_eq_some_iff.1 hx).1]
    have hn' : (finish u x l (s.withTurn (.complete u))).next (.wait agent u) = true :=
      (next_congr (finish_fault ..) (finish_events ..) _).trans hn
    refine ⟨2, le_rfl, _, y, (run_succ_of_step (step_of_wait_busy hn hx hb hl)).trans
      (run_succ_of_step (step_of_wait_idle hn' hy hidle)), ?_, ?_, hy, hidle, rfl⟩
    · simp
    · simpa using hf

end Sys2Proof.Machine
end

section
/-! SUPPORT. The fields of a block and the expansions to 8 bits, as arithmetic (30_encoding.md R61 to R65,
40_palette_expansion.md R91, R105). -/

namespace Sys2Proof.Machine

/-! ### Little-endian values (00_scope.md R11) -/

theorem blockLe_two (blk : List Byte) (i : Nat) :
    blockLe blk i 2 = blockByte blk i + 256 * blockByte blk (i + 1) := rfl

theorem blockLe_six (blk : List Byte) (i : Nat) :
    blockLe blk i 6 = blockByte blk i + 2 ^ 8 * blockByte blk (i + 1) + 2 ^ 16 * blockByte blk (i + 2) +
      2 ^ 24 * blockByte blk (i + 3) + 2 ^ 32 * blockByte blk (i + 4) + 2 ^ 40 * blockByte blk (i + 5) := by
  simp only [blockLe, Nat.add_assoc, Nat.reduceAdd]
  omega

/-- A little-endian value is its low bytes and, above them, its high bytes. -/
theorem blockLe_add (blk : List Byte) (i m n : Nat) :
    blockLe blk i (m + n) = blockLe blk (i + m) n * 256 ^ m + blockLe blk i m := by
  induction m generalizing i with
  | zero => simp [blockLe]
  | succ m ih =>
    rw [Nat.succ_add, blockLe, blockLe, ih, Nat.add_right_comm i 1 m, Nat.add_assoc i m 1]
    ring

/-- Bit 0 of a little-endian value is bit 0 of its first byte. -/
theorem blockLe_mod_two (blk : List Byte) (i n : Nat) : blockLe blk i (n + 1) % 2 = blockByte blk i % 2 := by
  rw [blockLe]
  omega

/-! ### The offsets of each layout -/

theorem colorBase_psp {p : Params} (h : p.blockLayout = .psp) (v : Variant) : colorBase p v = 0 := by
  simp [colorBase, h]

theorem colorBase_pc {p : Params} (h : p.blockLayout = .pc) {v : Variant} {c : Nat}
    (hc : (v = .a ∧ c = 0) ∨ (v = .b ∧ c = 8) ∨ (v = .c ∧ c = 8)) : colorBase p v = c := by
  obtain ⟨rfl, rfl⟩ | ⟨rfl, rfl⟩ | ⟨rfl, rfl⟩ := hc <;> simp [colorBase, h]

/-- Settles O6: each field is the little-endian value of its bytes at the offset that its layout gives it. -/
theorem blockFields : Obligations.BlockFields := by
  refine ⟨fun p v blk b hbyte hl => ?psp, fun p v blk b c hbyte hl hc => ?pc⟩
  case psp =>
    obtain rfl : b = blockByte blk := funext hbyte
    simp [blockLine, color1, color2, alphaLine, alphaStream, alpha1, alpha2, hl, colorBase_psp hl, blockLe_two,
      blockLe_six, Nat.add_right_comm]
  case pc =>
    obtain rfl : b = blockByte blk := funext hbyte
    simp [blockLine, color1, color2, alphaLine, alphaStream, alpha1, alpha2, hl, colorBase_pc hl hc, blockLe_two,
      blockLe_six]

/-- Settles O16: the stream is the 6 bytes at byte 8, which are 4 bytes and 2 bytes above them. -/
theorem alphaStreamWords : Obligations.AlphaStreamWords := by
  intro p blk hl
  have hstream : alphaStream p blk = blockLe blk 8 6 := by simp [alphaStream, hl]
  rw [hstream]
  exact ⟨blockLe_add blk 8 4 2, rfl, blockLe_mod_two blk 8 5⟩

/-! ### Channels and expansions -/

/-- A bit field as a quotient and a remainder (00_scope.md R9). -/
theorem bits_eq_div_mod (v hi lo : Nat) : bits v hi lo = v / 2 ^ lo % 2 ^ (hi - lo + 1) := by
  rw [bits, Nat.shiftRight_eq_div_pow]

/-- Bits put below a shifted value are added to it. -/
theorem shiftLeft_or_eq {k b : Nat} (h : b < 2 ^ k) (a : Nat) : a <<< k ||| b = 2 ^ k * a + b := by
  rw [← Nat.shiftLeft_add_eq_or_of_lt h, Nat.shiftLeft_eq, Nat.mul_comm]

theorem expand5_eq {v : Nat} (h : v < 32) : expand5 v = 8 * v + v / 4 := by
  rw [expand5, Nat.shiftRight_eq_div_pow, shiftLeft_or_eq (by omega)]
  omega

theorem expand6_eq {v : Nat} (h : v < 64) : expand6 v = 4 * v + v / 16 := by
  rw [expand6, Nat.shiftRight_eq_div_pow, shiftLeft_or_eq (by omega)]
  omega

theorem expand4_shift4 {p : Params} (h : p.bc2AlphaExpand = .shift4) (n : Nat) : expand4 p n = 16 * n := by
  rw [expand4, h, Nat.shiftLeft_eq, Nat.mul_comm]

theorem expand4_replicate {p : Params} (h : p.bc2AlphaExpand = .replicate) {n : Nat} (hn : n < 16) :
    expand4 p n = 17 * n := by
  simp only [expand4, h]
  rw [shiftLeft_or_eq (by omega)]
  omega

/-- The bit fields of a 16-bit colour (30_encoding.md R65). -/
theorem bits_of_color {c : Nat} (h : c < 2 ^ 16) :
    bits c 4 0 = c % 32 ∧ bits c 10 5 = c / 32 % 64 ∧ bits c 15 11 = c / 2048 := by
  simp only [bits_eq_div_mod]
  omega

/-- Settles O8: a channel is a bit field of the colour, and an expansion adds the value's high bits below the value shifted. -/
theorem channelExpansion : Obligations.ChannelExpansion := by
  refine ⟨fun p c hc => ?_, fun v hv => expand5_eq hv, fun v hv => expand6_eq hv, fun p c => rfl, fun p n hn =>
    ⟨fun hf => expand4_shift4 hf n, fun hf => expand4_replicate hf hn⟩⟩
  obtain ⟨hlow, hmid, hhigh⟩ := bits_of_color hc
  refine ⟨fun hl => ?_, fun hl => ?_⟩ <;> simp only [red5, green6, blue5, hl]
  · exact ⟨hlow, hmid, hhigh⟩
  · exact ⟨hhigh, hmid, hlow⟩

end Sys2Proof.Machine
end

section
/-! SUPPORT. The colour palette and the alpha ramp: what each entry is, its range, and what iba reaches (40_palette_expansion.md
R91 to R104). -/

namespace Sys2Proof.Machine

/-! ### The palette (40_palette_expansion.md R92 to R94) -/

/-- Settles O9: each mode's palette, with the expanded channels of both endpoints put in. -/
theorem paletteEntries : Obligations.PaletteEntries := by
  intro p c1 c2 r1 g1 b1 r2 g2 b2 iba h1 h2
  refine ⟨fun h => ?_, fun h => ?_⟩
  · rw [palette_fourColor h, h1, h2]; rfl
  · rw [palette_threeColor h, h1, h2]; rfl

theorem palette_getD_zero (p : Params) (c1 c2 : Nat) (iba : Bool) :
    (palette p c1 c2 iba).toList.getD 0 0 = (expandColor p c1).word 255 := by
  rcases lt_or_ge c2 c1 with h | h
  · rw [palette_fourColor h]; rfl
  · rw [palette_threeColor h]; rfl

theorem palette_getD_one (p : Params) (c1 c2 : Nat) (iba : Bool) :
    (palette p c1 c2 iba).toList.getD 1 0 = (expandColor p c2).word 255 := by
  rcases lt_or_ge c2 c1 with h | h
  · rw [palette_fourColor h]; rfl
  · rw [palette_threeColor h]; rfl

/-- The transparent-black sentinel of the three-colour palette (40_palette_expansion.md R94). -/
theorem palette_getD_three_of_le {p : Params} {c1 c2 : Nat} (h : c1 ≤ c2) (iba : Bool) :
    (palette p c1 c2 iba).toList.getD 3 0 = if iba then 0xFF000000 else 0x00000000 := by
  rw [palette_threeColor h]
  cases iba <;> rfl

/-! ### Channels of 8 bits (40_palette_expansion.md R91, R97) -/

/-- Each channel of the colour fits 8 bits. -/
structure Rgb.InRange (c : Rgb) : Prop where
  r_le : c.r ≤ 255
  g_le : c.g ≤ 255
  b_le : c.b ≤ 255

theorem expand5_le {v : Nat} (h : v < 32) : expand5 v ≤ 255 := by
  rw [expand5_eq h]
  omega

theorem expand6_le {v : Nat} (h : v < 64) : expand6 v ≤ 255 := by
  rw [expand6_eq h]
  omega

theorem red5_lt (p : Params) (c : Nat) : red5 p c < 32 := by
  rw [red5]
  split <;> exact bits_lt ..

theorem blue5_lt (p : Params) (c : Nat) : blue5 p c < 32 := by
  rw [blue5]
  split <;> exact bits_lt ..

theorem inRange_expandColor (p : Params) (c : Nat) : (expandColor p c).InRange :=
  ⟨expand5_le (red5_lt p c), expand6_le (bits_lt ..), expand5_le (blue5_lt p c)⟩

theorem blendTwoOne_between (a b : Nat) : min a b ≤ blendTwoOne a b ∧ blendTwoOne a b ≤ max a b := by
  rw [blendTwoOne]
  omega

theorem blendOneTwo_between (a b : Nat) : min a b ≤ blendOneTwo a b ∧ blendOneTwo a b ≤ max a b := by
  rw [blendOneTwo]
  omega

theorem average_between (a b : Nat) : min a b ≤ average a b ∧ average a b ≤ max a b := by
  rw [average]
  omega

/-- A blend that stays between its arguments keeps colours in range. -/
theorem inRange_blend {f : Nat → Nat → Nat} (hf : ∀ a b, min a b ≤ f a b ∧ f a b ≤ max a b) {e1 e2 : Rgb}
    (h1 : e1.InRange) (h2 : e2.InRange) : (Rgb.blend f e1 e2).InRange :=
  ⟨(hf ..).2.trans (max_le h1.r_le h2.r_le), (hf ..).2.trans (max_le h1.g_le h2.g_le),
    (hf ..).2.trans (max_le h1.b_le h2.b_le)⟩

/-- The bytes of a colour in range with an alpha are its channels, and the alpha on top. -/
theorem bytesOfWord_word {c : Rgb} (hc : c.InRange) (a : Nat) :
    bytesOfWord (c.word a) = [BitVec.ofNat 8 c.r, BitVec.ofNat 8 c.g, BitVec.ofNat 8 c.b, BitVec.ofNat 8 a] :=
  bytesOfWord_rgba hc.r_le hc.g_le hc.b_le

theorem toNat_bytesOfWord_word {c : Rgb} (hc : c.InRange) {a : Nat} (ha : a ≤ 255) :
    (bytesOfWord (c.word a)).map BitVec.toNat = [c.r, c.g, c.b, a] := by
  have hbyte : ∀ n ≤ 255, (BitVec.ofNat 8 n).toNat = n := fun n hn => Nat.mod_eq_of_lt (by omega)
  rw [bytesOfWord_word hc]
  simp only [List.map, hbyte _ hc.r_le, hbyte _ hc.g_le, hbyte _ hc.b_le, hbyte _ ha]

theorem alpha_word {c : Rgb} (hc : c.InRange) (a : Nat) : (c.word a).extractLsb' 24 8 = BitVec.ofNat 8 a :=
  congrArg (fun bs => bs.getD 3 0) (bytesOfWord_word hc a)

/-- Each entry of a palette is the word of a colour in range and an alpha of 0 or 255. -/
theorem palette_getD_eq_word (p : Params) (c1 c2 : Nat) (iba : Bool) {i : Nat} (hi : i < 4) :
    ∃ (c : Rgb) (a : Nat), c.InRange ∧ (a = 0 ∨ a = 255) ∧ (palette p c1 c2 iba).toList.getD i 0 = c.word a := by
  have h1 := inRange_expandColor p c1
  have h2 := inRange_expandColor p c2
  match i, hi with
  | 0, _ => exact ⟨_, 255, h1, .inr rfl, palette_getD_zero ..⟩
  | 1, _ => exact ⟨_, 255, h2, .inr rfl, palette_getD_one ..⟩
  | 2, _ =>
    rcases lt_or_ge c2 c1 with h | h
    · exact ⟨_, 255, inRange_blend blendTwoOne_between h1 h2, .inr rfl, by rw [palette_fourColor h]; rfl⟩
    · exact ⟨_, 255, inRange_blend average_between h1 h2, .inr rfl, by rw [palette_threeColor h]; rfl⟩
  | 3, _ =>
    rcases lt_or_ge c2 c1 with h | h
    · exact ⟨_, 255, inRange_blend blendOneTwo_between h1 h2, .inr rfl, by rw [palette_fourColor h]; rfl⟩
    · exact ⟨⟨0, 0, 0⟩, if iba then 255 else 0, ⟨by decide, by decide, by decide⟩, by cases iba <;> simp,
        by rw [palette_threeColor h]; rfl⟩

/-- Settles O13: the blends stay between their arguments, so each entry is a word of channels in range. -/
theorem paletteChannelsInRange : Obligations.PaletteChannelsInRange := by
  refine ⟨fun v hv => expand5_le hv, fun v hv => expand6_le hv, fun a b _ _ =>
    ⟨blendTwoOne_between a b, blendOneTwo_between a b, average_between a b⟩, fun p c1 c2 iba i hi => ?_⟩
  obtain ⟨c, a, hc, ha, hentry⟩ := palette_getD_eq_word p c1 c2 iba hi
  have ha' : a ≤ 255 := by omega
  exact ⟨c.r, c.g, c.b, a, hc.r_le, hc.g_le, hc.b_le, ha', hentry, hentry ▸ toNat_bytesOfWord_word hc ha'⟩

/-- Settles O12: the entries of each mode, and the alpha byte of the two endpoint words. -/
theorem paletteLaws : Obligations.PaletteLaws := by
  intro p c1 c2 iba e1 e2 entry h1 h2 hentry
  subst h1 h2
  simp only [hentry]
  refine ⟨fun h => ?_, fun h hiba => ?_, fun h hiba => ?_, ?_, ?_⟩
  · rw [palette_fourColor h]; exact ⟨rfl, rfl⟩
  · rw [palette_getD_three_of_le h, hiba]; rfl
  · rw [palette_getD_three_of_le h, hiba]; rfl
  · rw [palette_getD_zero]; exact alpha_word (inRange_expandColor p c1) 255
  · rw [palette_getD_one]; exact alpha_word (inRange_expandColor p c2) 255

/-! ### What iba reaches (40_palette_expansion.md R95) -/

/-- Only the sentinel of a three-colour palette depends on iba. -/
theorem palette_getD_iba_irrelevant (p : Params) {c1 c2 i : Nat} (h : ¬(c1 ≤ c2 ∧ i = 3)) (iba iba' : Bool) :
    (palette p c1 c2 iba).toList.getD i 0 = (palette p c1 c2 iba').toList.getD i 0 := by
  rcases lt_or_ge c2 c1 with hc | hc
  · rw [palette_fourColor hc, palette_fourColor hc]
  · rw [palette_threeColor hc, palette_threeColor hc]
    match i with
    | 0 | 1 | 2 | _ + 4 => simp [threeColorPalette]
    | 3 => exact absurd ⟨hc, rfl⟩ h

/-- No colour bit of an entry depends on iba: the sentinel is black under either. -/
theorem palette_getD_colour_iba (p : Params) (c1 c2 i : Nat) (iba iba' : Bool) :
    (palette p c1 c2 iba).toList.getD i 0 &&& 0x00FFFFFF = (palette p c1 c2 iba').toList.getD i 0 &&& 0x00FFFFFF := by
  by_cases h : c1 ≤ c2 ∧ i = 3
  · obtain ⟨hc, rfl⟩ := h
    rw [palette_getD_three_of_le hc, palette_getD_three_of_le hc]
    cases iba <;> cases iba' <;> rfl
  · rw [palette_getD_iba_irrelevant p h iba iba']

/-- An alpha put over an entry hides all of the entry that depends on iba. -/
theorem withAlpha_paletteEntry_iba (p : Params) (v : Variant) (blk : List Byte) (x y a : Nat) (iba iba' : Bool) :
    withAlpha a (paletteEntry p v blk x y iba) = withAlpha a (paletteEntry p v blk x y iba') := by
  rw [withAlpha, withAlpha, paletteEntry, paletteEntry, palette_getD_colour_iba p _ _ _ iba iba']

/-- A Variant A texel that selects the sentinel is black, opaque or transparent by iba. -/
theorem texel_a_of_sentinel {p : Params} {blk : List Byte} {x y : Nat} (hc : color1 p .a blk ≤ color2 p .a blk)
    (hi : colorIndex p .a blk x y = 3) (iba : Bool) :
    texel p .a blk x y iba = if iba then 0xFF000000 else 0x00000000 := by
  rw [texel, texelA, paletteEntry, hi, palette_getD_three_of_le hc]

/-- Settles O17: iba reaches the alpha of the sentinel alone, and Variants B and C put their own alpha over it. -/
theorem ibaReachesOnlyVariantA : Obligations.IbaReachesOnlyVariantA := by
  refine ⟨fun p c1 c2 i _ => ⟨palette_getD_colour_iba .., ?_⟩, fun p blk x y hc hi =>
    ⟨texel_a_of_sentinel hc hi true, texel_a_of_sentinel hc hi false⟩, fun p blk x y iba =>
    ⟨withAlpha_paletteEntry_iba .., withAlpha_paletteEntry_iba ..⟩⟩
  refine ⟨fun hne => ?_, fun ⟨hc, hi⟩ => ?_⟩
  · by_contra h
    exact hne (palette_getD_iba_irrelevant p h true false)
  · rw [hi, palette_getD_three_of_le hc, palette_getD_three_of_le hc]
    decide

end Sys2Proof.Machine
end

section
/-! SUPPORT. The alpha ramp: what each entry is, and the bounds of `Lerp` under each `ALPHA_LERP_FORM` (40_palette_expansion.md
R99 to R104). -/

namespace Sys2Proof.Machine

/-! ### The entries of a ramp -/

theorem alphaRamp_getD_zero (p : Params) (a1 a2 : Nat) : (alphaRamp p a1 a2).toList.getD 0 0 = a1 := by
  rcases lt_or_ge a2 a1 with h | h
  · rw [alphaRamp_eight h]; rfl
  · rw [alphaRamp_six h]; rfl

theorem alphaRamp_getD_one (p : Params) (a1 a2 : Nat) : (alphaRamp p a1 a2).toList.getD 1 0 = a2 := by
  rcases lt_or_ge a2 a1 with h | h
  · rw [alphaRamp_eight h]; rfl
  · rw [alphaRamp_six h]; rfl

/-- The interpolated entries of the eight-alpha ramp (40_palette_expansion.md R100). -/
theorem alphaRamp_getD_of_gt (p : Params) {a1 a2 i : Nat} (h : a1 > a2) (h2 : 2 ≤ i) (h7 : i ≤ 7) :
    (alphaRamp p a1 a2).toList.getD i 0 = lerp p a1 a2 (i - 1) 7 := by
  rw [alphaRamp_eight h]
  interval_cases i <;> rfl

/-- The interpolated entries of the six-alpha ramp (40_palette_expansion.md R101). -/
theorem alphaRamp_getD_of_le (p : Params) {a1 a2 i : Nat} (h : a1 ≤ a2) (h2 : 2 ≤ i) (h5 : i ≤ 5) :
    (alphaRamp p a1 a2).toList.getD i 0 = lerp p a1 a2 (i - 1) 5 := by
  rw [alphaRamp_six h]
  interval_cases i <;> rfl

/-- The two constants of the six-alpha ramp (40_palette_expansion.md R101). -/
theorem alphaRamp_getD_six_seven (p : Params) {a1 a2 : Nat} (h : a1 ≤ a2) :
    (alphaRamp p a1 a2).toList.getD 6 0 = 0 ∧ (alphaRamp p a1 a2).toList.getD 7 0 = 255 := by
  rw [alphaRamp_six h]
  exact ⟨rfl, rfl⟩

/-- An interpolated entry of either ramp is a `Lerp` strictly between its ends. -/
theorem alphaRamp_getD_eq_lerp (p : Params) {a1 a2 i : Nat} (h2 : 2 ≤ i) (h : i ≤ 5 ∨ (a1 > a2 ∧ i ≤ 7)) :
    ∃ d, (d = 5 ∨ d = 7) ∧ i - 1 < d ∧ (alphaRamp p a1 a2).toList.getD i 0 = lerp p a1 a2 (i - 1) d := by
  rcases lt_or_ge a2 a1 with hgt | hle
  · exact ⟨7, .inr rfl, by omega, alphaRamp_getD_of_gt p hgt h2 (by omega)⟩
  · exact ⟨5, .inl rfl, by omega, alphaRamp_getD_of_le p hle h2 (by omega)⟩

/-! ### The two forms of `Lerp` (40_palette_expansion.md R102) -/

theorem lerp_productThenDivide {p : Params} (h : p.alphaLerpForm = .productThenDivide) (a1 a2 n d : Nat) :
    lerp p a1 a2 n d = (a1 * ((d - n) * 256) / d + a2 * (n * 256) / d + 31) / 256 := by
  simp only [lerp, h, Nat.shiftLeft_eq, Nat.shiftRight_eq_div_pow, Nat.reducePow]

theorem lerp_weightThenMultiply {p : Params} (h : p.alphaLerpForm = .weightThenMultiply) (a1 a2 n d : Nat) :
    lerp p a1 a2 n d = (a1 * ((d - n) * 256 / d) + a2 * (n * 256 / d) + 31) / 256 := by
  simp only [lerp, h, Nat.shiftLeft_eq, Nat.shiftRight_eq_div_pow, Nat.reducePow]

/-- Settles O10: the entries of each mode, and the two forms with their shifts as multiplication and division. -/
theorem rampEntries : Obligations.RampEntries :=
  ⟨fun p a1 a2 => ⟨alphaRamp_getD_zero .., alphaRamp_getD_one .., fun h i h2 h7 => alphaRamp_getD_of_gt p h h2 h7,
    fun h => ⟨fun i h2 h5 => alphaRamp_getD_of_le p h h2 h5, alphaRamp_getD_six_seven p h⟩⟩, fun p a1 a2 n d =>
    ⟨fun h => lerp_productThenDivide h .., fun h => lerp_weightThenMultiply h ..⟩⟩

/-! ### The range of `Lerp` -/

/-- `Lerp` stays between its endpoints when the division comes last: the 31 makes up for what the two truncations lose, and
adds less than 1. -/
theorem lerp_between {p : Params} (hp : p.alphaLerpForm = .productThenDivide) {a1 a2 n d : Nat} (hn : n < d) :
    min a1 a2 ≤ lerp p a1 a2 n d ∧ lerp p a1 a2 n d ≤ max a1 a2 := by
  obtain ⟨k, rfl⟩ := Nat.exists_eq_add_of_le hn.le
  rw [lerp_productThenDivide hp, Nat.add_sub_cancel_left]
  have hd : 0 < n + k := by omega
  have hlow : min a1 a2 * 256 ≤ a1 * (k * 256) / (n + k) + a2 * (n * 256) / (n + k) + 1 := by
    refine ((Nat.le_div_iff_mul_le hd).2 ?_).trans (Nat.add_div_le_div_add_div_add_one ..)
    calc min a1 a2 * 256 * (n + k) = min a1 a2 * (k * 256) + min a1 a2 * (n * 256) := by ring
      _ ≤ a1 * (k * 256) + a2 * (n * 256) := by gcongr <;> omega
  have hhigh : a1 * (k * 256) / (n + k) + a2 * (n * 256) / (n + k) ≤ max a1 a2 * 256 := by
    refine (Nat.div_add_div_le_add_div ..).trans (Nat.div_le_of_le_mul ?_)
    calc a1 * (k * 256) + a2 * (n * 256) ≤ max a1 a2 * (k * 256) + max a1 a2 * (n * 256) := by gcongr <;> omega
      _ = (n + k) * (max a1 a2 * 256) := by ring
  omega

/-- The two truncated weights of an interpolated entry add up to 255, one less than the 256 of the full weight. -/
theorem weights_add {n d : Nat} (hd : d = 5 ∨ d = 7) (h1 : 1 ≤ n) (hn : n < d) : (d - n) * 256 / d + n * 256 / d = 255 := by
  rcases hd with rfl | rfl <;> interval_cases n <;> rfl

/-- `Lerp` with truncated weights does not reach 255. -/
theorem lerp_weight_le {p : Params} (hp : p.alphaLerpForm = .weightThenMultiply) {a1 a2 n d : Nat} (ha1 : a1 ≤ 255)
    (ha2 : a2 ≤ 255) (hd : d = 5 ∨ d = 7) (h1 : 1 ≤ n) (hn : n < d) : lerp p a1 a2 n d ≤ 254 := by
  have hsum : a1 * ((d - n) * 256 / d) + a2 * (n * 256 / d) ≤ 255 * 255 :=
    calc _ ≤ 255 * ((d - n) * 256 / d) + 255 * (n * 256 / d) := by gcongr
      _ = 255 * 255 := by rw [← Nat.mul_add, weights_add hd h1 hn]
  rw [lerp_weightThenMultiply hp]
  omega

/-- `Lerp` of 8-bit endpoints fits 8 bits under either form. -/
theorem lerp_le {p : Params} {a1 a2 n d : Nat} (ha1 : a1 ≤ 255) (ha2 : a2 ≤ 255) (hd : d = 5 ∨ d = 7) (h1 : 1 ≤ n)
    (hn : n < d) : lerp p a1 a2 n d ≤ 255 := by
  cases hp : p.alphaLerpForm with
  | productThenDivide => exact (lerp_between hp hn).2.trans (max_le ha1 ha2)
  | weightThenMultiply => exact (lerp_weight_le hp ha1 ha2 hd h1 hn).trans (by decide)

/-- Every entry of the ramp of 8-bit endpoints fits 8 bits. -/
theorem alphaRamp_getD_le (p : Params) {a1 a2 i : Nat} (ha1 : a1 ≤ 255) (ha2 : a2 ≤ 255) (hi : i < 8) :
    (alphaRamp p a1 a2).toList.getD i 0 ≤ 255 := by
  by_cases h2 : 2 ≤ i
  · by_cases h : i ≤ 5 ∨ (a1 > a2 ∧ i ≤ 7)
    · obtain ⟨d, hd, hlt, heq⟩ := alphaRamp_getD_eq_lerp p h2 h
      exact heq ▸ lerp_le ha1 ha2 hd (by omega) hlt
    · obtain ⟨h6, h7⟩ := alphaRamp_getD_six_seven p (a1 := a1) (a2 := a2) (by omega)
      obtain rfl | rfl : i = 6 ∨ i = 7 := by omega
      · exact h6.trans_le (by decide)
      · exact h7.le
  · obtain rfl | rfl : i = 0 ∨ i = 1 := by omega
    · rwa [alphaRamp_getD_zero]
    · rwa [alphaRamp_getD_one]

/-- Settles O14: the bounds of `Lerp` under each form, both reached between the endpoints 255 and 255. -/
theorem rampInRange : Obligations.RampInRange := by
  refine ⟨fun p a1 a2 ha1 ha2 i hi => alphaRamp_getD_le p ha1 ha2 hi, fun p a1 a2 n d ha1 ha2 hd h1 hn =>
    ⟨fun _ => lerp_le ha1 ha2 hd h1 hn, fun hp => lerp_weight_le hp ha1 ha2 hd h1 hn⟩, fun p hp => ?_, fun p hp => ?_⟩
  · exact ⟨255, 255, 1, 5, by decide, by decide, .inl rfl, by decide, by decide, by rw [lerp_productThenDivide hp]⟩
  · exact ⟨255, 255, 1, 5, by decide, by decide, .inl rfl, by decide, by decide, by rw [lerp_weightThenMultiply hp]⟩

/-! ### The ramp laws (40_palette_expansion.md R104) -/

theorem alphaRamp_getD_between {p : Params} (hp : p.alphaLerpForm = .productThenDivide) {a1 a2 i : Nat} (h2 : 2 ≤ i)
    (h : i ≤ 5 ∨ (a1 > a2 ∧ i ≤ 7)) :
    min a1 a2 ≤ (alphaRamp p a1 a2).toList.getD i 0 ∧ (alphaRamp p a1 a2).toList.getD i 0 ≤ max a1 a2 := by
  obtain ⟨d, _, hlt, heq⟩ := alphaRamp_getD_eq_lerp p h2 h
  exact heq ▸ lerp_between hp hlt

/-- Entries between equal endpoints have no other value. -/
theorem alphaRamp_getD_of_eq {p : Params} (hp : p.alphaLerpForm = .productThenDivide) (v : Nat) {i : Nat} (h5 : i ≤ 5) :
    (alphaRamp p v v).toList.getD i 0 = v := by
  by_cases h2 : 2 ≤ i
  · obtain ⟨hlow, hhigh⟩ := alphaRamp_getD_between hp (a1 := v) (a2 := v) h2 (.inl h5)
    omega
  · obtain rfl | rfl : i = 0 ∨ i = 1 := by omega
    · exact alphaRamp_getD_zero ..
    · exact alphaRamp_getD_one ..

/-- `Lerp` from 1 to 0 rounds down to 0: a share of 256 below the whole, and 31, stays under 256. -/
theorem alphaRamp_getD_one_zero {p : Params} (hp : p.alphaLerpForm = .productThenDivide) {i : Nat} (h2 : 2 ≤ i)
    (h7 : i ≤ 7) : (alphaRamp p 1 0).toList.getD i 0 = 0 := by
  rw [alphaRamp_getD_of_gt p (by decide) h2 h7, lerp_productThenDivide hp]
  omega

/-- Settles O15: entries lie between the endpoints, which pins them when these are equal. -/
theorem rampLaws : Obligations.RampLaws := by
  intro p hp
  exact ⟨fun a1 a2 _ _ i h2 h => alphaRamp_getD_between hp h2 h, fun v _ =>
    ⟨fun i h5 => alphaRamp_getD_of_eq hp v h5, alphaRamp_getD_six_seven p le_rfl⟩, fun i h2 h7 =>
    alphaRamp_getD_one_zero hp h2 h7⟩

end Sys2Proof.Machine
end

section
/-! SUPPORT. The bits of each texel's index, the word of a texel of each variant, and the range of each index
(41_texel_assembly.md R110 to R116). -/

namespace Sys2Proof.Machine

/-! ### Bit fields (00_scope.md R9) -/

theorem bits_width (v lo n : Nat) : bits v (lo + n) lo = (v >>> lo) % 2 ^ (n + 1) := by
  rw [bits, Nat.add_sub_cancel_left]

theorem testBit_bits (v lo n j : Nat) : (bits v (lo + n) lo).testBit j = (decide (j < n + 1) && v.testBit (lo + j)) := by
  rw [bits_width, Nat.testBit_mod_two_pow, Nat.testBit_shiftRight]

theorem bits_width_lt (v lo n : Nat) : bits v (lo + n) lo < 2 ^ (n + 1) := by
  simpa only [Nat.add_sub_cancel_left] using bits_lt v (lo + n) lo

theorem blockByte_lt (blk : List Byte) (i : Nat) : blockByte blk i < 2 ^ 8 := BitVec.isLt _

/-- Bit `j` of a little-endian value is bit `j mod 8` of its byte `j div 8` (00_scope.md R11). -/
theorem testBit_blockLe (blk : List Byte) (i : Nat) {n j : Nat} (hj : j < 8 * n) :
    (blockLe blk i n).testBit j = (blk.getD (i + j / 8) 0).getLsbD (j % 8) := by
  induction n generalizing i j with
  | zero => omega
  | succ n ih =>
    rw [blockLe, Nat.add_comm, show 256 = 2 ^ 8 from rfl, Nat.testBit_two_pow_mul_add _ (blockByte_lt blk i)]
    by_cases hlow : j < 8
    · rw [if_pos hlow, Nat.div_eq_of_lt hlow, Nat.mod_eq_of_lt hlow]; rfl
    · rw [if_neg hlow, ih (i + 1) (by omega), show i + 1 + (j - 8) / 8 = i + j / 8 by omega, show (j - 8) % 8 = j % 8 by omega]

/-- Settles O7: each index is a bit field of its payload, and bit `j` of the `PSP` stream lies in the `j div 8`-th of the 6
bytes at byte 8. -/
theorem indexBits : Obligations.IndexBits := by
  refine ⟨fun p v blk x y j => ⟨testBit_bits .., testBit_bits .., testBit_bits ..⟩, fun p blk hl j hj => ?_⟩
  have hstream : alphaStream p blk = blockLe blk 8 6 := by simp [alphaStream, hl]
  rw [hstream]
  exact testBit_blockLe blk 8 hj

/-! ### The ranges of the indices (41_texel_assembly.md R116) -/

theorem colorIndex_lt (p : Params) (v : Variant) (blk : List Byte) (x y : Nat) : colorIndex p v blk x y < 4 :=
  bits_width_lt _ _ 1

theorem alphaNibble_lt (p : Params) (blk : List Byte) (x y : Nat) : alphaNibble p blk x y < 16 :=
  bits_width_lt _ _ 3

theorem alphaIndex_lt (p : Params) (blk : List Byte) (x y : Nat) : alphaIndex p blk x y < 8 :=
  bits_width_lt _ _ 2

/-- Settles O19: the indices are bit fields of 2, 4 and 3 bits. -/
theorem selectorsTotal : Obligations.SelectorsTotal := fun p v blk x y =>
  ⟨colorIndex_lt p v blk x y, alphaNibble_lt p blk x y, alphaIndex_lt p blk x y⟩

/-! ### The word of a texel (41_texel_assembly.md R113 to R115) -/

/-- An 8-bit alpha put over a word is the word's top byte, over the word's low 24 bits. -/
theorem toNat_withAlpha {a : Nat} (ha : a ≤ 255) (w : Word) :
    (withAlpha a w).toNat = a * 2 ^ 24 + w.toNat % 2 ^ 24 := by
  have hshift : a <<< 24 < 2 ^ 32 := by rw [Nat.shiftLeft_eq]; omega
  have hmask : w.toNat &&& 0x00FFFFFF = w.toNat % 2 ^ 24 := Nat.and_two_pow_sub_one_eq_mod w.toNat 24
  have halpha : (BitVec.ofNat 32 a).toNat = a := Nat.mod_eq_of_lt (by omega)
  rw [withAlpha, BitVec.toNat_or, BitVec.toNat_shiftLeft, BitVec.toNat_and, halpha, Nat.mod_eq_of_lt hshift,
    show (0x00FFFFFF : Word).toNat = 0x00FFFFFF from rfl, hmask, shiftLeft_or_eq (Nat.mod_lt _ (by decide)), Nat.mul_comm]

/-- An expanded nibble fits 8 bits under either `BC2_ALPHA_EXPAND` (40_palette_expansion.md R105). -/
theorem expand4_le (p : Params) {n : Nat} (hn : n < 16) : expand4 p n ≤ 255 := by
  cases hp : p.bc2AlphaExpand with
  | shift4 => rw [expand4_shift4 hp]; omega
  | replicate => rw [expand4_replicate hp hn]; omega

theorem alpha1_le (p : Params) (blk : List Byte) : alpha1 p blk ≤ 255 := by
  rw [alpha1]
  split <;> exact Nat.le_of_lt_succ (blockByte_lt ..)

theorem alpha2_le (p : Params) (blk : List Byte) : alpha2 p blk ≤ 255 := by
  rw [alpha2]
  split <;> exact Nat.le_of_lt_succ (blockByte_lt ..)

/-- The ramp value of a texel fits 8 bits: its endpoints are bytes. -/
theorem rampEntry_le (p : Params) (blk : List Byte) (x y : Nat) : rampEntry p blk x y ≤ 255 :=
  alphaRamp_getD_le p (alpha1_le p blk) (alpha2_le p blk) (alphaIndex_lt p blk x y)

/-- Settles O11: a texel is its palette entry, for Variants B and C under an alpha that fits the top byte. -/
theorem texelChannels : Obligations.TexelChannels := by
  rintro p v blk x y iba _ rfl
  refine ⟨?_, ?_, ?_⟩ <;> rintro rfl
  · rfl
  · exact toNat_withAlpha (expand4_le p (alphaNibble_lt p blk x y)) _
  · exact toNat_withAlpha (rampEntry_le p blk x y) _

end Sys2Proof.Machine
end

section
/-! SUPPORT. What a completion step writes and returns depends on no more of the state than the block bytes and the record in
flight (41_texel_assembly.md R117, 42_decode_ops.md R129). -/

namespace Sys2Proof.Machine

/-! ### Bytes that two memories share after the same writes -/

/-- A word stored in two memories: a byte of the word, or one that was the same before, is the same after. -/
theorem readByte_writeWord_congr {m m' : Memory} (hm : Memory.wf m = true) (hm' : Memory.wf m' = true) {addr a : Nat}
    (w : Word) (h : readByte m a = readByte m' a ∨ (addr ≤ a ∧ a < addr + 4)) :
    readByte (writeWord m addr w) a = readByte (writeWord m' addr w) a := by
  by_cases hin : addr ≤ a ∧ a < addr + 4
  · obtain ⟨i, rfl⟩ := Nat.exists_eq_add_of_le hin.1
    have hi : i < (bytesOfWord w).length := by rw [length_bytesOfWord]; omega
    rw [readByte_writeWord_same hm addr w hi, readByte_writeWord_same hm' addr w hi]
  · rw [readByte_writeWord_other m w (by omega), readByte_writeWord_other m' w (by omega)]
    exact h.resolve_right hin

/-- The same texels stored in two memories: a byte of some texel, or one that was the same before, is the same after. -/
theorem readByte_writeTexels_congr {m m' : Memory} (hm : Memory.wf m = true) (hm' : Memory.wf m' = true)
    (dst pitch a : Nat) (ts : List ((Nat × Nat) × Word))
    (h : readByte m a = readByte m' a ∨
      ∃ x y w, ((x, y), w) ∈ ts ∧ texelAddr dst pitch x y ≤ a ∧ a < texelAddr dst pitch x y + 4) :
    readByte (writeTexels m dst pitch ts) a = readByte (writeTexels m' dst pitch ts) a := by
  induction ts generalizing m m' with
  | nil => simpa [writeTexels] using h
  | cons t ts ih =>
    obtain ⟨⟨x, y⟩, w⟩ := t
    refine ih (wf_writeWord hm _ w) (wf_writeWord hm' _ w) ?_
    obtain hsame | ⟨x', y', w', hmem, hin⟩ := h
    · exact .inl (readByte_writeWord_congr hm hm' w (.inl hsame))
    · obtain heq | hmem := List.mem_cons.1 hmem
      · obtain ⟨⟨rfl, rfl⟩, rfl⟩ : (x' = x ∧ y' = y) ∧ w' = w := by simpa using heq
        exact .inl (readByte_writeWord_congr hm hm' w' (.inr hin))
      · exact .inr ⟨x', y', w', hmem, hin⟩

/-- A `DBLK`'s writes fix every byte of its write set (20_memory.md R45), whatever the memory held. -/
theorem readByte_writeBlock_congr {m m' : Memory} (hm : Memory.wf m = true) (hm' : Memory.wf m' = true)
    {dst pitch h a : Nat} (f : Nat → Nat → Word) (ha : rangesHave (writeSetOf dst pitch h) a = true) :
    readByte (writeTexels m dst pitch (blockTexels f h)) a = readByte (writeTexels m' dst pitch (blockTexels f h)) a := by
  obtain ⟨y, hy, x, hx, hin⟩ := rangesHave_writeSetOf_texel.1 ha
  exact readByte_writeTexels_congr hm hm' dst pitch a _ (.inr ⟨x, y, f x y, mem_blockTexels.2 ⟨hx, hy, rfl⟩, hin⟩)

/-! ### What finishing a command gives -/

/-- The block of a record depends only on its bytes. -/
theorem blockOf_congr {s s' : State} {l : InFlight}
    (h : ∀ i < blockLen l.variant, readByte s.mem (l.src.toNat + i) = readByte s'.mem (l.src.toNat + i)) :
    blockOf s l = blockOf s' l := readBytes_congr h

/-- The memory after a `DBLK` finishes (42_decode_ops.md R123 to R125). -/
theorem finish_mem_of_block {l : InFlight} {iba : Bool} {h : BitVec 3} {dst pitch : Word}
    (hop : l.op = .block iba h dst pitch) (u : Nat) (x : UnitState) (s : State) :
    (finish u x l s).mem = writeTexels s.mem dst.toNat pitch.toNat
      (blockTexels (fun xx yy => texel s.params l.variant (blockOf s l) xx yy iba) h.toNat) := by
  simp [finish, hop]

/-- The RESULT after a `DTXL` finishes (42_decode_ops.md R126 to R128). -/
theorem result_of_finish {u : Nat} {x y : UnitState} {l : InFlight} {s : State} {xx yy : BitVec 2}
    (hop : l.op = .texel xx yy) (hy : (finish u x l s).units[u]? = some y) :
    y.result = .value (decodeTexelFn s.params l.variant (blockOf s l) xx.toNat yy.toNat) := by
  simp only [finish, hop, setUnit_units, List.getElem?_set_self'] at hy
  obtain ⟨_, _, rfl⟩ := Option.map_eq_some_iff.1 hy
  rfl

/-- Two states that hold the same block have the same bytes in the write set of a legal record once it finishes. -/
theorem readByte_finish_congr {s s' : State} {u : Nat} {x x' : UnitState} {l : InFlight} {a : Nat}
    (hp : s.params = s'.params) (hm : Memory.wf s.mem = true) (hm' : Memory.wf s'.mem = true)
    (hl : l.legal s.params = true) (hblk : blockOf s l = blockOf s' l) (ha : rangesHave l.writeSet a = true) :
    readByte (finish u x l s).mem a = readByte (finish u x' l s').mem a := by
  cases hop : l.op with
  | block iba h dst pitch =>
    rw [(legal_block hl hop).1] at ha
    rw [finish_mem_of_block hop, finish_mem_of_block hop, hp, hblk]
    exact readByte_writeBlock_congr hm hm' _ ha
  | texel xx yy =>
    rw [legal_texel hl hop] at ha
    exact absurd ha (by simp [rangesHave])

/-- A command in flight that takes its completion step finishes. -/
theorem finish_of_flying {s t : State} {u : Nat} {l : InFlight} (ht : s.turn = .complete u) (hf : s.flying u l = true)
    (hn : exec l.command s = .next t) :
    ∃ x, s.units[u]? = some x ∧ x.busy = true ∧ x.inFlight = some l ∧ t = finish u x l s := by
  obtain ⟨x, hx, hb, hl⟩ := flying_iff.1 hf
  exact ⟨x, hx, hb, hl, Host.Outcome.next.inj (hn.symm.trans (exec_completes ht hx hb hl))⟩

/-- Settles O50: both states hold the same block, and finishing the command computes every output from it. -/
theorem outputDependsOnlyOnOperandsAndBlock : Obligations.OutputDependsOnlyOnOperandsAndBlock := by
  intro s1 s2 t1 t2 u l hp hi1 hi2 ht1 ht2 hf1 hf2 hbytes hn1 hn2
  obtain ⟨x1, hx1, hb1, hl1, rfl⟩ := finish_of_flying ht1 hf1 hn1
  obtain ⟨x2, _, _, _, rfl⟩ := finish_of_flying ht2 hf2 hn2
  obtain ⟨hm1, _⟩ := inv_iff.1 hi1
  obtain ⟨hm2, _⟩ := inv_iff.1 hi2
  have hblk : blockOf s1 l = blockOf s2 l := blockOf_congr hbytes
  refine ⟨fun a ha => ?_, fun xx yy y1 y2 hop hy1 hy2 => ?_⟩
  · exact readByte_finish_congr hp hm1 hm2 (legal_of_inv hi1 hx1 hb1 hl1) hblk ha
  · rw [result_of_finish hop hy1, result_of_finish hop hy2, hp, hblk]

end Sys2Proof.Machine
end

section
/-! SUPPORT. Every step keeps the invariant: what each kind of change asks for to keep it, and that each move meets this
(10_state.md R28, R32, R36, 20_memory.md R53). -/

namespace Sys2Proof.Machine

/-! ### What the invariant depends on -/

/-- The invariant speaks of the parameters, the units and memory alone. -/
theorem inv_congr {s t : State} (hp : t.params = s.params) (hu : t.units = s.units) (hm : t.mem = s.mem) :
    t.inv = s.inv := by
  simp only [State.inv, State.raceFree, unitRaces, hp, hu, hm]

theorem inv_of_sameMachine {s q : State} (h : SameMachine s q) (hi : s.inv = true) : q.inv = true :=
  (inv_congr h.params h.units h.mem).trans hi

/-- Memory may be replaced by one that is canonical and inside the address space. -/
theorem inv_withMem {s : State} {m : Memory} (hi : s.inv = true) (hwf : Memory.wf m = true)
    (hs : memInSpace s.params m = true) : (s.withMem m).inv = true := by
  obtain ⟨_, _, hlen, hok, hfree⟩ := inv_iff.1 hi
  exact inv_iff.2 ⟨hwf, hs, hlen, hok, hfree⟩

theorem unitRaces_setUnit_of_ne (s : State) {u v : Nat} (y : UnitState) (readSet : ByteRange)
    (writeSet : List ByteRange) (h : u ≠ v) :
    unitRaces (s.setUnit u y) readSet writeSet v = unitRaces s readSet writeSet v := by
  simp only [unitRaces, setUnit_units, List.getElem?_set_ne h]

/-- A unit of a list in which one was replaced is the new one, or another one as it was. -/
theorem getElem?_set_cases {us : List UnitState} {u v : Nat} {y z : UnitState} (h : (us.set u y)[v]? = some z) :
    (v = u ∧ z = y) ∨ (u ≠ v ∧ us[v]? = some z) := by
  by_cases huv : u = v
  · subst huv
    rw [List.getElem?_set_self'] at h
    obtain ⟨_, _, rfl⟩ := Option.map_eq_some_iff.1 h
    exact .inl ⟨rfl, rfl⟩
  · rw [List.getElem?_set_ne huv] at h
    exact .inr ⟨huv, h⟩

/-- What races with the unit that was replaced races with its new command. -/
theorem footprintsRace_of_unitRaces_setUnit {s : State} {u : Nat} {y : UnitState} {readSet : ByteRange}
    {writeSet : List ByteRange} (h : unitRaces (s.setUnit u y) readSet writeSet u = true) :
    ∃ l, y.inFlight = some l ∧ footprintsRace readSet writeSet l = true := by
  obtain ⟨z, l, hz, _, hl, hfoot⟩ := unitRaces_iff.1 h
  obtain ⟨_, rfl⟩ | ⟨hne, _⟩ := getElem?_set_cases hz
  · exact ⟨l, hl, hfoot⟩
  · exact absurd rfl hne

/-- A unit in an allowed state that holds a command is busy (10_state.md R36). -/
theorem busy_of_inFlight {p : Params} {x : UnitState} {l : InFlight} (hok : x.ok p = true) (hl : x.inFlight = some l) :
    x.busy = true := by
  by_contra hidle
  rw [Bool.not_eq_true] at hidle
  simp [(ok_idle hidle).1 hok] at hl

/-- A unit may be replaced by one in an allowed state whose command, if it holds one, races with no other unit's. -/
theorem inv_setUnit {s : State} {u : Nat} {y : UnitState} (hi : s.inv = true) (hy : y.ok s.params = true)
    (hrace : ∀ l, y.inFlight = some l → ∀ v, u ≠ v → unitRaces s l.readSet l.writeSet v = false) :
    (s.setUnit u y).inv = true := by
  obtain ⟨hwf, hs, hlen, hok, hfree⟩ := inv_iff.1 hi
  refine inv_iff.2 ⟨hwf, hs, by simpa using hlen, fun v z hz => ?_, raceFree_iff.2 fun v z k hz hk w hvw => ?_⟩
  · obtain ⟨_, rfl⟩ | ⟨_, hz'⟩ := getElem?_set_cases hz
    · exact hy
    · exact hok v z hz'
  · obtain ⟨rfl, rfl⟩ | ⟨huv, hz'⟩ := getElem?_set_cases hz
    · rw [unitRaces_setUnit_of_ne s z _ _ hvw]
      exact hrace k hk w hvw
    · by_cases huw : u = w
      · subst huw
        by_contra hr
        rw [Bool.not_eq_false] at hr
        obtain ⟨l, hl, hfoot⟩ := footprintsRace_of_unitRaces_setUnit hr
        have hback : unitRaces s l.readSet l.writeSet v = true :=
          unitRaces_iff.2 ⟨z, k, hz', busy_of_inFlight (hok v z hz') hk, hk, by rw [footprintsRace_comm, hfoot]⟩
        simp [hrace l hl v huv] at hback
      · rw [unitRaces_setUnit_of_ne s y _ _ huw]
        exact raceFree_iff.1 hfree v z k hz' hk w hvw

/-- A unit may be replaced by an idle one that holds no command. -/
theorem inv_setUnit_idle {s : State} {u : Nat} {y : UnitState} (hi : s.inv = true) (hb : y.busy = false)
    (hl : y.inFlight = none) : (s.setUnit u y).inv = true :=
  inv_setUnit hi ((ok_idle hb).2 hl) fun l hl' => by simp [hl] at hl'

/-! ### Memory stays inside the address space (10_state.md R35) -/

theorem memInSpace_writeBytes {p : Params} {m : Memory} (hm : memInSpace p m = true) {addr : Nat} {bytes : List Byte}
    (hs : ∀ i < bytes.length, addr + i < 2 ^ p.addrBits) : memInSpace p (writeBytes m addr bytes) = true :=
  all_writeBytes (test := fun a => decide (a < 2 ^ p.addrBits)) hm bytes fun i hi => by simpa using hs i hi

theorem memInSpace_drawBytes {p : Params} {m : Memory} (hm : memInSpace p m = true) (k : Nat) {as : List Nat}
    (hs : ∀ a ∈ as, a < 2 ^ p.addrBits) : memInSpace p (drawBytes m k as) = true :=
  all_drawBytes (test := fun a => decide (a < 2 ^ p.addrBits)) hm k as fun a ha => by simpa using hs a ha

/-- The writes of a `DBLK` whose rows are admitted stay inside the address space. -/
theorem memInSpace_writeBlock {p : Params} {m : Memory} (hm : memInSpace p m = true) {dst pitch h : Nat}
    (f : Nat → Nat → Word) (ha : ∀ r ∈ writeSetOf dst pitch h, admitted p r = true) :
    memInSpace p (writeTexels m dst pitch (blockTexels f h)) = true := by
  refine all_writeTexels (test := fun a => decide (a < 2 ^ p.addrBits)) hm dst pitch _ fun x y w hmem i hi => ?_
  obtain ⟨hx, hy, _⟩ := mem_blockTexels.1 hmem
  exact decide_eq_true (lt_of_admitted ha (rangesHave_writeSetOf_texel.2 ⟨y, hy, x, hx, by omega, by omega⟩))

/-! ### The record that an issue latches -/

/-- The record of a `DBLK` whose checks pass is legal (42_decode_ops.md R122). -/
theorem legal_blockRecord {s : State} {u : Nat} {v : Variant} {iba : Bool} {h : BitVec 3} {src dst pitch : Word}
    (hh : legalHeight h = true) (hf : blockOperandFault s u v h src dst pitch = none) :
    (blockRecord v iba h src dst pitch).legal s.params = true := by
  obtain ⟨hpitch, hsrc, hdst, hfoot⟩ := blockOperandFault_none.1 hf
  obtain ⟨hread, hwrite, hmeet, _⟩ := footprintFault_none.1 hfoot
  simpa [InFlight.legal, blockRecord, hh, hpitch, hsrc, hdst, hread, hmeet] using hwrite

/-- The record of a `DTXL` whose checks pass is legal (42_decode_ops.md R122). -/
theorem legal_texelRecord {s : State} {u : Nat} {v : Variant} {xx yy : BitVec 2} {src : Word}
    (hf : texelOperandFault s u v src = none) : (texelRecord v xx yy src).legal s.params = true := by
  obtain ⟨hsrc, hfoot⟩ := texelOperandFault_none.1 hf
  obtain ⟨hread, _⟩ := footprintFault_none.1 hfoot
  simp [InFlight.legal, texelRecord, hsrc, hread]

/-- A footprint that raises nothing races with no other unit (20_memory.md R53). -/
theorem not_unitRaces_of_footprintFault {s : State} {u v : Nat} {raceInfo : Nat → FaultInfo} {readSet : ByteRange}
    {writeSet : List ByteRange} {src dst : Nat}
    (hf : footprintFault s (some u) raceInfo readSet writeSet src dst = none) (huv : u ≠ v) :
    unitRaces s readSet writeSet v = false := by
  obtain ⟨_, _, _, hrace⟩ := footprintFault_none.1 hf
  by_contra hr
  rw [Bool.not_eq_false] at hr
  obtain ⟨_, _, hx, _⟩ := unitRaces_iff.1 hr
  simp [hrace v (List.getElem?_eq_some_iff.1 hx).1 (by simpa using huv)] at hr

/-- A unit that has just latched a legal command from its registers is in an allowed state. -/
theorem issued_ok {p : Params} {x : UnitState} {l : InFlight} (hl : l.legal p = true) (hsrc : x.src = .value l.src)
    (hops : ∀ iba h dst pitch, l.op = .block iba h dst pitch → x.dst = .value dst ∧ x.pitch = .value pitch) :
    (x.issued (encode l.command) l).ok p = true := by
  refine (ok_busy rfl).2 ⟨rfl, l, rfl, hl, ?_⟩
  cases hop : l.op with
  | block iba h dst pitch =>
    obtain ⟨hdst, hpitch⟩ := hops iba h dst pitch hop
    simp [UnitState.sourcesKept, hop, hsrc, hdst, hpitch]
  | texel xx yy => simp [UnitState.sourcesKept, hop, hsrc]

/-- An issue keeps the invariant: its checks make the record legal and free of races. -/
theorem inv_issued {s : State} {u : Nat} {x : UnitState} {l : InFlight} (hi : s.inv = true)
    (hsrc : x.src = .value l.src)
    (hl : (∃ v iba h dst pitch, legalHeight h = true ∧ x.dst = .value dst ∧ x.pitch = .value pitch ∧
        l = blockRecord v iba h l.src dst pitch ∧ blockOperandFault s u v h l.src dst pitch = none) ∨
      (∃ v xx yy, l = texelRecord v xx yy l.src ∧ texelOperandFault s u v l.src = none)) :
    (s.setUnit u (x.issued (encode l.command) l)).inv = true := by
  obtain ⟨v, iba, h, dst, pitch, hh, hdst, hpitch, heq, hf⟩ | ⟨v, xx, yy, heq, hf⟩ := hl
  · obtain ⟨_, _, _, hfoot⟩ := blockOperandFault_none.1 hf
    generalize l.src = src at hsrc heq hf hfoot
    subst heq
    refine inv_setUnit hi (issued_ok (legal_blockRecord hh hf) hsrc ?_) ?_
    · rintro _ _ _ _ ⟨⟩
      exact ⟨hdst, hpitch⟩
    · rintro _ ⟨⟩ w huw
      exact not_unitRaces_of_footprintFault hfoot huw
  · obtain ⟨_, hfoot⟩ := texelOperandFault_none.1 hf
    generalize l.src = src at hsrc heq hf hfoot
    subst heq
    refine inv_setUnit hi (issued_ok (legal_texelRecord hf) hsrc ?_) ?_
    · rintro _ _ _ _ ⟨⟩
    · rintro _ ⟨⟩ w huw
      exact not_unitRaces_of_footprintFault hfoot huw

/-! ### The moves -/

/-- The writes of a command that finishes keep the invariant of memory, since its write set is admitted. -/
theorem inv_finish {s : State} {u : Nat} {x : UnitState} {l : InFlight} (hi : s.inv = true)
    (hl : l.legal s.params = true) : (finish u x l s).inv = true := by
  cases hop : l.op with
  | block iba h dst pitch =>
    obtain ⟨hwf, hs, _⟩ := inv_iff.1 hi
    have hrows : ∀ r ∈ writeSetOf dst.toNat pitch.toNat h.toNat, admitted s.params r = true := fun r hr =>
      legal_space hl r (List.mem_cons_of_mem _ ((legal_block hl hop).1 ▸ hr))
    simp only [finish, hop]
    exact inv_setUnit_idle (inv_withMem hi (wf_writeTexels hwf ..) (memInSpace_writeBlock hs _ hrows)) rfl rfl
  | texel xx yy =>
    simp only [finish, hop]
    exact inv_setUnit_idle hi rfl rfl

/-- A `DecodeBlock` call that raises nothing writes admitted rows only. -/
theorem inv_call {s : State} {agent : Nat} {v : Variant} {src dst pitch height : Int} (f : Nat → Nat → Word)
    (hi : s.inv = true) (hf : callBlockFault s agent v src dst pitch height = none) :
    (s.withMem (writeTexels s.mem dst.toNat pitch.toNat (blockTexels f height.toNat))).inv = true := by
  obtain ⟨_, _, _, _, _, hfoot⟩ := callBlockFault_none.1 hf
  obtain ⟨_, hrows, _⟩ := footprintFault_none.1 hfoot
  obtain ⟨hwf, hs, _⟩ := inv_iff.1 hi
  exact inv_withMem hi (wf_writeTexels hwf ..) (memInSpace_writeBlock hs f hrows)

/-- The bytes that a reset leaves open exist: they are rows of a legal command. -/
theorem openBytes_inSpace {s : State} {u : Nat} {x : UnitState} (hi : s.inv = true) (hx : s.units[u]? = some x) :
    ∀ a ∈ openBytes x, a < 2 ^ s.params.addrBits := by
  intro a ha
  obtain ⟨l, hl, hw⟩ := mem_openBytes ha
  obtain ⟨_, _, _, hok, _⟩ := inv_iff.1 hi
  have hlegal := legal_of_inv hi hx (busy_of_inFlight (hok u x hx) hl) hl
  exact lt_of_admitted (fun r hr => legal_space hlegal r (List.mem_cons_of_mem _ hr)) hw

/-- EVERY MOVE KEEPS THE INVARIANT. -/
theorem move_inv {s t : State} (hi : s.inv = true) (hm : Move s t) : t.inv = true := by
  obtain ⟨hwf, hs, _, hok, _⟩ := inv_iff.1 hi
  cases hm with
  | stay h => exact inv_of_sameMachine h hi
  | @fault q h _ code info =>
    rw [inv_congr (s := q) (raise_params ..) (raise_units ..) (raise_mem ..)]
    exact inv_of_sameMachine h hi
  | issue h hx hb hsrc hl => exact inv_issued (inv_of_sameMachine h hi) hsrc hl
  | finish h hx hb hl =>
    exact inv_finish (inv_of_sameMachine h hi) (h.params ▸ legal_of_inv hi hx hb hl)
  | @operand q h u x x' hx hb w hw =>
    have hnone : x.inFlight = none := (ok_idle hb).1 (hok u x hx)
    refine inv_setUnit_idle (inv_of_sameMachine h hi) ?_ ?_ <;> rcases hw with rfl | rfl | rfl <;> assumption
  | memWrite h addr bytes _ hspace =>
    refine inv_withMem (inv_of_sameMachine h hi) (wf_writeBytes hwf addr bytes) ?_
    rw [h.params]
    exact memInSpace_writeBytes hs hspace
  | @answer q h agent d => exact (inv_congr (s := q) rfl rfl rfl).trans (inv_of_sameMachine h hi)
  | @reset q h u x hx =>
    refine inv_setUnit_idle ?_ rfl rfl
    refine (inv_congr (s := q.withMem (drawBytes s.mem s.draws (openBytes x))) rfl rfl rfl).trans ?_
    refine inv_withMem (inv_of_sameMachine h hi) (wf_drawBytes hwf _ _) ?_
    rw [h.params]
    exact memInSpace_drawBytes hs _ (openBytes_inSpace hi hx)
  | @call q h agent v src dst pitch height iba hf =>
    rw [← h.mem]
    exact inv_call _ (inv_of_sameMachine h hi) hf

/-- Settles O48: a step is a move, and every move keeps the invariant and the parameters. -/
theorem stepKeepsTheInvariant : Obligations.StepKeepsTheInvariant := by
  intro s t hi hn
  obtain ⟨_, hm⟩ := step_move hn
  exact ⟨move_inv hi hm, move_params hm⟩

end Sys2Proof.Machine
end

section
/-! SUPPORT. The issue of a command (42_decode_ops.md R122): the fault of each check when the earlier ones pass, and what an issue
that raises none leaves. -/

namespace Sys2Proof.Machine

/-! ### The commands as the statements name them -/

theorem eq_blockCommand {v : Variant} {iba : Bool} {h : BitVec 3} {i : Instr}
    (hi : (v = .a ∧ i = .dblkBc1 iba h) ∨ (v = .b ∧ i = .dblkBc2 iba h) ∨ (v = .c ∧ i = .dblkBc3 iba h)) :
    i = blockCommand v iba h := by
  obtain ⟨rfl, rfl⟩ | ⟨rfl, rfl⟩ | ⟨rfl, rfl⟩ := hi <;> rfl

theorem eq_texelCommand {v : Variant} {xx yy : BitVec 2} {i : Instr}
    (hi : (v = .a ∧ i = .dtxlBc1 xx yy) ∨ (v = .b ∧ i = .dtxlBc2 xx yy) ∨ (v = .c ∧ i = .dtxlBc3 xx yy)) :
    i = texelCommand v xx yy := by
  obtain ⟨rfl, rfl⟩ | ⟨rfl, rfl⟩ | ⟨rfl, rfl⟩ := hi <;> rfl

/-- At a host's CMD write a `DBLK` issues (42_decode_ops.md R122). -/
theorem exec_block_issues {s : State} {u : Nat} (ht : s.turn = .issue u) (v : Variant) (iba : Bool) (h : BitVec 3) :
    exec (blockCommand v iba h) s = issueBlock u v iba h (encode (blockCommand v iba h)) s := by
  rw [exec_blockCommand, ht]

/-- At a host's CMD write a `DTXL` issues (42_decode_ops.md R122). -/
theorem exec_texel_issues {s : State} {u : Nat} (ht : s.turn = .issue u) (v : Variant) (xx yy : BitVec 2) :
    exec (texelCommand v xx yy) s = issueTexel u v xx yy (encode (texelCommand v xx yy)) s := by
  rw [exec_texelCommand, ht]

/-! ### The checks as the rules state them -/

theorem legalHeight_iff {h : BitVec 3} : legalHeight h = true ↔ 1 ≤ h.toNat ∧ h.toNat ≤ 4 := by simp [legalHeight]

theorem pitchBad_iff {h pitch : Nat} : pitchBad h pitch = true ↔ 1 < h ∧ pitch < 4 := by simp [pitchBad]

theorem pitchBad_eq_false {h pitch : Nat} : pitchBad h pitch = false ↔ (1 < h → 4 ≤ pitch) := by simp [pitchBad]

/-- What holds of every row of a write set (20_memory.md R45). -/
theorem forall_mem_writeSetOf {dst pitch h : Nat} {P : ByteRange → Prop} :
    (∀ r ∈ writeSetOf dst pitch h, P r) ↔ ∀ y < h, P ⟨dst + 4 * y * pitch, 16⟩ := by simp [writeSetOf, rowRange]

/-! ### The faults of a footprint, in their order (20_memory.md R46, R47, R53) -/

/-- F_ACCESS for the first range that is not admitted. -/
theorem footprintFault_of_access {s : State} {self : Option Nat} {raceInfo : Nat → FaultInfo} {readSet r : ByteRange}
    {writeSet before after : List ByteRange} {src dst : Nat} (hsplit : readSet :: writeSet = before ++ r :: after)
    (hbefore : ∀ q ∈ before, admitted s.params q = true) (hr : admitted s.params r = false) :
    footprintFault s self raceInfo readSet writeSet src dst = some ⟨.access, .range r⟩ := by
  have hfind : (readSet :: writeSet).find? (fun r => !admitted s.params r) = some r :=
    List.find?_eq_some_iff_append.2 ⟨by simp [hr], before, after, hsplit, fun q hq => by simp [hbefore q hq]⟩
  rw [footprintFault, hfind]

/-- F_OVERLAP for an admitted footprint one row of which meets the block. -/
theorem footprintFault_of_overlap {s : State} {self : Option Nat} {raceInfo : Nat → FaultInfo} {readSet : ByteRange}
    {writeSet : List ByteRange} {src dst : Nat} (ha : ∀ r ∈ readSet :: writeSet, admitted s.params r = true)
    (hm : ∃ r ∈ writeSet, r.meets readSet = true) :
    footprintFault s self raceInfo readSet writeSet src dst = some ⟨.overlap, .overlap src dst⟩ := by
  have hfind : (readSet :: writeSet).find? (fun r => !admitted s.params r) = none :=
    List.find?_eq_none.2 fun r hr => by simp [ha r hr]
  rw [footprintFault, hfind]
  exact if_pos (List.any_eq_true.2 hm)

/-- F_RACE for the first unit that races with a footprint that passes the other checks. -/
theorem footprintFault_of_race {s : State} {self : Option Nat} {raceInfo : Nat → FaultInfo} {readSet : ByteRange}
    {writeSet : List ByteRange} {src dst v : Nat} (ha : ∀ r ∈ readSet :: writeSet, admitted s.params r = true)
    (hm : ∀ r ∈ writeSet, r.meets readSet = false) (hv : self ≠ some v) (hr : unitRaces s readSet writeSet v = true)
    (hfirst : ∀ v' < v, self ≠ some v' → unitRaces s readSet writeSet v' = false) :
    footprintFault s self raceInfo readSet writeSet src dst = some ⟨.race, raceInfo v⟩ := by
  obtain ⟨_, _, hx, _⟩ := unitRaces_iff.1 hr
  have hracing : racingUnit s self readSet writeSet = some v :=
    racingUnit_some.2 ⟨(List.getElem?_eq_some_iff.1 hx).1, hv, hr, hfirst⟩
  rw [footprintFault_of_admitted ha (List.any_eq_false.2 fun r hr => by simp [hm r hr]), hracing]
  rfl

/-- Nothing for an admitted footprint whose rows keep off the block and that no unit in flight conflicts with. -/
theorem footprintFault_of_free {s : State} {self : Option Nat} {raceInfo : Nat → FaultInfo} {readSet : ByteRange}
    {writeSet : List ByteRange} {src dst : Nat} (hread : admitted s.params readSet = true)
    (hrows : ∀ r ∈ writeSet, admitted s.params r = true ∧ r.meets readSet = false)
    (hfree : ∀ (v : Nat) (x : UnitState) (l : InFlight), self ≠ some v → s.units[v]? = some x → x.busy = true →
      x.inFlight = some l → rangesMeet l.writeSet readSet = false ∧ ∀ r ∈ writeSet, l.touches r = false) :
    footprintFault s self raceInfo readSet writeSet src dst = none := by
  refine footprintFault_none.2 ⟨hread, fun r hr => (hrows r hr).1,
    List.any_eq_false.2 fun r hr => by simp [(hrows r hr).2], fun v _ hv => ?_⟩
  by_contra hrace
  rw [Bool.not_eq_false] at hrace
  obtain ⟨x, l, hx, hb, hl, hfoot⟩ := unitRaces_iff.1 hrace
  obtain ⟨hmeet, htouch⟩ := hfree v x l hv hx hb hl
  obtain hfoot | hfoot := Bool.or_eq_true_iff.1 hfoot
  · obtain ⟨r, hr, hrl⟩ := List.any_eq_true.1 hfoot
    simp [htouch r hr] at hrl
  · simp [hmeet] at hfoot

/-! ### The faults of an issue, in their order (42_decode_ops.md R122) -/

section
variable {s : State} {u : Nat} {v : Variant} {iba : Bool} {h : BitVec 3} {xx yy : BitVec 2} {w : Word} {x : UnitState}
  {src dst pitch : Word}

theorem issueBlock_of_busy (hx : s.units[u]? = some x) (hb : x.busy = true) :
    issueBlock u v iba h w s = .next (raise .busy (.busy u .cmd) s) := by
  simp [issueBlock, hx, hb]

theorem issueTexel_of_busy (hx : s.units[u]? = some x) (hb : x.busy = true) :
    issueTexel u v xx yy w s = .next (raise .busy (.busy u .cmd) s) := by
  simp [issueTexel, hx, hb]

theorem issueBlock_of_unwritten_src (hx : s.units[u]? = some x) (hb : x.busy = false) (hh : legalHeight h = true)
    (hsrc : x.src = .unwritten) : issueBlock u v iba h w s = .next (raise .unwritten (.register .src) s) := by
  simp [issueBlock, hx, hb, hh, hsrc, readOperand]

theorem issueBlock_of_unwritten_dst (hx : s.units[u]? = some x) (hb : x.busy = false) (hh : legalHeight h = true)
    (hsrc : x.src = .value src) (hdst : x.dst = .unwritten) :
    issueBlock u v iba h w s = .next (raise .unwritten (.register .dst) s) := by
  simp [issueBlock, hx, hb, hh, hsrc, hdst, readOperand]

theorem issueBlock_of_unwritten_pitch (hx : s.units[u]? = some x) (hb : x.busy = false) (hh : legalHeight h = true)
    (hsrc : x.src = .value src) (hdst : x.dst = .value dst) (hpitch : x.pitch = .unwritten) :
    issueBlock u v iba h w s = .next (raise .unwritten (.register .pitch) s) := by
  simp [issueBlock, hx, hb, hh, hsrc, hdst, hpitch, readOperand]

theorem issueTexel_of_unwritten_src (hx : s.units[u]? = some x) (hb : x.busy = false) (hsrc : x.src = .unwritten) :
    issueTexel u v xx yy w s = .next (raise .unwritten (.register .src) s) := by
  simp [issueTexel, hx, hb, hsrc, readOperand]

theorem blockOperandFault_of_pitch (hp : 1 < h.toNat ∧ pitch.toNat < 4) :
    blockOperandFault s u v h src dst pitch = some ⟨.pitch, .pitch pitch.toNat⟩ := if_pos (pitchBad_iff.2 hp)

theorem blockOperandFault_of_src (hp : 1 < h.toNat → 4 ≤ pitch.toNat) (hsrc : src.toNat % blockLen v ≠ 0) :
    blockOperandFault s u v h src dst pitch = some ⟨.align, .address src.toNat⟩ := by
  simp [blockOperandFault, pitchBad_eq_false.2 hp, hsrc]

theorem blockOperandFault_of_dst (hp : 1 < h.toNat → 4 ≤ pitch.toNat) (hsrc : src.toNat % blockLen v = 0)
    (hdst : dst.toNat % 4 ≠ 0) : blockOperandFault s u v h src dst pitch = some ⟨.align, .address dst.toNat⟩ := by
  simp [blockOperandFault, pitchBad_eq_false.2 hp, hsrc, hdst]

/-- Once PITCH and the alignments pass, what is left of the checks of a `DBLK` is its footprint. -/
theorem blockOperandFault_of_aligned (hp : 1 < h.toNat → 4 ≤ pitch.toNat) (hsrc : src.toNat % blockLen v = 0)
    (hdst : dst.toNat % 4 = 0) :
    blockOperandFault s u v h src dst pitch = footprintFault s (some u) (.units u) (readSetOf v src.toNat)
      (writeSetOf dst.toNat pitch.toNat h.toNat) src.toNat dst.toNat := by
  simp [blockOperandFault, pitchBad_eq_false.2 hp, hsrc, hdst]

theorem texelOperandFault_of_src (hsrc : src.toNat % blockLen v ≠ 0) :
    texelOperandFault s u v src = some ⟨.align, .address src.toNat⟩ := if_pos hsrc

/-- Once SRC is aligned, what is left of the checks of a `DTXL` is its footprint. -/
theorem texelOperandFault_of_aligned (hsrc : src.toNat % blockLen v = 0) :
    texelOperandFault s u v src =
      footprintFault s (some u) (.units u) (readSetOf v src.toNat) [] src.toNat 0 := if_neg (by simp [hsrc])

end

/-- Every command that issues on a busy unit raises F_BUSY, before any other check (60_exceptions.md R143). -/
theorem exec_of_busy {s : State} {u : Nat} {x : UnitState} (ht : s.turn = .issue u) (hx : s.units[u]? = some x)
    (hb : x.busy = true) (i : Instr) : exec i s = .next (raise .busy (.busy u .cmd) s) := by
  obtain ⟨v, iba, h, rfl⟩ | ⟨v, xx, yy, rfl⟩ := instr_cases i
  · rw [exec_block_issues ht, issueBlock_of_busy hx hb]
  · rw [exec_texel_issues ht, issueTexel_of_busy hx hb]

/-- Settles O57: a word that does not decode meets F_BUSY at the register port, and one that decodes meets it at its issue. -/
theorem busyCmdWriteFaults : Obligations.BusyCmdWriteFaults := by
  intro s u agent addr bytes x hn hx hb
  refine ⟨fun e hd => ?_, fun i hd => ?_⟩
  · rw [step_of_nextWrites hn hx]
    simp [writeReg, writeCmd, decodeBytes_of_nextWrites hn, hd, hb]
  · rw [step_of_decoded_write hn hx ((decodeBytes_of_nextWrites hn).trans hd)]
    exact exec_of_busy (withTurn_turn s.afterEvent _) hx hb i

/-- Settles O22: each fault is the one that the first failing check reports. -/
theorem blockOperandFaults : Obligations.BlockOperandFaults := by
  intro s u x v iba h i hi ht hx
  obtain rfl := eq_blockCommand hi
  rw [exec_block_issues ht]
  refine ⟨fun hb => issueBlock_of_busy hx hb, fun hb => ⟨fun hheight => ?_, fun hlo hhi => ?_⟩⟩
  · have hh : legalHeight h = false := by
      rw [← Bool.not_eq_true, legalHeight_iff]
      omega
    exact issueBlock_of_illegalHeight hx hb hh
  have hh : legalHeight h = true := legalHeight_iff.2 ⟨hlo, hhi⟩
  refine ⟨fun hsrc => issueBlock_of_unwritten_src hx hb hh hsrc, fun src hsrc => ?_⟩
  refine ⟨fun hdst => issueBlock_of_unwritten_dst hx hb hh hsrc hdst, fun dst hdst => ?_⟩
  refine ⟨fun hpitch => issueBlock_of_unwritten_pitch hx hb hh hsrc hdst hpitch, fun pitch hpitch => ?_⟩
  refine ⟨fun hbad => ?_, fun hgood => ⟨fun hmis => ?_, fun hal hmis => ?_⟩⟩
  · exact issueBlock_of_operandFault hx hb hh hsrc hdst hpitch (blockOperandFault_of_pitch hbad)
  · exact issueBlock_of_operandFault hx hb hh hsrc hdst hpitch (blockOperandFault_of_src (by omega) hmis)
  · exact issueBlock_of_operandFault hx hb hh hsrc hdst hpitch (blockOperandFault_of_dst (by omega) hal hmis)

/-- Settles O23: the checks before the footprint pass, so the issue raises what the footprint's first failing check reports. -/
theorem blockFootprintFaults : Obligations.BlockFootprintFaults := by
  rintro s u x v iba h src dst pitch _ _ i hi ht hx hb hlo hhi hsrc hdst hpitch hp hal hal4 rfl rfl
  obtain rfl := eq_blockCommand hi
  rw [exec_block_issues ht]
  have raises : ∀ r, footprintFault s (some u) (.units u) (readSetOf v src.toNat)
      (writeSetOf dst.toNat pitch.toNat h.toNat) src.toNat dst.toNat = some r →
      issueBlock u v iba h (encode (blockCommand v iba h)) s = .next (raise r.code r.info s) := fun r hr =>
    issueBlock_of_operandFault hx hb (legalHeight_iff.2 ⟨hlo, hhi⟩) hsrc hdst hpitch
      ((blockOperandFault_of_aligned hp hal hal4).trans hr)
  refine ⟨fun before after r hsplit hbefore hr => ?_, fun hadm => ⟨fun hmeet => ?_, fun hapart u' hne hr hfirst => ?_⟩⟩
  · exact raises _ (footprintFault_of_access hsplit hbefore hr)
  · exact raises _ (footprintFault_of_overlap hadm hmeet)
  · exact raises _ (footprintFault_of_race hadm hapart (by simpa using hne.symm) hr
      fun v' hv' hne' => hfirst v' hv' (by simpa [eq_comm] using hne'))

/-- Settles O24: as for a `DBLK`, with one operand and a footprint of the block alone. -/
theorem texelIssueFaults : Obligations.TexelIssueFaults := by
  intro s u x v xx yy i hi ht hx
  obtain rfl := eq_texelCommand hi
  rw [exec_texel_issues ht]
  refine ⟨fun hb => issueTexel_of_busy hx hb, fun hb => ⟨fun hsrc => issueTexel_of_unwritten_src hx hb hsrc, ?_⟩⟩
  refine fun src hsrc => ⟨fun hmis => ?_, fun hal => ?_⟩
  · exact issueTexel_of_operandFault hx hb hsrc (texelOperandFault_of_src hmis)
  have raises : ∀ r, footprintFault s (some u) (.units u) (readSetOf v src.toNat) [] src.toNat 0 = some r →
      issueTexel u v xx yy (encode (texelCommand v xx yy)) s = .next (raise r.code r.info s) := fun r hr =>
    issueTexel_of_operandFault hx hb hsrc ((texelOperandFault_of_aligned hal).trans hr)
  refine ⟨fun hr => ?_, fun hadm u' hne hr hfirst => ?_⟩
  · exact raises _ (footprintFault_of_access (before := []) rfl (by simp) hr)
  · exact raises _ (footprintFault_of_race (List.forall_mem_singleton.2 hadm) (by simp) (by simpa using hne.symm) hr
      fun v' hv' hne' => hfirst v' hv' (by simpa [eq_comm] using hne'))

/-! ### What an issue leaves -/

/-- Settles O20: every check passes, and the latched record is `blockRecord` of the operands. -/
theorem blockCommandIssues : Obligations.BlockCommandIssues := by
  intro s u x v iba h src dst pitch i hi ht hx hb hlo hhi hsrc hdst hpitch hp hal hal4 hread hrows hfree
  obtain rfl := eq_blockCommand hi
  have hfoot : footprintFault s (some u) (.units u) (readSetOf v src.toNat)
      (writeSetOf dst.toNat pitch.toNat h.toNat) src.toNat dst.toNat = none :=
    footprintFault_of_free hread (forall_mem_writeSetOf.2 hrows) fun u' x' l hne hx' hb' hl =>
      (hfree u' x' l (by simpa [eq_comm] using hne) hx' hb' hl).imp_right forall_mem_writeSetOf.2
  rw [exec_block_issues ht, issueBlock_ok hx hb (legalHeight_iff.2 ⟨hlo, hhi⟩) hsrc hdst hpitch
    ((blockOperandFault_of_aligned hp hal hal4).trans hfoot)]
  rfl

/-- Settles O21: every check passes, and the latched record is `texelRecord` of the operands. -/
theorem texelCommandIssues : Obligations.TexelCommandIssues := by
  intro s u x v xx yy src i hi ht hx hb hsrc hal hread hfree
  obtain rfl := eq_texelCommand hi
  have hfoot : footprintFault s (some u) (.units u) (readSetOf v src.toNat) [] src.toNat 0 = none :=
    footprintFault_of_free hread (by simp) fun u' x' l hne hx' hb' hl =>
      ⟨hfree u' x' l (by simpa [eq_comm] using hne) hx' hb' hl, by simp⟩
  rw [exec_texel_issues ht, issueTexel_ok hx hb hsrc ((texelOperandFault_of_aligned hal).trans hfoot)]
  rfl

end Sys2Proof.Machine
end

section
/-! SUPPORT. The completion step of a command (42_decode_ops.md R123 to R129): what it leaves for each kind of command, that it
raises no fault, and the frame of a command at either of its steps. -/

namespace Sys2Proof.Machine

/-! ### A command that finishes -/

/-- What a `DTXL` that finishes leaves: RESULT holds its texel and the unit is idle. -/
theorem finish_of_texel {l : InFlight} {xx yy : BitVec 2} (hop : l.op = .texel xx yy) (u : Nat) (x : UnitState)
    (s : State) :
    finish u x l s =
      s.setUnit u (x.withResult (texel s.params l.variant (blockOf s l) xx.toNat yy.toNat false)).completed := by
  simp [finish, hop, decodeTexelFn]

/-- A `DTXL` changes no memory. -/
theorem finish_mem_of_texel {l : InFlight} {xx yy : BitVec 2} (hop : l.op = .texel xx yy) (u : Nat) (x : UnitState)
    (s : State) : (finish u x l s).mem = s.mem := by
  rw [finish_of_texel hop, setUnit_mem]

/-- What a `DBLK` that finishes leaves: its texels are in memory and the unit is idle. -/
theorem finish_of_block {l : InFlight} {iba : Bool} {h : BitVec 3} {dst pitch : Word}
    (hop : l.op = .block iba h dst pitch) (u : Nat) (x : UnitState) (s : State) :
    finish u x l s = (s.withMem (finish u x l s).mem).setUnit u x.completed := by
  simp [finish, hop]

/-- The bytes outside the texels of a `DBLK` are kept (20_memory.md R44). -/
theorem readByte_writeBlock_outside (m : Memory) {dst pitch h a : Nat} (f : Nat → Nat → Word)
    (ha : ∀ y < h, ∀ x < 4, a < texelAddr dst pitch x y ∨ texelAddr dst pitch x y + 4 ≤ a) :
    readByte (writeTexels m dst pitch (blockTexels f h)) a = readByte m a :=
  readByte_writeTexels_other m dst pitch a _ fun x y _ hmem =>
    ha y (mem_blockTexels.1 hmem).2.1 x (mem_blockTexels.1 hmem).1

/-- THE COMPLETION STEP OF A `DBLK` OF ANY VARIANT (42_decode_ops.md R123 to R125, R129). -/
theorem exec_block_completes {s : State} {u : Nat} {x : UnitState} {l : InFlight} {iba : Bool} {h : BitVec 3}
    {dst pitch : Word} (ht : s.turn = .complete u) (hx : s.units[u]? = some x) (hb : x.busy = true)
    (hl : x.inFlight = some l) (hop : l.op = .block iba h dst pitch) (hp : 1 < h.toNat → 4 ≤ pitch.toNat)
    (hwf : Memory.wf s.mem = true) :
    ∃ m : Memory,
      exec (blockCommand l.variant iba h) s = .next ((s.withMem m).setUnit u x.completed) ∧
      (∀ y < h.toNat, ∀ xx < 4, readWord m (texelAddr dst.toNat pitch.toNat xx y) =
        texel s.params l.variant (blockOf s l) xx y iba) ∧
      (∀ a : Nat, (∀ y < h.toNat, ∀ xx < 4, a < texelAddr dst.toNat pitch.toNat xx y ∨
        texelAddr dst.toNat pitch.toNat xx y + 4 ≤ a) → readByte m a = readByte s.mem a) := by
  refine ⟨(finish u x l s).mem, ?_, fun y hy xx hxx => ?_, fun a ha => ?_⟩
  · rw [← command_eq_block.2 ⟨rfl, dst, pitch, hop⟩, exec_completes ht hx hb hl, ← finish_of_block hop]
  · rw [finish_mem_of_block hop]
    exact readWord_writeBlock hwf _ (pitchBad_eq_false.2 hp) hxx hy
  · rw [finish_mem_of_block hop]
    exact readByte_writeBlock_outside s.mem _ ha

/-- THE COMPLETION STEP OF A `DTXL` OF ANY VARIANT (42_decode_ops.md R126 to R129). -/
theorem exec_texel_completes {s : State} {u : Nat} {x : UnitState} {l : InFlight} {xx yy : BitVec 2}
    (ht : s.turn = .complete u) (hx : s.units[u]? = some x) (hb : x.busy = true) (hl : x.inFlight = some l)
    (hop : l.op = .texel xx yy) :
    exec (texelCommand l.variant xx yy) s = .next (s.setUnit u
      (x.withResult (texel s.params l.variant (blockOf s l) xx.toNat yy.toNat false)).completed) := by
  rw [← command_eq_texel.2 ⟨rfl, hop⟩, exec_completes ht hx hb hl, finish_of_texel hop]

/-- Settles O25: the completion step of a `DBLK`, for Variant A. -/
theorem dblkBc1Completes : Obligations.DblkBc1Completes := by
  rintro s u x ⟨_, _, src, readSet, writeSet⟩ iba h dst pitch ht hx hb hl rfl rfl hp hwf
  exact exec_block_completes ht hx hb hl rfl hp hwf

/-- Settles O26: the completion step of a `DBLK`, for Variant B. -/
theorem dblkBc2Completes : Obligations.DblkBc2Completes := by
  rintro s u x ⟨_, _, src, readSet, writeSet⟩ iba h dst pitch ht hx hb hl rfl rfl hp hwf
  exact exec_block_completes ht hx hb hl rfl hp hwf

/-- Settles O27: the completion step of a `DBLK`, for Variant C. -/
theorem dblkBc3Completes : Obligations.DblkBc3Completes := by
  rintro s u x ⟨_, _, src, readSet, writeSet⟩ iba h dst pitch ht hx hb hl rfl rfl hp hwf
  exact exec_block_completes ht hx hb hl rfl hp hwf

/-- Settles O28: the completion step of a `DTXL`, for Variant A. -/
theorem dtxlBc1Completes : Obligations.DtxlBc1Completes := by
  rintro s u x ⟨_, _, src, readSet, writeSet⟩ xx yy ht hx hb hl rfl rfl
  exact exec_texel_completes ht hx hb hl rfl

/-- Settles O29: the completion step of a `DTXL`, for Variant B. -/
theorem dtxlBc2Completes : Obligations.DtxlBc2Completes := by
  rintro s u x ⟨_, _, src, readSet, writeSet⟩ xx yy ht hx hb hl rfl rfl
  exact exec_texel_completes ht hx hb hl rfl

/-- Settles O30: the completion step of a `DTXL`, for Variant C. -/
theorem dtxlBc3Completes : Obligations.DtxlBc3Completes := by
  rintro s u x ⟨_, _, src, readSet, writeSet⟩ xx yy ht hx hb hl rfl rfl
  exact exec_texel_completes ht hx hb hl rfl

/-! ### The frame of a command -/

/-- A field that the new unit shares with the one it replaces is the same in every unit. -/
theorem field_of_set {β : Type} (f : UnitState → β) {us : List UnitState} {u v : Nat} {x y a b : UnitState}
    (hx : us[u]? = some x) (hxy : f y = f x) (ha : us[v]? = some a) (hb : (us.set u y)[v]? = some b) : f b = f a := by
  obtain ⟨rfl, rfl⟩ | ⟨_, hb'⟩ := getElem?_set_cases hb
  · obtain rfl := Option.some.inj (hx.symm.trans ha)
    exact hxy
  · rw [Option.some.inj (ha.symm.trans hb')]

/-- Every field of a unit is the same in the same units. -/
theorem field_of_eq {β : Type} (f : UnitState → β) {us vs : List UnitState} {v : Nat} {a b : UnitState}
    (h : vs = us) (ha : us[v]? = some a) (hb : vs[v]? = some b) : f b = f a := by
  rw [h] at hb
  rw [Option.some.inj (ha.symm.trans hb)]

/-- The operand registers of a unit (10_state.md R24 to R26). -/
def UnitState.operands (x : UnitState) : RegCell × RegCell × RegCell := (x.src, x.dst, x.pitch)

theorem operands_eq_iff {x y : UnitState} :
    y.operands = x.operands ↔ y.src = x.src ∧ y.dst = x.dst ∧ y.pitch = x.pitch := by simp [UnitState.operands]

/-- No command changes the parameters, the turn, the events, the reply, the draws or how many units there are. -/
theorem exec_frame {i : Instr} {s t : State} (hn : exec i s = .next t) :
    t.params = s.params ∧ t.turn = s.turn ∧ t.events = s.events ∧ t.reply = s.reply ∧ t.draws = s.draws ∧
      t.units.length = s.units.length := by
  obtain ⟨code, info, rfl⟩ | ⟨u, x, l, _, _, _, _, _, _, rfl⟩ | ⟨u, x, l, _, _, _, _, _, rfl⟩ | rfl := exec_next hn
  · simp
  · simp
  · obtain ⟨y, hunits, _⟩ := finish_units u x l s
    simp [hunits]
  · simp

/-- A command changes no unit but the one whose turn it is. -/
theorem exec_keeps_other_units {i : Instr} {s t : State} (hn : exec i s = .next t) {v : Nat}
    (hi : s.turn ≠ .issue v) (hc : s.turn ≠ .complete v) : t.units[v]? = s.units[v]? := by
  obtain ⟨code, info, rfl⟩ | ⟨u, x, l, ht, _, _, _, _, _, rfl⟩ | ⟨u, x, l, ht, _, _, _, _, rfl⟩ | rfl := exec_next hn
  · rw [raise_units]
  · have huv : u ≠ v := fun h => hi (h ▸ ht)
    rw [setUnit_units, List.getElem?_set_ne huv]
  · have huv : u ≠ v := fun h => hc (h ▸ ht)
    obtain ⟨y, hunits, _⟩ := finish_units u x l s
    rw [hunits, List.getElem?_set_ne huv]
  · rfl

/-- A command changes no operand register (42_decode_ops.md R122, R129). -/
theorem exec_keeps_operands {i : Instr} {s t : State} (hn : exec i s = .next t) {v : Nat} {x y : UnitState}
    (hx : s.units[v]? = some x) (hy : t.units[v]? = some y) : y.operands = x.operands := by
  obtain ⟨code, info, rfl⟩ | ⟨u, z, l, _, hz, _, _, _, _, rfl⟩ | ⟨u, z, l, _, hz, _, _, _, rfl⟩ | rfl := exec_next hn
  · exact field_of_eq UnitState.operands (raise_units ..) hx hy
  · exact field_of_set UnitState.operands (y := z.issued (encode i) l) hz rfl hx hy
  · obtain ⟨z', hunits, _, _, _, _, hsrc, hdst, hpitch⟩ := finish_units u z l s
    rw [hunits] at hy
    exact field_of_set UnitState.operands hz (operands_eq_iff.2 ⟨hsrc, hdst, hpitch⟩) hx hy
  · exact field_of_eq UnitState.operands rfl hx hy

/-- At an issue a command changes neither memory nor any RESULT (42_decode_ops.md R122). -/
theorem exec_issue_keeps {i : Instr} {s t : State} {u : Nat} (ht : s.turn = .issue u) (hn : exec i s = .next t) :
    t.mem = s.mem ∧
      ∀ (v : Nat) (x y : UnitState), s.units[v]? = some x → t.units[v]? = some y → y.result = x.result := by
  obtain ⟨code, info, rfl⟩ | ⟨u', z, l, _, hz, _, _, _, _, rfl⟩ | ⟨u', z, l, ht', _⟩ | rfl := exec_next hn
  · exact ⟨raise_mem .., fun v x y => field_of_eq UnitState.result (raise_units ..)⟩
  · exact ⟨rfl, fun v x y => field_of_set UnitState.result hz rfl⟩
  · simp [ht] at ht'
  · exact ⟨rfl, fun v x y => field_of_eq UnitState.result rfl⟩

/-- WHAT `exec` CAN DO AT A COMPLETION STEP: finish the command in flight, or nothing (42_decode_ops.md R129). -/
theorem exec_complete_next {i : Instr} {s t : State} {u : Nat} (ht : s.turn = .complete u) (hn : exec i s = .next t) :
    t = s ∨ ∃ x l, s.units[u]? = some x ∧ x.inFlight = some l ∧ l.command = i ∧ t = finish u x l s := by
  have hrun : ∃ run, completeWith u i run s = .next t := by
    obtain ⟨v, iba, h, rfl⟩ | ⟨v, xx, yy, rfl⟩ := instr_cases i
    · rw [exec_blockCommand, ht] at hn
      exact ⟨_, hn⟩
    · rw [exec_texelCommand, ht] at hn
      exact ⟨_, hn⟩
  obtain ⟨run, hrun⟩ := hrun
  obtain rfl | ⟨x, l, hx, hb, hl, rfl, _⟩ := completeWith_next hrun
  · exact .inl rfl
  · rw [exec_completes ht hx hb hl] at hn
    exact .inr ⟨x, l, hx, hl, rfl, (Host.Outcome.next.inj hn).symm⟩

/-- At a completion step a command changes neither the fault record nor any CMD (42_decode_ops.md R129). -/
theorem exec_complete_keeps {i : Instr} {s t : State} {u : Nat} (ht : s.turn = .complete u)
    (hn : exec i s = .next t) :
    t.fault = s.fault ∧
      ∀ (v : Nat) (x y : UnitState), s.units[v]? = some x → t.units[v]? = some y → y.cmd = x.cmd := by
  obtain rfl | ⟨z, l, hz, _, _, rfl⟩ := exec_complete_next ht hn
  · exact ⟨rfl, fun v x y => field_of_eq UnitState.cmd rfl⟩
  · obtain ⟨z', hunits, _, _, _, hcmd, _⟩ := finish_units u z l s
    rw [hunits]
    exact ⟨finish_fault .., fun v x y => field_of_set UnitState.cmd hz hcmd⟩

/-- At its completion step a `DBLK` changes no RESULT (10_state.md R27). -/
theorem exec_block_keeps_result {v : Variant} {iba : Bool} {h : BitVec 3} {s t : State} {u w : Nat} {x y : UnitState}
    (ht : s.turn = .complete u) (hn : exec (blockCommand v iba h) s = .next t) (hx : s.units[w]? = some x)
    (hy : t.units[w]? = some y) : y.result = x.result := by
  obtain rfl | ⟨z, l, hz, _, hc, rfl⟩ := exec_complete_next ht hn
  · exact field_of_eq UnitState.result rfl hx hy
  · obtain ⟨_, dst, pitch, hop⟩ := command_eq_block.1 hc
    rw [finish_of_block hop] at hy
    exact field_of_set UnitState.result (y := z.completed) hz rfl hx hy

/-- At its completion step a `DTXL` changes no memory (42_decode_ops.md R126). -/
theorem exec_texel_keeps_mem {v : Variant} {xx yy : BitVec 2} {s t : State} {u : Nat} (ht : s.turn = .complete u)
    (hn : exec (texelCommand v xx yy) s = .next t) : t.mem = s.mem := by
  obtain rfl | ⟨z, l, _, _, hc, rfl⟩ := exec_complete_next ht hn
  · rfl
  · exact finish_mem_of_texel (command_eq_texel.1 hc).2 u z s

/-- At a completion step the bytes outside the latched texels are kept (20_memory.md R44). -/
theorem exec_complete_keeps_outside {i : Instr} {s t : State} {u a : Nat} {x : UnitState} {l : InFlight} {iba : Bool}
    {h : BitVec 3} {dst pitch : Word} (ht : s.turn = .complete u) (hn : exec i s = .next t)
    (hx : s.units[u]? = some x) (hl : x.inFlight = some l) (hop : l.op = .block iba h dst pitch)
    (ha : ∀ y < h.toNat, ∀ xx < 4, a < texelAddr dst.toNat pitch.toNat xx y ∨
      texelAddr dst.toNat pitch.toNat xx y + 4 ≤ a) : readByte t.mem a = readByte s.mem a := by
  obtain rfl | ⟨z, k, hz, hk, _, rfl⟩ := exec_complete_next ht hn
  · rfl
  · obtain rfl := Option.some.inj (hz.symm.trans hx)
    obtain rfl := Option.some.inj (hk.symm.trans hl)
    rw [finish_mem_of_block hop]
    exact readByte_writeBlock_outside s.mem _ ha

/-- Settles O31: the frame of both steps, of an issue and of a completion step. -/
theorem commandFrame : Obligations.CommandFrame := by
  intro i s t hn
  obtain ⟨hparams, hturn, hevents, hreply, hdraws, hlen⟩ := exec_frame hn
  refine ⟨hparams, hturn, hevents, hreply, hdraws, hlen, fun v => exec_keeps_other_units hn,
    fun v x y hx hy => operands_eq_iff.1 (exec_keeps_operands hn hx hy), fun u ht => exec_issue_keeps ht hn, fun u ht => ?_⟩
  obtain ⟨hfault, hcmd⟩ := exec_complete_keeps ht hn
  refine ⟨hfault, fun v x y hx hy => ⟨hcmd v x y hx hy, ?result⟩, ?mem,
    fun x l iba h dst pitch hx hl hop a => exec_complete_keeps_outside ht hn hx hl hop⟩
  case result =>
    rintro ⟨iba, h, rfl | rfl | rfl⟩
    · exact exec_block_keeps_result (v := .a) ht hn hx hy
    · exact exec_block_keeps_result (v := .b) ht hn hx hy
    · exact exec_block_keeps_result (v := .c) ht hn hx hy
  case mem =>
    rintro ⟨xx, yy, rfl | rfl | rfl⟩
    · exact exec_texel_keeps_mem (v := .a) ht hn
    · exact exec_texel_keeps_mem (v := .b) ht hn
    · exact exec_texel_keeps_mem (v := .c) ht hn

/-! ### A unit's own step (42_decode_ops.md R129) -/

/-- A busy unit's own step finishes its command. -/
theorem step_of_complete_busy {s : State} {u : Nat} {x : UnitState} {l : InFlight} (hn : s.next (.complete u) = true)
    (hx : s.units[u]? = some x) (hb : x.busy = true) (hl : x.inFlight = some l) :
    step s = .next (finish u x l (s.afterEvent.withTurn (.complete u))) := by
  rw [stepRunsTheDecodedCommand.2 s u x l hn hx hb hl]
  exact exec_completes (withTurn_turn s.afterEvent _) hx hb hl

/-- An idle unit's own step is not enabled, and only its event is used up (log 7, log 12). -/
theorem step_of_complete_idle {s : State} {u : Nat} {x : UnitState} (hn : s.next (.complete u) = true)
    (hx : s.units[u]? = some x) (hb : x.busy = false) : step s = .next s.afterEvent := by
  rw [(step_of_next hn).2]
  simp [runEvent, completeUnit, hx, hb, State.afterEvent]

/-- Settles O35: a busy unit holds a command by the invariant, and finishing it records no fault. -/
theorem completionRaisesNoFault : Obligations.CompletionRaisesNoFault := by
  intro s u x hn hi hx
  refine ⟨fun hb => ?_, step_of_complete_idle hn hx⟩
  obtain ⟨hf, _⟩ := step_of_next hn
  obtain ⟨_, _, _, hok, _⟩ := inv_iff.1 hi
  obtain ⟨_, l, hl, _⟩ := (ok_busy hb).1 (hok u x hx)
  obtain ⟨y, hunits, hidle, hdone, hnone, _⟩ := finish_units u x l (s.afterEvent.withTurn (.complete u))
  refine ⟨_, y, step_of_complete_busy hn hx hb hl, (finish_fault ..).trans hf, ?_, hidle, hdone, hnone⟩
  rw [hunits]
  exact List.getElem?_set_self (List.getElem?_eq_some_iff.1 hx).1

end Sys2Proof.Machine
end

section
/-! SUPPORT. The call level (42_decode_ops.md R132): the fault of each check of a call when the earlier ones pass, and what a call
that raises none does. -/

namespace Sys2Proof.Machine

section
variable {s : State} {agent : Nat} {tag src dst pitch height x y : Int} {iba : Bool} {v : Variant} {r : FaultRecord}

/-! ### The step of a call, by its variant and its first fault -/

theorem step_of_callBlock_illegalVariant (hn : s.next (.callBlock agent tag src dst pitch height iba) = true)
    (hv : callVariant tag = none) : step s = .next (raise .illegalVariant (.callVariant tag) s.afterEvent) := by
  rw [(step_of_next hn).2]
  simp [runEvent, callBlock, hv, State.afterEvent]

theorem step_of_callTexel_illegalVariant (hn : s.next (.callTexel agent tag src x y) = true)
    (hv : callVariant tag = none) : step s = .next (raise .illegalVariant (.callVariant tag) s.afterEvent) := by
  rw [(step_of_next hn).2]
  simp [runEvent, callTexel, hv, State.afterEvent]

theorem step_of_callBlock_fault (hn : s.next (.callBlock agent tag src dst pitch height iba) = true)
    (hv : callVariant tag = some v) (hf : callBlockFault s.afterEvent agent v src dst pitch height = some r) :
    step s = .next (raise r.code r.info s.afterEvent) := by
  rw [State.afterEvent] at hf ⊢
  rw [(step_of_next hn).2]
  simp [runEvent, callBlock, hv, hf]

theorem step_of_callTexel_fault (hn : s.next (.callTexel agent tag src x y) = true)
    (hv : callVariant tag = some v) (hf : callTexelFault s.afterEvent agent v src x y = some r) :
    step s = .next (raise r.code r.info s.afterEvent) := by
  rw [State.afterEvent] at hf ⊢
  rw [(step_of_next hn).2]
  simp [runEvent, callTexel, hv, hf]

/-- A `DecodeBlock` call that raises nothing writes the texels of its rows. -/
theorem step_of_callBlock (hn : s.next (.callBlock agent tag src dst pitch height iba) = true)
    (hv : callVariant tag = some v) (hf : callBlockFault s.afterEvent agent v src dst pitch height = none) :
    step s = .next (s.afterEvent.withMem (writeTexels s.mem dst.toNat pitch.toNat
      (blockTexels (fun xx yy => texel s.params v (readBytes s.mem src.toNat (blockLen v)) xx yy iba)
        height.toNat))) := by
  rw [State.afterEvent] at hf ⊢
  rw [(step_of_next hn).2]
  simp [runEvent, callBlock, hv, hf, decodeBlockFn]

/-- A `DecodeTexel` call that raises nothing answers the texel with iba = 0 (42_decode_ops.md R121). -/
theorem step_of_callTexel (hn : s.next (.callTexel agent tag src x y) = true) (hv : callVariant tag = some v)
    (hf : callTexelFault s.afterEvent agent v src x y = none) :
    step s = .next (s.afterEvent.answer agent
      (.word (texel s.params v (readBytes s.mem src.toNat (blockLen v)) x.toNat y.toNat false))) := by
  rw [State.afterEvent] at hf ⊢
  rw [(step_of_next hn).2]
  simp [runEvent, callTexel, hv, hf, decodeTexelFn]

/-! ### The faults of a call, in their order (log 14) -/

theorem callBlockFault_of_height (hh : height < 1 ∨ 4 < height) :
    callBlockFault s agent v src dst pitch height = some ⟨.height, .callHeight height⟩ := if_pos hh

theorem callBlockFault_of_pitch (hh : 1 ≤ height ∧ height ≤ 4) (hp : 1 < height ∧ pitch < 4) :
    callBlockFault s agent v src dst pitch height = some ⟨.pitch, .pitch pitch⟩ := by
  rw [callBlockFault, if_neg (by omega), if_pos hp]

theorem callBlockFault_of_src (hh : 1 ≤ height ∧ height ≤ 4) (hp : 1 < height → 4 ≤ pitch)
    (hsrc : src % (blockLen v : Int) ≠ 0) :
    callBlockFault s agent v src dst pitch height = some ⟨.align, .address src⟩ := by
  rw [callBlockFault, if_neg (by omega), if_neg (by omega), if_pos hsrc]

theorem callBlockFault_of_dst (hh : 1 ≤ height ∧ height ≤ 4) (hp : 1 < height → 4 ≤ pitch)
    (hsrc : src % (blockLen v : Int) = 0) (hdst : dst % 4 ≠ 0) :
    callBlockFault s agent v src dst pitch height = some ⟨.align, .address dst⟩ := by
  rw [callBlockFault, if_neg (by omega), if_neg (by omega), if_neg (not_not.2 hsrc), if_pos hdst]

/-- An operand outside the address space, once the alignments pass. -/
theorem callBlockFault_of_misfit {o : Int} (hh : 1 ≤ height ∧ height ≤ 4) (hp : 1 < height → 4 ≤ pitch)
    (hsrc : src % (blockLen v : Int) = 0) (hdst : dst % 4 = 0)
    (ho : operandMisfit s.params [src, dst, pitch] = some o) :
    callBlockFault s agent v src dst pitch height = some ⟨.access, .operand o⟩ := by
  rw [callBlockFault, if_neg (by omega), if_neg (by omega), if_neg (not_not.2 hsrc), if_neg (not_not.2 hdst), ho]

/-- Once every operand fits, what is left of the checks of a `DecodeBlock` call is its footprint. -/
theorem callBlockFault_of_fits (hh : 1 ≤ height ∧ height ≤ 4) (hp : 1 < height → 4 ≤ pitch)
    (hsrc : src % (blockLen v : Int) = 0) (hdst : dst % 4 = 0)
    (hfit : operandMisfit s.params [src, dst, pitch] = none) :
    callBlockFault s agent v src dst pitch height = footprintFault s none (.agentUnit agent) (readSetOf v src.toNat)
      (writeSetOf dst.toNat pitch.toNat height.toNat) src.toNat dst.toNat := by
  rw [callBlockFault, if_neg (by omega), if_neg (by omega), if_neg (not_not.2 hsrc), if_neg (not_not.2 hdst), hfit]

theorem callTexelFault_of_coord (hxy : x < 0 ∨ 3 < x ∨ y < 0 ∨ 3 < y) :
    callTexelFault s agent v src x y = some ⟨.coord, .coord x y⟩ := if_pos hxy

theorem callTexelFault_of_src (hxy : (0 ≤ x ∧ x ≤ 3) ∧ 0 ≤ y ∧ y ≤ 3) (hsrc : src % (blockLen v : Int) ≠ 0) :
    callTexelFault s agent v src x y = some ⟨.align, .address src⟩ := by
  rw [callTexelFault, if_neg (by omega), if_pos hsrc]

/-- An operand outside the address space, once it is aligned. -/
theorem callTexelFault_of_misfit {o : Int} (hxy : (0 ≤ x ∧ x ≤ 3) ∧ 0 ≤ y ∧ y ≤ 3)
    (hsrc : src % (blockLen v : Int) = 0) (ho : operandMisfit s.params [src] = some o) :
    callTexelFault s agent v src x y = some ⟨.access, .operand o⟩ := by
  rw [callTexelFault, if_neg (by omega), if_neg (not_not.2 hsrc), ho]

/-- Once the operand fits, what is left of the checks of a `DecodeTexel` call is its footprint. -/
theorem callTexelFault_of_fits (hxy : (0 ≤ x ∧ x ≤ 3) ∧ 0 ≤ y ∧ y ≤ 3) (hsrc : src % (blockLen v : Int) = 0)
    (hfit : operandMisfit s.params [src] = none) :
    callTexelFault s agent v src x y =
      footprintFault s none (.agentUnit agent) (readSetOf v src.toNat) [] src.toNat 0 := by
  rw [callTexelFault, if_neg (by omega), if_neg (not_not.2 hsrc), hfit]

end

/-! ### Operands (42_decode_ops.md R132) -/

/-- The numbers 0, 1 and 2 are a variant's. -/
theorem exists_callVariant {tag : Int} (h0 : 0 ≤ tag) (h2 : tag ≤ 2) : ∃ v, callVariant tag = some v := by
  refine Option.ne_none_iff_exists'.1 fun hnone => ?_
  have := callVariant_eq_none.1 hnone
  omega

/-- An operand that does not fit makes the check report one of the operands. -/
theorem exists_operandMisfit {p : Params} {vs : List Int} {o : Int} (ho : o ∈ vs)
    (hout : o < 0 ∨ (2 ^ p.addrBits : Nat) ≤ o) : ∃ o' ∈ vs, operandMisfit p vs = some o' := by
  obtain ⟨o', ho'⟩ : ∃ o', operandMisfit p vs = some o' := by
    refine Option.ne_none_iff_exists'.1 fun hnone => ?_
    have := operandMisfit_eq_none.1 hnone o ho
    omega
  exact ⟨o', (operandMisfit_some ho').1, ho'⟩

/-- Natural numbers below 2^ADDR_BITS fit. -/
theorem operandMisfit_natCast {p : Params} (ns : List Nat) (h : ∀ n ∈ ns, n < 2 ^ p.addrBits) :
    operandMisfit p (ns.map Nat.cast) = none := by
  refine operandMisfit_eq_none.2 fun o ho => ?_
  obtain ⟨n, hn, rfl⟩ := List.mem_map.1 ho
  exact ⟨Int.natCast_nonneg n, Int.ofNat_lt.2 (h n hn)⟩

/-- Settles O56: each fault is the one that the first failing check reports. -/
theorem callOperandFaults : Obligations.CallOperandFaults := by
  refine ⟨fun s agent tag src dst pitch height iba hn => ?block, fun s agent tag src xx yy hn => ?texel⟩
  case block =>
    refine ⟨fun htag => step_of_callBlock_illegalVariant hn (callVariant_eq_none.2 htag), fun h0 h2 hh => ?_,
      fun v hv hlo hhi hp hsrc hdst hout => ?_⟩
    · obtain ⟨v, hv⟩ := exists_callVariant h0 h2
      exact step_of_callBlock_fault hn hv (callBlockFault_of_height hh)
    · have hsome : ∃ o ∈ [src, dst, pitch], o < 0 ∨ (2 ^ s.params.addrBits : Nat) ≤ o := by simpa [or_assoc] using hout
      obtain ⟨_, hmem, hbad⟩ := hsome
      obtain ⟨o, ho, hmis⟩ := exists_operandMisfit (p := s.afterEvent.params) hmem hbad
      exact ⟨o, by simpa using ho, step_of_callBlock_fault hn (callVariant_eq_some.2 hv)
        (callBlockFault_of_misfit ⟨hlo, hhi⟩ hp hsrc hdst hmis)⟩
  case texel =>
    refine ⟨fun htag => step_of_callTexel_illegalVariant hn (callVariant_eq_none.2 htag), fun h0 h2 hxy => ?_,
      fun v hv hx0 hx3 hy0 hy3 hsrc hout => ?_⟩
    · obtain ⟨v, hv⟩ := exists_callVariant h0 h2
      exact step_of_callTexel_fault hn hv (callTexelFault_of_coord hxy)
    · obtain ⟨o, ho, hmis⟩ := exists_operandMisfit (p := s.afterEvent.params) (List.mem_singleton_self src) hout
      obtain rfl := List.mem_singleton.1 ho
      exact step_of_callTexel_fault hn (callVariant_eq_some.2 hv)
        (callTexelFault_of_misfit ⟨⟨hx0, hx3⟩, hy0, hy3⟩ hsrc hmis)

/-- Settles O59: each fault is the one that the first failing check reports; once the operands fit, that of the footprint. -/
theorem blockCallFaults : Obligations.BlockCallFaults := by
  intro s agent v tag src dst pitch height iba hn hv hlo hhi
  have hh : 1 ≤ (height : Int) ∧ (height : Int) ≤ 4 := by omega
  have raises := fun r => step_of_callBlock_fault (r := r) hn (callVariant_eq_some.2 hv)
  refine ⟨fun hrows hp => raises _ (callBlockFault_of_pitch hh (by omega)), fun hrows => ?_⟩
  have hp : 1 < (height : Int) → 4 ≤ pitch := by omega
  refine ⟨fun hmis => raises _ (callBlockFault_of_src hh hp hmis),
    fun hal hmis => raises _ (callBlockFault_of_dst hh hp hal hmis), ?_⟩
  rintro hal hal4 a b c _ _ rfl rfl rfl ha hb hc rfl rfl
  have hfit : operandMisfit s.afterEvent.params [(a : Int), b, c] = none :=
    operandMisfit_natCast [a, b, c] (by simp [ha, hb, hc])
  have hfoot := callBlockFault_of_fits (agent := agent) hh hp hal hal4 hfit
  simp only [Int.toNat_natCast] at hfoot
  refine ⟨fun before after r hsplit hbefore hr => ?_, fun hadm => ⟨fun hmeet => ?_, fun hapart u hr hfirst => ?_⟩⟩
  · exact raises _ (hfoot.trans (footprintFault_of_access hsplit hbefore hr))
  · exact raises _ (hfoot.trans (footprintFault_of_overlap hadm hmeet))
  · exact raises _ (hfoot.trans (footprintFault_of_race hadm hapart (by simp) hr fun u' hu' _ => hfirst u' hu'))

/-- Settles O60: as for `DecodeBlock`, with a footprint of the block alone. -/
theorem texelCallFaults : Obligations.TexelCallFaults := by
  intro s agent v tag src xx yy hn hv hx hy
  have hxy : (0 ≤ (xx : Int) ∧ (xx : Int) ≤ 3) ∧ 0 ≤ (yy : Int) ∧ (yy : Int) ≤ 3 := by omega
  have raises := fun r => step_of_callTexel_fault (r := r) hn (callVariant_eq_some.2 hv)
  refine ⟨fun hmis => raises _ (callTexelFault_of_src hxy hmis), ?_⟩
  rintro hal a rfl ha
  have hfit : operandMisfit s.afterEvent.params [(a : Int)] = none :=
    operandMisfit_natCast [a] (List.forall_mem_singleton.2 ha)
  have hfoot := callTexelFault_of_fits (agent := agent) hxy hal hfit
  rw [Int.toNat_natCast] at hfoot
  refine ⟨fun hr => ?_, fun hadm u hr hfirst => ?_⟩
  · exact raises _ (hfoot.trans (footprintFault_of_access (before := []) rfl (by simp) hr))
  · exact raises _ (hfoot.trans (footprintFault_of_race (List.forall_mem_singleton.2 hadm) (by simp) (by simp) hr
      fun u' hu' _ => hfirst u' hu'))

/-- Settles O54: every check passes, and the writes are those of the variant's texels. -/
theorem decodeBlockCallWrites : Obligations.DecodeBlockCallWrites := by
  intro s agent v tag src dst pitch height iba hn hwf hv hlo hhi hp hal hal4 hsrc hdst hpitch hread hrows hfree
  have hfit : operandMisfit s.afterEvent.params [(src : Int), dst, pitch] = none :=
    operandMisfit_natCast [src, dst, pitch] (by simp [hsrc, hdst, hpitch])
  have hfoot : footprintFault s.afterEvent none (.agentUnit agent) (readSetOf v src) (writeSetOf dst pitch height)
      src dst = none :=
    footprintFault_of_free hread (forall_mem_writeSetOf.2 hrows) fun u x l _ hx hb hl =>
      (hfree u x l hx hb hl).imp_right forall_mem_writeSetOf.2
  have hnone : callBlockFault s.afterEvent agent v src dst pitch height = none :=
    (callBlockFault_of_fits (by omega) (by omega) (by omega) (by omega) hfit).trans hfoot
  have hstep := step_of_callBlock hn (callVariant_eq_some.2 hv) hnone
  simp only [Int.toNat_natCast] at hstep
  refine ⟨_, hstep, fun y hy xx hxx => ?_, fun a ha => ?_⟩
  · exact readWord_writeBlock hwf _ (pitchBad_eq_false.2 hp) hxx hy
  · exact readByte_writeBlock_outside s.mem _ ha

/-- Settles O55: every check passes, and the answer is the texel with iba = 0. -/
theorem decodeTexelCallReturns : Obligations.DecodeTexelCallReturns := by
  intro s agent v tag src xx yy hn hv hx hy hal hsrc hread hfree
  have hfit : operandMisfit s.afterEvent.params [(src : Int)] = none :=
    operandMisfit_natCast [src] (List.forall_mem_singleton.2 hsrc)
  have hfoot : footprintFault s.afterEvent none (.agentUnit agent) (readSetOf v src) [] src 0 = none :=
    footprintFault_of_free hread (by simp) fun u x l _ hx hb hl => ⟨hfree u x l hx hb hl, by simp⟩
  have hnone : callTexelFault s.afterEvent agent v src xx yy = none :=
    (callTexelFault_of_fits (by omega) (by omega) hfit).trans hfoot
  have hstep := step_of_callTexel hn (callVariant_eq_some.2 hv) hnone
  simp only [Int.toNat_natCast] at hstep
  exact hstep

end Sys2Proof.Machine
end

section
/-! SUPPORT. Bulk and single-texel decode (42_decode_ops.md R120, R121, R130). -/

namespace Sys2Proof.Machine

/-- The texels of a whole block are those of the texel function (42_decode_ops.md R120). -/
theorem mem_decodeBlockFn {p : Params} {v : Variant} {blk : List Byte} {iba : Bool} {x y : Nat} {w : Word} (hx : x < 4)
    (hy : y < 4) : ((x, y), w) ∈ decodeBlockFn p v blk iba 4 ↔ w = texel p v blk x y iba := by
  simp [decodeBlockFn, mem_blockTexels, hx, hy]

/-- iba does not reach a texel of Variants B and C (40_palette_expansion.md R95). -/
theorem texel_iba_of_ne_a {v : Variant} (hv : v ≠ .a) (p : Params) (blk : List Byte) (x y : Nat) (iba : Bool) :
    texel p v blk x y iba = texel p v blk x y false := by
  obtain ⟨_, _, hsame⟩ := ibaReachesOnlyVariantA
  cases v with
  | a => exact absurd rfl hv
  | b => exact (hsame p blk x y iba).1
  | c => exact (hsame p blk x y iba).2

/-- iba reaches a texel of Variant A exactly when it selects the sentinel (40_palette_expansion.md R94, R95). -/
theorem texel_a_iba_ne_iff (p : Params) (blk : List Byte) (x y : Nat) :
    texel p .a blk x y true ≠ texel p .a blk x y false ↔
      color1 p .a blk ≤ color2 p .a blk ∧ colorIndex p .a blk x y = 3 :=
  (ibaReachesOnlyVariantA.1 p _ _ _ (colorIndex_lt p .a blk x y)).2

/-- Settles O18: membership in the block's texels is equality with the texel function, and what is left is what iba reaches. -/
theorem bulkTexelConsistency : Obligations.BulkTexelConsistency := by
  intro p v blk x y hx hy
  refine ⟨fun w => mem_decodeBlockFn hx hy, fun hv w => ?_, ?_⟩
  · rw [mem_decodeBlockFn hx hy, texel_iba_of_ne_a hv, decodeTexelFn]
  · rintro rfl
    rw [mem_decodeBlockFn hx hy, decodeTexelFn, eq_comm]
    exact texel_a_iba_ne_iff p blk x y

end Sys2Proof.Machine
end

section
/-! SUPPORT. What a step that records a fault leaves (60_exceptions.md R147), and which register accesses raise F_REGACCESS
(60_exceptions.md R145). -/

namespace Sys2Proof.Machine

/-! ### A fault is precise and final -/

/-- A move keeps the fault record, or it raises a fault in a machine that is otherwise the same and whose event is used up
(60_exceptions.md R142, R147). -/
theorem move_fault_or_raise {s t : State} (hm : Move s t) :
    t.fault = s.fault ∨
      ∃ q code info, SameMachine s q ∧ q.events = s.events.tail ∧ t = raise code info q := by
  cases hm with
  | stay h => exact .inl h.fault
  | fault h he code info => exact .inr ⟨_, code, info, h, he, rfl⟩
  | issue h => exact .inl (by rw [setUnit_fault, h.fault])
  | finish h => exact .inl (by rw [finish_fault, h.fault])
  | operand h => exact .inl (by rw [setUnit_fault, h.fault])
  | memWrite h => exact .inl (by rw [withMem_fault, h.fault])
  | answer h => exact .inl (by rw [answer_fault, h.fault])
  | reset h => exact .inl (by rw [setUnit_fault, addDraws_fault, withMem_fault, h.fault])
  | call h => exact .inl (by rw [withMem_fault, h.fault])

/-- Settles O36: only the raising move records a fault, and it changes nothing else of the machine. -/
theorem faultsArePrecise : Obligations.FaultsArePrecise := by
  intro s t r hstep hr
  obtain ⟨hnone, hm⟩ := step_move hstep
  obtain hkept | ⟨q, code, info, h, he, rfl⟩ := move_fault_or_raise hm
  · simp [hkept, hnone] at hr
  · obtain ⟨_, _, hhalted⟩ := firstFaultIsKept
    simpa [hnone, h.mem, h.units, h.params, h.reply, h.draws, he] using hhalted _ r hr

/-! ### An access that touches a window and names no register -/

theorem regAtOffset_eq_some {o : Nat} {r : Reg} : regAtOffset o = some r ↔ o = r.offset := by
  refine ⟨fun h => ?_, fun h => h ▸ regAtOffset_offset r⟩
  unfold regAtOffset at h
  split_ifs at h <;> cases h <;> assumption

/-- An access names a register when it is exactly four bytes wide at the register's offset (10_state.md R22). -/
theorem regNamed_eq_some {p : Params} {u addr width base : Nat} {r : Reg} (hu : p.unitBases[u]? = some base) :
    regNamed p u addr width = some r ↔ width = 4 ∧ addr = base + r.offset := by
  simp only [regNamed, hu, Option.ite_none_right_eq_some, regAtOffset_eq_some]
  omega

/-- The offsets of the registers are aligned words other than the two reserved ones (10_state.md R22). -/
theorem offset_aligned_unreserved (r : Reg) : r.offset % 4 = 0 ∧ r.offset ≠ 0x18 ∧ r.offset ≠ 0x1C := by
  cases r <;> decide

/-- An access that is not one aligned word, or is at a reserved offset, names no register. -/
theorem regNamed_of_badAccess {p : Params} {u addr width base : Nat} (hu : p.unitBases[u]? = some base)
    (hbad : width ≠ 4 ∨ (addr - base) % 4 ≠ 0 ∨ addr - base = 0x18 ∨ addr - base = 0x1C) :
    regNamed p u addr width = none := by
  refine Option.eq_none_iff_forall_ne_some.2 fun r hr => ?_
  obtain ⟨hwidth, rfl⟩ := (regNamed_eq_some hu).1 hr
  have := offset_aligned_unreserved r
  omega

/-- An access that starts below a window names no register of it. -/
theorem regNamed_of_below {p : Params} {u addr width base : Nat} (hu : p.unitBases[u]? = some base)
    (hbelow : addr < base) : regNamed p u addr width = none := by
  refine Option.eq_none_iff_forall_ne_some.2 fun r hr => ?_
  obtain ⟨-, rfl⟩ := (regNamed_eq_some hu).1 hr
  omega

/-- A read that touches a window and names no register raises F_REGACCESS (60_exceptions.md R145). -/
theorem step_of_unnamed_read {s : State} {u agent addr width : Nat} (hn : s.next (.hostRead agent addr width) = true)
    (hw : windowOf s.params addr width = some u) (hr : regNamed s.params u addr width = none) :
    step s = .next (raise .regAccess (.access addr width) s.afterEvent) := by
  rw [(step_of_next hn).2]
  simp [runEvent, hostRead, hw, hr, State.afterEvent]

/-- A write that touches a window and names no register raises F_REGACCESS (60_exceptions.md R145). -/
theorem step_of_unnamed_write {s : State} {u agent addr : Nat} {bytes : List Byte}
    (hn : s.next (.hostWrite agent addr bytes) = true) (hw : windowOf s.params addr bytes.length = some u)
    (hr : regNamed s.params u addr bytes.length = none) :
    step s = .next (raise .regAccess (.access addr bytes.length) s.afterEvent) := by
  rw [(step_of_next hn).2]
  simp [runEvent, hostWrite, hw, hr, State.afterEvent]

/-- RESULT and STATUS are read only (10_state.md R27, R28). -/
theorem writeReg_of_readOnly {u addr : Nat} {r : Reg} {bytes : List Byte} {x : UnitState} {s : State}
    (hr : r = .result ∨ r = .status) :
    writeReg u addr r bytes x s = .next (raise .regAccess (.access addr bytes.length) s) := by
  rcases hr with rfl | rfl <;> rfl

/-- Settles O41: a bad access names no register, a read-only register refuses its write, and outside every window the access
is a memory access. -/
theorem registerAccessFaults : Obligations.RegisterAccessFaults :=
  ⟨fun _ _ _ _ _ _ hn hw hu _ hbad => step_of_unnamed_read hn hw (regNamed_of_badAccess hu hbad),
    fun _ _ _ _ _ _ hn hw hu _ hbad => step_of_unnamed_write hn hw (regNamed_of_badAccess hu hbad),
    fun _ _ _ _ _ _ _ hn hx hr => (step_of_nextWrites hn hx).trans (writeReg_of_readOnly hr),
    fun _ _ _ _ hn hw => step_of_memRead hn hw,
    fun _ _ _ _ hn hw => step_of_memWrite hn hw⟩

/-- Settles O42: an access that starts below the window it touches names no register of it. -/
theorem straddlingAccessFaults : Obligations.StraddlingAccessFaults :=
  ⟨fun _ _ _ _ _ _ hn hw hu hbelow => step_of_unnamed_read hn hw (regNamed_of_below hu hbelow),
    fun _ _ _ _ _ _ hn hw hu hbelow => step_of_unnamed_write hn hw (regNamed_of_below hu hbelow)⟩

end Sys2Proof.Machine
end

section
/-! SUPPORT. The reset of a unit (70_reset_and_hazards.md R160, R161), and the end of a run (R165, R166): a step of a
machine whose hosts have finished uses up an event or a busy unit. -/

namespace Sys2Proof.Machine

/-! ### The reset of a unit (70_reset_and_hazards.md R160, R161) -/

/-- A reset of an idle unit leaves no byte open. -/
theorem openBytes_of_idle {x : UnitState} (hb : x.busy = false) : openBytes x = [] := by simp [openBytes, hb]

/-- A byte outside the write set of the command that the unit holds is not left open. -/
theorem not_mem_openBytes {x : UnitState} {l : InFlight} {a : Nat} (hl : x.inFlight = some l)
    (ha : rangesHave l.writeSet a = false) : a ∉ openBytes x := by
  intro hopen
  obtain ⟨k, hk, hw⟩ := mem_openBytes hopen
  obtain rfl : l = k := Option.some.inj (hl.symm.trans hk)
  simp [ha] at hw

/-- The step at a reset of a unit. -/
theorem step_of_reset {s : State} {u : Nat} {x : UnitState} (hn : s.next (.reset u) = true)
    (hx : s.units[u]? = some x) :
    step s = .next (((s.afterEvent.withMem (drawBytes s.mem s.draws (openBytes x))).addDraws
      (openBytes x).length).setUnit u UnitState.reset) := by
  rw [(step_of_next hn).2]
  simp [runEvent, resetUnit, hx, State.afterEvent]

/-- Settles O46: the bytes drawn are those left open, none or the bytes of the abandoned write set. -/
theorem unitReset : Obligations.UnitReset := by
  intro s u x hn hx
  refine ⟨_, _, step_of_reset hn hx, fun hb => ?_, fun l hl a ha => ?_⟩
  · rw [openBytes_of_idle hb]
    rfl
  · exact readByte_drawBytes_other _ _ _ _ (not_mem_openBytes hl ha)

/-! ### How many units are busy -/

theorem busyCount_eq_zero {s : State} : s.busyCount = 0 ↔ ∀ x ∈ s.units, x.busy = false := by
  simp [State.busyCount, List.countP_eq_zero]

/-- Putting an idle unit in the place of another takes that one's BUSY off the count. -/
theorem busyCount_of_set_idle {s t : State} {u : Nat} {x y : UnitState} (hx : s.units[u]? = some x)
    (hy : y.busy = false) (ht : t.units = s.units.set u y) : t.busyCount + x.busy.toNat = s.busyCount := by
  obtain ⟨hu, rfl⟩ := List.getElem?_eq_some_iff.1 hx
  simp only [State.busyCount, ht, List.countP_set hu, hy]
  cases hb : s.units[u].busy with
  | false => simp
  | true =>
    have hpos : 0 < s.units.countP (·.busy) := List.countP_pos_iff.2 ⟨_, List.getElem_mem hu, hb⟩
    simp only [↓reduceIte, Bool.false_eq_true, Bool.toNat_true]
    omega

/-- A command that finishes leaves one busy unit fewer. -/
theorem busyCount_finish {s q : State} {u : Nat} {x : UnitState} (l : InFlight) (hq : q.units = s.units)
    (hx : s.units[u]? = some x) (hb : x.busy = true) : (finish u x l q).busyCount + 1 = s.busyCount := by
  obtain ⟨y, hunits, hidle, _⟩ := finish_units u x l q
  have hcount := busyCount_of_set_idle hx hidle (hq ▸ hunits)
  rwa [hb, Bool.toNat_true] at hcount

/-- When some unit is busy there is a first one. -/
theorem exists_firstBusy {s : State} (h : 0 < s.busyCount) :
    ∃ u x, firstBusy s = some u ∧ s.units[u]? = some x ∧ x.busy = true := by
  cases hfirst : firstBusy s with
  | none =>
    have hidle := busyCount_eq_zero.2 (List.findIdx?_eq_none_iff.1 hfirst)
    omega
  | some u =>
    obtain ⟨hu, hb, _⟩ := List.findIdx?_eq_some_iff_getElem.1 hfirst
    exact ⟨u, _, rfl, List.getElem?_eq_getElem hu, hb⟩

/-- A busy unit holds a command, by the invariant. -/
theorem exists_inFlight_of_busy {s : State} (hi : s.inv = true) {u : Nat} {x : UnitState} (hx : s.units[u]? = some x)
    (hb : x.busy = true) : ∃ l, x.inFlight = some l := by
  obtain ⟨_, _, _, hok, _⟩ := inv_iff.1 hi
  obtain ⟨_, l, hl, _⟩ := (ok_busy hb).1 (hok u x hx)
  exact ⟨l, hl⟩

/-! ### The steps of a machine whose hosts have finished (70_reset_and_hazards.md R166) -/

/-- With no event left and every unit idle nothing happens (log 12). -/
theorem step_of_all_idle {s : State} (hf : s.fault = none) (he : s.events = []) (hc : s.busyCount = 0) :
    step s = .next s := by
  have hfirst : firstBusy s = none := List.findIdx?_eq_none_iff.2 (busyCount_eq_zero.1 hc)
  simp [step_eq hf, nextMove, he, idleMove, hfirst]

/-- With no event left the first busy unit finishes its command (log 12). -/
theorem step_of_firstBusy {s : State} {u : Nat} {x : UnitState} {l : InFlight} (hf : s.fault = none)
    (he : s.events = []) (hfirst : firstBusy s = some u) (hx : s.units[u]? = some x) (hb : x.busy = true)
    (hl : x.inFlight = some l) : step s = .next (finish u x l (s.withTurn (.complete u))) := by
  have hx' : (s.withTurn (.complete u)).units[u]? = some x := hx
  rw [← exec_completes (withTurn_turn ..) hx' hb hl, ← completeUnit_of_busy hx hb hl]
  simp [step_eq hf, nextMove, he, idleMove, hfirst]

/-- With no event left a step takes one busy unit off. -/
theorem exists_step_of_no_event {s : State} (hi : s.inv = true) (hf : s.fault = none) (he : s.events = [])
    (hc : 0 < s.busyCount) :
    ∃ t, step s = .next t ∧ t.fault = none ∧ t.events = [] ∧ t.busyCount + 1 = s.busyCount := by
  obtain ⟨u, x, hfirst, hx, hb⟩ := exists_firstBusy hc
  obtain ⟨l, hl⟩ := exists_inFlight_of_busy hi hx hb
  exact ⟨_, step_of_firstBusy hf he hfirst hx hb hl, (finish_fault ..).trans hf, (finish_events ..).trans he,
    busyCount_finish l (withTurn_units ..) hx hb⟩

/-- A completion or a reset of a unit that exists is used up by the step, which records no fault and
makes no unit busy. -/
theorem exists_step_of_unit_event {s : State} {e : Event} {u : Nat} (hi : s.inv = true) (hn : s.next e = true)
    (hu : u < s.units.length) (he : e = .complete u ∨ e = .reset u) :
    ∃ t, step s = .next t ∧ t.fault = none ∧ t.events = s.events.tail ∧ t.busyCount ≤ s.busyCount := by
  have hx : s.units[u]? = some s.units[u] := List.getElem?_eq_getElem hu
  obtain ⟨hf, _⟩ := step_of_next hn
  rcases he with rfl | rfl
  · cases hb : s.units[u].busy with
    | false => exact ⟨_, step_of_complete_idle hn hx hb, hf, rfl, le_rfl⟩
    | true =>
      obtain ⟨l, hl⟩ := exists_inFlight_of_busy hi hx hb
      refine ⟨_, step_of_complete_busy hn hx hb hl, (finish_fault ..).trans hf, finish_events .., ?_⟩
      have hcount := busyCount_finish (s := s) l (withTurn_units s.afterEvent (.complete u)) hx hb
      omega
  · refine ⟨_, step_of_reset hn hx, hf, rfl, ?_⟩
    exact Nat.le.intro (busyCount_of_set_idle hx (y := UnitState.reset) rfl rfl)

/-- No step changes how many units there are. -/
theorem length_units_of_step {s t : State} (hi : s.inv = true) (hn : step s = .next t) :
    t.units.length = s.units.length := by
  obtain ⟨hit, hp⟩ := stepKeepsTheInvariant s t hi hn
  obtain ⟨_, _, hlen, _⟩ := inv_iff.1 hi
  obtain ⟨_, _, hlent, _⟩ := inv_iff.1 hit
  rw [hlent, hp, hlen]

/-! ### The end of a run (70_reset_and_hazards.md R165) -/

/-- A run has ended exactly when R165's three conditions hold. -/
theorem ended_iff {s : State} :
    s.ended = true ↔ (∀ e ∈ s.events, (∃ u, e = .complete u) ∨ (∃ u, e = .reset u)) ∧
      (∀ x ∈ s.units, x.busy = false) ∧ s.fault = none := by
  simp [State.ended, State.hostsDone, byHost_eq_false, and_assoc]

theorem verdict_of_fault {s : State} {r : FaultRecord} (h : s.fault = some r) : s.verdict = some (.rejected r) := by
  simp [State.verdict, h]

theorem verdict_of_ended {s : State} (h : s.ended = true) : s.verdict = some (.ended s.final) := by
  obtain ⟨_, _, hf⟩ := ended_iff.1 h
  simp [State.verdict, hf, h]

/-- From a state with no event left, a run of as many steps as there are busy units reaches one with none busy. -/
theorem exists_run_to_idle {n : Nat} {s : State} (hi : s.inv = true) (hf : s.fault = none) (he : s.events = [])
    (hn : s.busyCount = n) :
    ∃ t, Host.Core.run core n s = .next t ∧ t.fault = none ∧ t.events = [] ∧ t.busyCount = 0 := by
  induction n generalizing s with
  | zero => exact ⟨s, rfl, hf, he, hn⟩
  | succ n ih =>
    obtain ⟨t, hst, hft, het, hct⟩ := exists_step_of_no_event hi hf he (by omega)
    obtain ⟨hit, _⟩ := stepKeepsTheInvariant s t hi hst
    rw [run_succ_of_step hst]
    exact ih hit hft het (by omega)

/-- Settles O53: each step takes one busy unit off, and with no event and no busy unit left nothing happens. -/
theorem quietRunEnds : Obligations.QuietRunEnds := by
  intro s hi hf he
  obtain ⟨t, hrun, hft, het, hct⟩ := exists_run_to_idle hi hf he rfl
  exact ⟨t, hrun, ended_iff.2 ⟨by simp [het], busyCount_eq_zero.1 hct, hft⟩, step_of_all_idle hft het hct⟩

/-- The machine is left with moves of its units and of the platform alone, and no fault is recorded. -/
structure Settling (s : State) : Prop where
  inv    : s.inv = true
  fault  : s.fault = none
  events : ∀ e ∈ s.events, ∃ u < s.units.length, e = .complete u ∨ e = .reset u

/-- A step that records no fault and brings no new event leaves such a machine such a one. -/
theorem settling_of_step {s t : State} (hs : Settling s) (hn : step s = .next t) (hf : t.fault = none)
    (he : ∀ e ∈ t.events, e ∈ s.events) : Settling t :=
  ⟨(stepKeepsTheInvariant s t hs.inv hn).1, hf, fun e hm =>
    (length_units_of_step hs.inv hn).symm ▸ hs.events e (he e hm)⟩

/-- While such a machine has not ended, a step uses up an event or a busy unit. -/
theorem exists_step_of_settling {s : State} (hs : Settling s) (hend : s.ended = false) :
    ∃ t, step s = .next t ∧ Settling t ∧
      t.events.length + t.busyCount < s.events.length + s.busyCount := by
  cases he : s.events with
  | nil =>
    have hc : s.busyCount ≠ 0 := fun hc => by
      simp [ended_iff.2 ⟨by simp [he], busyCount_eq_zero.1 hc, hs.fault⟩] at hend
    obtain ⟨t, hst, hft, het, hct⟩ := exists_step_of_no_event hs.inv hs.fault he (by omega)
    refine ⟨t, hst, settling_of_step hs hst hft (by simp [het]), ?_⟩
    rw [het]
    omega
  | cons e es =>
    obtain ⟨u, hu, hunit⟩ := hs.events e (by simp [he])
    have hn : s.next e = true := by simp [State.next, hs.fault, he]
    obtain ⟨t, hst, hft, het, hct⟩ := exists_step_of_unit_event hs.inv hn hu hunit
    refine ⟨t, hst, settling_of_step hs hst hft fun e hm => List.mem_of_mem_tail (het ▸ hm), ?_⟩
    rw [het, he, List.tail_cons, List.length_cons]
    omega

/-- Such a machine's run ends within as many steps as there are events and busy units. -/
theorem runFrom_of_settling {k : Nat} {s : State} (hs : Settling s) (hk : s.events.length + s.busyCount ≤ k) :
    ∃ f, runFrom k s = .ended f := by
  induction k generalizing s with
  | zero =>
    cases hend : s.ended with
    | true => exact ⟨_, runFrom_of_verdict (verdict_of_ended hend)⟩
    | false =>
      obtain ⟨_, _, _, hlt⟩ := exists_step_of_settling hs hend
      omega
  | succ k ih =>
    cases hend : s.ended with
    | true => exact ⟨_, runFrom_of_verdict (verdict_of_ended hend)⟩
    | false =>
      obtain ⟨t, hst, hset, hlt⟩ := exists_step_of_settling hs hend
      rw [runFrom_of_next (verdict_eq_none.2 ⟨hs.fault, hend⟩) hst]
      exact ih hset (by omega)

/-- Settles O58: the verdict of an ended and of a faulted state, and the count of events and busy units that every step
of a machine whose hosts have finished brings down. -/
theorem runEnds : Obligations.RunEnds := by
  refine ⟨fun s => ended_iff, fun s k hend => ?_, fun s k r hf => runFrom_of_verdict (verdict_of_fault hf),
    fun s hi hf he => runFrom_of_settling ⟨hi, hf, he⟩ le_rfl⟩
  obtain ⟨_, _, hf⟩ := ended_iff.1 hend
  rw [runFrom_of_verdict (verdict_of_ended hend), State.final, hf]
  rfl

end Sys2Proof.Machine
end
